-- ==== Sys2Proof/Word.lean ====
section
/-! DEFINITION. The words of the machine: bytes, 16-bit words and 32-bit long words (spec/00_scope.md rules R5 and R6). -/

namespace Sys2Proof

/-- A byte of memory or of a register. -/
abbrev Byte := BitVec 8

/-- A 16-bit word. -/
abbrev Word16 := BitVec 16

/-- A 32-bit long word: a general register, the program counter, an effective address. -/
abbrev Word32 := BitVec 32

end Sys2Proof
end

