-- ==== Sys2Proof/Config.lean ====
section
/-! DEFINITION. What an implementation fixes and the free values of the spec (spec/00_scope.md rules R4 and R8). -/

namespace Sys2Proof

/-- The n-th free bit of a run: `draw_1()` of rule R8. It has no value that a proof can use. Log 6. -/
opaque Config.freeBit : Nat → Bool

/-- The n-th free value of `w` bits of a run: `draw_w()` of rule R8. It has no value that a proof can use. Log 6. -/
opaque Config.freeValue (w : Nat) : Nat → BitVec w

/-- The default of the open parameter ADDR_BITS (rules R4 and R50, decision D2). -/
def Config.defaultAddrBits : Nat := 24

/-- What an address that memory does not list reads as. DESIGN CHOICE, unsafe: the spec leaves it to the launch. Log 3. -/
def Config.unlisted : Byte := 0#8

/-- The longest instruction in bytes (rule R85). -/
def Config.maxInstrBytes : Nat := 7

end Sys2Proof
end

