-- ==== Sys2Proof/Syntax.lean ====
section
/-! DEFINITION. The instructions: operand sizes, register codes, memory modes, condition codes, and one constructor of `Instr`
for each row of spec/opcode_table.json (spec/30_encoding.md, spec/10_state.md rules R21 and R22). -/

namespace Sys2Proof

/-- Operand sizes (R6, R71). -/
inductive Size where
  | b | w | l
  deriving DecidableEq, Repr

/-- The sizes of a form whose page marks Long word with X. -/
inductive SizeBW where
  | b | w
  deriving DecidableEq, Repr

/-- The sizes of a form whose page marks Byte with X. -/
inductive SizeWL where
  | w | l
  deriving DecidableEq, Repr

/-- The operation width n in bits (R6). -/
def Size.bits : Size → Nat
  | .b => 8
  | .w => 16
  | .l => 32

/-- `bytes(n) = n / 8` (R6). -/
def Size.bytes : Size → Nat
  | .b => 1
  | .w => 2
  | .l => 4

/-- The size as one of the three. -/
def SizeBW.size : SizeBW → Size
  | .b => .b
  | .w => .w

/-- The size as one of the three. -/
def SizeWL.size : SizeWL → Size
  | .w => .w
  | .l => .l

/-- The operation width n in bits (R6). -/
abbrev SizeBW.bits (z : SizeBW) : Nat := z.size.bits

/-- The operation width n in bits (R6). -/
abbrev SizeWL.bits (z : SizeWL) : Nat := z.size.bits

/-- A row of the register map R21: a 32-bit register by the name its row gives it. In each bank the four registers are
0 XWA, 1 XBC, 2 XDE, 3 XHL; the unbanked ones are 0 XIX, 1 XIY, 2 XIZ, 3 XSP (R20). -/
inductive LongReg where
  /-- codes 00H to 3CH: a register of a bank by its number -/
  | bank (b q : BitVec 2)
  /-- codes D0H to DCH: a register of the previous bank -/
  | prev (q : BitVec 2)
  /-- codes E0H to ECH: a register of the current bank -/
  | cur (q : BitVec 2)
  /-- codes F0H to FCH: XIX, XIY, XIZ, XSP -/
  | idx (j : BitVec 2)
  deriving DecidableEq, Repr

/-- An 8-bit register code of R21: a row and a byte offset in it (R38). -/
structure RegCode where
  row : LongReg
  off : BitVec 2
  deriving DecidableEq, Repr

/-- The operand named by a register prefix: a 3-bit code, or an extension code (R73). -/
inductive RSel where
  | short (c : BitVec 3)
  | ext (k : RegCode)
  deriving DecidableEq, Repr

/-- The step codes of (-r32) and (r32+) that are defined (R76). -/
inductive StepCode where
  | by1 | by2 | by4
  deriving DecidableEq, Repr

/-- The memory addressing modes (R74). -/
inductive Mem where
  /-- (XRR): the current-bank 32-bit register with a 3-bit code -/
  | ind (R : BitVec 3)
  /-- (XRR+d8) -/
  | indD8 (R : BitVec 3) (d : BitVec 8)
  /-- (#8) -/
  | abs8 (a : BitVec 8)
  /-- (#16) -/
  | abs16 (a : BitVec 16)
  /-- (#24) -/
  | abs24 (a : BitVec 24)
  /-- (r32) -/
  | reg (r : LongReg)
  /-- (r32+d16) -/
  | regD16 (r : LongReg) (d : BitVec 16)
  /-- (r32+r8) -/
  | regR8 (r : LongReg) (k : RegCode)
  /-- (r32+r16) -/
  | regR16 (r : LongReg) (k : RegCode)
  /-- (-r32) -/
  | preDec (r : LongReg) (st : StepCode)
  /-- (r32+) -/
  | postInc (r : LongReg) (st : StepCode)
  deriving DecidableEq, Repr

/-- The sixteen condition codes (R80), in code order 0 to 15. -/
inductive Cond where
  | never | lt | le | ule | ov | mi | zero | carry | always | ge | gt | ugt | nov | pl | nz | nc
  deriving DecidableEq, Repr

/-- The instructions: one constructor for each of the 59 rows of spec/opcode_table.json, in the table's order. `z` is the operand
size, `r` the register named by the prefix, `R` a 3-bit register code, `m` the memory mode, `imm` an immediate (its low n bits),
`n` a #3 or #4 field, `d` a displacement. -/
inductive Instr where
  -- fixed forms
  | ei (n : BitVec 3)
  | di
  | decf
  | ccf
  | exFF
  | call16 (a : BitVec 16)
  | call24 (a : BitVec 24)
  | calr (d : BitVec 16)
  -- forms with a register prefix
  | cplR (z : SizeBW) (r : RSel)
  | divRI (z : SizeBW) (r : RSel) (imm : Word32)
  | divsRI (z : SizeBW) (r : RSel) (imm : Word32)
  | bs1f (r : RSel)
  | bs1b (r : RSel)
  | daa (r : RSel)
  | extz (z : SizeWL) (r : RSel)
  | exts (z : SizeWL) (r : RSel)
  | djnz (z : SizeBW) (r : RSel) (d : BitVec 8)
  | andcfNR (z : SizeBW) (n : BitVec 4) (r : RSel)
  | andcfAR (z : SizeBW) (r : RSel)
  | chgNR (z : SizeBW) (n : BitVec 4) (r : RSel)
  | bitNR (z : SizeBW) (n : BitVec 4) (r : RSel)
  | divRR (z : SizeBW) (R : BitVec 3) (r : RSel)
  | divsRR (z : SizeBW) (R : BitVec 3) (r : RSel)
  | decNR (z : Size) (n : BitVec 3) (r : RSel)
  | addRR (z : Size) (R : BitVec 3) (r : RSel)
  | adcRR (z : Size) (R : BitVec 3) (r : RSel)
  | exRR (z : SizeBW) (R : BitVec 3) (r : RSel)
  | andRR (z : Size) (R : BitVec 3) (r : RSel)
  | addRI (z : Size) (r : RSel) (imm : Word32)
  | adcRI (z : Size) (r : RSel) (imm : Word32)
  | andRI (z : Size) (r : RSel) (imm : Word32)
  | cpRI (z : Size) (r : RSel) (imm : Word32)
  | cpRN (z : SizeBW) (r : RSel) (n : BitVec 3)
  | cpRR (z : Size) (R : BitVec 3) (r : RSel)
  -- forms with a source-type memory prefix
  | cpi (z : SizeBW) (R : BitVec 3)
  | cpir (z : SizeBW) (R : BitVec 3)
  | cpd (z : SizeBW) (R : BitVec 3)
  | cpdr (z : SizeBW) (R : BitVec 3)
  | exMR (z : SizeBW) (m : Mem) (R : BitVec 3)
  | addMI (z : SizeBW) (m : Mem) (imm : Word32)
  | adcMI (z : SizeBW) (m : Mem) (imm : Word32)
  | andMI (z : SizeBW) (m : Mem) (imm : Word32)
  | cpMI (z : SizeBW) (m : Mem) (imm : Word32)
  | divRM (z : SizeBW) (R : BitVec 3) (m : Mem)
  | divsRM (z : SizeBW) (R : BitVec 3) (m : Mem)
  | decNM (z : SizeBW) (n : BitVec 3) (m : Mem)
  | addRM (z : Size) (R : BitVec 3) (m : Mem)
  | addMR (z : Size) (m : Mem) (R : BitVec 3)
  | adcRM (z : Size) (R : BitVec 3) (m : Mem)
  | adcMR (z : Size) (m : Mem) (R : BitVec 3)
  | andRM (z : Size) (R : BitVec 3) (m : Mem)
  | andMR (z : Size) (m : Mem) (R : BitVec 3)
  | cpRM (z : Size) (R : BitVec 3) (m : Mem)
  | cpMR (z : Size) (m : Mem) (R : BitVec 3)
  -- forms with a destination-type memory prefix
  | andcfAM (m : Mem)
  | andcfNM (n : BitVec 3) (m : Mem)
  | chgNM (n : BitVec 3) (m : Mem)
  | bitNM (n : BitVec 3) (m : Mem)
  | callM (c : Cond) (m : Mem)
  deriving DecidableEq, Repr

end Sys2Proof
end

