-- ==== Sys2Proof/WellFormed.lean ====
section
/-! DEFINITION. Which terms of `Instr` are instructions of the spec: the conditions on operands that the types of Syntax.lean do
not already carry (spec/10_state.md rule R38, spec/42_arithmetic.md rule R141, spec/45_cpu_control.md rule R201). -/

namespace Sys2Proof

/-- The code of a word register is a multiple of 2, of a long-word register a multiple of 4 (R38). -/
def RegCode.aligned (k : RegCode) : Size → Bool
  | .b => true
  | .w => k.off = 0#2 || k.off = 2#2
  | .l => k.off = 0#2

/-- A selection by a register prefix names a register of size `z` (R38, R73). -/
def RSel.wf (z : Size) : RSel → Bool
  | .short _ => true
  | .ext k => k.aligned z

/-- The size of a dividend: twice the operation size (R141). -/
def SizeBW.double : SizeBW → Size
  | .b => .w
  | .w => .l

/-- The 3-bit codes that name a dividend: at Byte only the odd ones, at Word all (R141). -/
def dividendCodeOk : SizeBW → BitVec 3 → Bool
  | .b, R => R.getLsbD 0
  | .w, _ => true

/-- A selection by a register prefix names a dividend for operation size `z` (R141). -/
def RSel.dividendOk (z : SizeBW) : RSel → Bool
  | .short c => dividendCodeOk z c
  | .ext k => k.aligned z.double

/-- The registers that a mode names are registers of the size the mode needs (R74, R75). -/
def Mem.wf : Mem → Bool
  | .regR16 _ k => k.aligned .w
  | _ => true

/-- An immediate has `bytes(n)` bytes (R77). -/
def immFits (z : Size) (imm : Word32) : Bool := decide (imm.toNat < 2 ^ z.bits)

/-- The well-formed instructions: the ones an encoding stands for. `ei 7` is left out because its byte pair 06H 07H is read as DI
(R201, `alias_of`). Log 26. -/
def Instr.wf : Instr → Bool
  | .ei n => n ≠ 7#3
  | .di | .decf | .ccf | .exFF => true
  | .call16 _ | .call24 _ | .calr _ => true
  | .cplR z r => r.wf z.size
  | .divRI z r imm | .divsRI z r imm => r.dividendOk z && immFits z.size imm
  | .bs1f r | .bs1b r => r.wf .w
  | .daa _ => true
  | .extz z r | .exts z r => r.wf z.size
  | .djnz z r _ => r.wf z.size
  | .andcfNR z _ r | .andcfAR z r | .chgNR z _ r | .bitNR z _ r => r.wf z.size
  | .divRR z R r | .divsRR z R r => dividendCodeOk z R && r.wf z.size
  | .decNR z _ r => r.wf z
  | .addRR z _ r | .adcRR z _ r | .andRR z _ r | .cpRR z _ r => r.wf z
  | .exRR z _ r => r.wf z.size
  | .addRI z r imm | .adcRI z r imm | .andRI z r imm | .cpRI z r imm => r.wf z && immFits z imm
  | .cpRN z r _ => r.wf z.size
  | .cpi _ _ | .cpir _ _ | .cpd _ _ | .cpdr _ _ => true
  | .exMR _ m _ => m.wf
  | .addMI z m imm | .adcMI z m imm | .andMI z m imm | .cpMI z m imm => m.wf && immFits z.size imm
  | .divRM z R m | .divsRM z R m => dividendCodeOk z R && m.wf
  | .decNM _ _ m => m.wf
  | .addRM _ _ m | .adcRM _ _ m | .andRM _ _ m | .cpRM _ _ m => m.wf
  | .addMR _ m _ | .adcMR _ m _ | .andMR _ m _ | .cpMR _ m _ => m.wf
  | .andcfAM m | .andcfNM _ m | .chgNM _ m | .bitNM _ m | .callM _ m => m.wf

end Sys2Proof
end

