-- ==== Sys2Proof/Decode.lean ====
section
/-! DEFINITION. The decoder and the encoder (spec/30_encoding.md rules R70 to R88). The decoder is total on any bytes: it answers an
instruction and the bytes after it, or that the bytes end too early, or a refusal with the name the spec gives it. Each parser
below hands what it reads to a continuation `k`. -/

namespace Sys2Proof

/-- Why an encoding is refused (R88): the reasons of the spec's `refuse(...)` that belong to the decoder. -/
inductive BadEncoding where
  /-- no row of the opcode map (R81 to R84, D5) -/
  | unknownEncoding
  /-- a size the page marks X (R71, D27) -/
  | sizeNotListed
  /-- a register code 40H to CFH (R38, D13) -/
  | unassignedRegisterCode
  /-- a register code that is no multiple of 2 or 4 where the size needs one (R38, D24) -/
  | misalignedRegisterCode
  /-- step code 11 (R76, D25) -/
  | stepCode11
  /-- nonzero spare bits in a #4 byte or in EI's second byte (R79, R200, D19) -/
  | spareBitsSet
  /-- an even dividend code of a byte-size divide (R141, D23) -/
  | oddDividendCode
  deriving DecidableEq, Repr

/-- What the decoder answers. -/
inductive Decoded where
  /-- an instruction and the bytes after it -/
  | ok (i : Instr) (rest : List Byte)
  /-- the bytes end before the instruction does -/
  | truncated
  /-- no instruction of the spec -/
  | refuse (why : BadEncoding)
  deriving DecidableEq, Repr

/-! ## Fields -/

/-- Bits 7 to 3 of a byte. -/
def hi5 (b : Byte) : BitVec 5 := b.extractLsb' 3 5

/-- Bits 2 to 0 of a byte. -/
def lo3 (b : Byte) : BitVec 3 := b.extractLsb' 0 3

/-- Bits 7 to 4 of a byte. -/
def hi4 (b : Byte) : BitVec 4 := b.extractLsb' 4 4

/-- Bits 3 to 0 of a byte. -/
def lo4 (b : Byte) : BitVec 4 := b.extractLsb' 0 4

/-- Bits 7 to 2 of a byte: the source's "Upper 6 bits of register code" (R74). -/
def hi6 (b : Byte) : BitVec 6 := b.extractLsb' 2 6

/-- Bits 1 to 0 of a byte. -/
def lo2 (b : Byte) : BitVec 2 := b.extractLsb' 0 2

/-- Bits 5 to 4 of a byte: the size field zz of a prefix byte (R71). -/
def sizeField (b : Byte) : BitVec 2 := b.extractLsb' 4 2

/-- The code zz of a size (R71). -/
def Size.code : Size → BitVec 2
  | .b => 0b00#2
  | .w => 0b01#2
  | .l => 0b10#2

/-- The size of a code zz; 11 is none (R71). -/
def sizeOfCode (zz : BitVec 2) : Option Size :=
  if zz = 0b00#2 then some .b else if zz = 0b01#2 then some .w else if zz = 0b10#2 then some .l else none

/-- The upper six bits of the code of a row of the register map (R21). -/
def LongReg.code6 : LongReg → BitVec 6
  | .bank b q => 0b00#2 ++ b ++ q
  | .prev q => 0b1101#4 ++ q
  | .cur q => 0b1110#4 ++ q
  | .idx j => 0b1111#4 ++ j

/-- The row with the given upper six bits; codes 40H to CFH have none (R38, D13). -/
def longRegOfCode6 (c : BitVec 6) : Option LongReg :=
  if c.extractLsb' 4 2 = 0b00#2 then some (.bank (c.extractLsb' 2 2) (c.extractLsb' 0 2))
  else if c.extractLsb' 2 4 = 0b1101#4 then some (.prev (c.extractLsb' 0 2))
  else if c.extractLsb' 2 4 = 0b1110#4 then some (.cur (c.extractLsb' 0 2))
  else if c.extractLsb' 2 4 = 0b1111#4 then some (.idx (c.extractLsb' 0 2))
  else none

/-- The 8-bit register code as a byte (R21, R38). -/
def RegCode.toByte (k : RegCode) : Byte := k.row.code6 ++ k.off

/-- The byte that stands for a row: its code with the two low bits 0. -/
def LongReg.toByte (r : LongReg) : Byte := r.code6 ++ 0b00#2

/-- The step a step code names (R76). PRESUMED for 2 and 4 (general knowledge G1). Log 10. -/
def StepCode.amount : StepCode → Nat
  | .by1 => 1
  | .by2 => 2
  | .by4 => 4

/-- The code of a step (R76). -/
def StepCode.code : StepCode → BitVec 2
  | .by1 => 0b00#2
  | .by2 => 0b01#2
  | .by4 => 0b10#2

/-- The step of a code; 11 is not defined (R76). -/
def stepOfCode (ss : BitVec 2) : Option StepCode :=
  if ss = 0b00#2 then some .by1 else if ss = 0b01#2 then some .by2 else if ss = 0b10#2 then some .by4 else none

/-- The code of a condition (R80). -/
def Cond.code : Cond → BitVec 4
  | .never => 0x0#4 | .lt => 0x1#4 | .le => 0x2#4 | .ule => 0x3#4
  | .ov => 0x4#4 | .mi => 0x5#4 | .zero => 0x6#4 | .carry => 0x7#4
  | .always => 0x8#4 | .ge => 0x9#4 | .gt => 0xA#4 | .ugt => 0xB#4
  | .nov => 0xC#4 | .pl => 0xD#4 | .nz => 0xE#4 | .nc => 0xF#4

/-- The condition of a code: all sixteen are assigned (R80). -/
def condOfCode (c : BitVec 4) : Cond :=
  if c = 0x0#4 then .never else if c = 0x1#4 then .lt else if c = 0x2#4 then .le else if c = 0x3#4 then .ule
  else if c = 0x4#4 then .ov else if c = 0x5#4 then .mi else if c = 0x6#4 then .zero else if c = 0x7#4 then .carry
  else if c = 0x8#4 then .always else if c = 0x9#4 then .ge else if c = 0xA#4 then .gt else if c = 0xB#4 then .ugt
  else if c = 0xC#4 then .nov else if c = 0xD#4 then .pl else if c = 0xE#4 then .nz else .nc

/-! ## Parsers of parts -/

/-- The next byte. -/
def withByte (bs : List Byte) (k : Byte → List Byte → Decoded) : Decoded :=
  match bs with
  | [] => .truncated
  | b :: rest => k b rest

/-- Two bytes, low byte first (R77, R78). -/
def withTwo (bs : List Byte) (k : BitVec 16 → List Byte → Decoded) : Decoded :=
  withByte bs fun b0 bs => withByte bs fun b1 bs => k (b1 ++ b0) bs

/-- Three bytes, low byte first (R77). -/
def withThree (bs : List Byte) (k : BitVec 24 → List Byte → Decoded) : Decoded :=
  withByte bs fun b0 bs => withByte bs fun b1 bs => withByte bs fun b2 bs => k (b2 ++ b1 ++ b0) bs

/-- Four bytes, low byte first (R77). -/
def withFour (bs : List Byte) (k : BitVec 32 → List Byte → Decoded) : Decoded :=
  withByte bs fun b0 bs => withByte bs fun b1 bs => withByte bs fun b2 bs => withByte bs fun b3 bs =>
    k (b3 ++ b2 ++ b1 ++ b0) bs

/-- An immediate of `bytes(n)` bytes (R77). -/
def withImm (z : Size) (bs : List Byte) (k : Word32 → List Byte → Decoded) : Decoded :=
  match z with
  | .b => withByte bs fun v bs => k (v.setWidth 32) bs
  | .w => withTwo bs fun v bs => k (v.setWidth 32) bs
  | .l => withFour bs k

/-- The byte `0 0 0 0 # # # #` (R79). -/
def withNum4 (bs : List Byte) (k : BitVec 4 → List Byte → Decoded) : Decoded :=
  withByte bs fun b bs => if hi4 b = 0#4 then k (lo4 b) bs else .refuse .spareBitsSet

/-- A form that exists at Byte and Word (R71). -/
def onBW (z : Size) (k : SizeBW → Decoded) : Decoded :=
  match z with
  | .b => k .b
  | .w => k .w
  | .l => .refuse .sizeNotListed

/-- A form that exists at Word and Long word (R71). -/
def onWL (z : Size) (k : SizeWL → Decoded) : Decoded :=
  match z with
  | .b => .refuse .sizeNotListed
  | .w => k .w
  | .l => k .l

/-- A form that exists at one size only (R71). -/
def onOnly (want z : Size) (d : Decoded) : Decoded :=
  if z = want then d else .refuse .sizeNotListed

/-- A row from the upper six bits of its code (R38). -/
def withRow (c : BitVec 6) (k : LongReg → Decoded) : Decoded :=
  match longRegOfCode6 c with
  | some r => k r
  | none => .refuse .unassignedRegisterCode

/-- A byte that is the code of a register of size `z` (R38). -/
def withRegCode (z : Size) (bs : List Byte) (k : RegCode → List Byte → Decoded) : Decoded :=
  withByte bs fun b bs => withRow (hi6 b) fun row =>
    if RegCode.aligned ⟨row, lo2 b⟩ z then k ⟨row, lo2 b⟩ bs else .refuse .misalignedRegisterCode

/-- A byte that is the code of a 32-bit register (R38, R74). -/
def withLongReg (bs : List Byte) (k : LongReg → List Byte → Decoded) : Decoded :=
  withRegCode .l bs fun c bs => k c.row bs

/-- The byte `k k k k k k s s` of (-r32) and (r32+) (R74, R76). -/
def withStepped (bs : List Byte) (k : LongReg → StepCode → List Byte → Decoded) : Decoded :=
  withByte bs fun b bs => withRow (hi6 b) fun row =>
    match stepOfCode (lo2 b) with
    | some st => k row st bs
    | none => .refuse .stepCode11

/-- The modes with m, mmmm = 1, 0011: (r32), (r32+d16), (r32+r8), (r32+r16) (R74). -/
def withRegMode (bs : List Byte) (k : Mem → List Byte → Decoded) : Decoded :=
  withByte bs fun b bs =>
    if lo2 b = 0b00#2 then withRow (hi6 b) fun r => k (.reg r) bs
    else if lo2 b = 0b01#2 then withRow (hi6 b) fun r => withTwo bs fun d bs => k (.regD16 r d) bs
    else if b = 0x03#8 then withLongReg bs fun r bs => withRegCode .b bs fun c bs => k (.regR8 r c) bs
    else if b = 0x07#8 then withLongReg bs fun r bs => withRegCode .w bs fun c bs => k (.regR16 r c) bs
    else .refuse .unknownEncoding

/-- The rest of a memory prefix whose first byte is `b` (R74). -/
def withMode (b : Byte) (bs : List Byte) (k : Mem → List Byte → Decoded) : Decoded :=
  if b.getLsbD 6 = false then
    if b.getLsbD 3 = false then k (.ind (lo3 b)) bs
    else withByte bs fun d bs => k (.indD8 (lo3 b) d) bs
  else if lo4 b = 0x0#4 then withByte bs fun a bs => k (.abs8 a) bs
  else if lo4 b = 0x1#4 then withTwo bs fun a bs => k (.abs16 a) bs
  else if lo4 b = 0x2#4 then withThree bs fun a bs => k (.abs24 a) bs
  else if lo4 b = 0x3#4 then withRegMode bs k
  else if lo4 b = 0x4#4 then withStepped bs fun r st bs => k (.preDec r st) bs
  else if lo4 b = 0x5#4 then withStepped bs fun r st bs => k (.postInc r st) bs
  else .refuse .unknownEncoding

/-! ## The opcode map -/

/-- The dividend named by a 3-bit field (R141). -/
def onDividendCode (z : SizeBW) (R : BitVec 3) (d : Decoded) : Decoded :=
  if dividendCodeOk z R then d else .refuse .oddDividendCode

/-- The dividend named by the register prefix (R141). -/
def onDividend (z : SizeBW) (r : RSel) (d : Decoded) : Decoded :=
  if r.dividendOk z then d
  else match r with
    | .short _ => .refuse .oddDividendCode
    | .ext _ => .refuse .misalignedRegisterCode

/-- The op byte `op` after a register prefix of size `z` that names `r` (R82). -/
def decodeRegOp (z : Size) (r : RSel) (op : Byte) (bs : List Byte) : Decoded :=
  if op = 0x06#8 then onBW z fun z => .ok (.cplR z r) bs
  else if op = 0x0A#8 then
    onBW z fun z => onDividend z r (withImm z.size bs fun imm bs => .ok (.divRI z r imm) bs)
  else if op = 0x0B#8 then
    onBW z fun z => onDividend z r (withImm z.size bs fun imm bs => .ok (.divsRI z r imm) bs)
  else if op = 0x0E#8 then onOnly .w z (.ok (.bs1f r) bs)
  else if op = 0x0F#8 then onOnly .w z (.ok (.bs1b r) bs)
  else if op = 0x10#8 then onOnly .b z (.ok (.daa r) bs)
  else if op = 0x12#8 then onWL z fun z => .ok (.extz z r) bs
  else if op = 0x13#8 then onWL z fun z => .ok (.exts z r) bs
  else if op = 0x1C#8 then onBW z fun z => withByte bs fun d bs => .ok (.djnz z r d) bs
  else if op = 0x20#8 then onBW z fun z => withNum4 bs fun n bs => .ok (.andcfNR z n r) bs
  else if op = 0x28#8 then onBW z fun z => .ok (.andcfAR z r) bs
  else if op = 0x32#8 then onBW z fun z => withNum4 bs fun n bs => .ok (.chgNR z n r) bs
  else if op = 0x33#8 then onBW z fun z => withNum4 bs fun n bs => .ok (.bitNR z n r) bs
  else if hi5 op = 0b01010#5 then onBW z fun z => onDividendCode z (lo3 op) (.ok (.divRR z (lo3 op) r) bs)
  else if hi5 op = 0b01011#5 then onBW z fun z => onDividendCode z (lo3 op) (.ok (.divsRR z (lo3 op) r) bs)
  else if hi5 op = 0b01101#5 then .ok (.decNR z (lo3 op) r) bs
  else if hi5 op = 0b10000#5 then .ok (.addRR z (lo3 op) r) bs
  else if hi5 op = 0b10010#5 then .ok (.adcRR z (lo3 op) r) bs
  else if hi5 op = 0b10111#5 then onBW z fun z => .ok (.exRR z (lo3 op) r) bs
  else if hi5 op = 0b11000#5 then .ok (.andRR z (lo3 op) r) bs
  else if op = 0xC8#8 then withImm z bs fun imm bs => .ok (.addRI z r imm) bs
  else if op = 0xC9#8 then withImm z bs fun imm bs => .ok (.adcRI z r imm) bs
  else if op = 0xCC#8 then withImm z bs fun imm bs => .ok (.andRI z r imm) bs
  else if op = 0xCF#8 then withImm z bs fun imm bs => .ok (.cpRI z r imm) bs
  else if hi5 op = 0b11011#5 then onBW z fun z => .ok (.cpRN z r (lo3 op)) bs
  else if hi5 op = 0b11110#5 then .ok (.cpRR z (lo3 op) r) bs
  else .refuse .unknownEncoding

/-- A compare-and-count form exists only with the mode (XRR) (R83, R110). -/
def onPointer (m : Mem) (k : BitVec 3 → Decoded) : Decoded :=
  match m with
  | .ind R => k R
  | _ => .refuse .unknownEncoding

/-- The op byte after a source-type memory prefix of size `z` and mode `m` (R83). -/
def decodeSrcOp (z : Size) (m : Mem) (op : Byte) (bs : List Byte) : Decoded :=
  if op = 0x14#8 then onPointer m fun R => onBW z fun z => .ok (.cpi z R) bs
  else if op = 0x15#8 then onPointer m fun R => onBW z fun z => .ok (.cpir z R) bs
  else if op = 0x16#8 then onPointer m fun R => onBW z fun z => .ok (.cpd z R) bs
  else if op = 0x17#8 then onPointer m fun R => onBW z fun z => .ok (.cpdr z R) bs
  else if hi5 op = 0b00110#5 then onBW z fun z => .ok (.exMR z m (lo3 op)) bs
  else if op = 0x38#8 then onBW z fun z => withImm z.size bs fun imm bs => .ok (.addMI z m imm) bs
  else if op = 0x39#8 then onBW z fun z => withImm z.size bs fun imm bs => .ok (.adcMI z m imm) bs
  else if op = 0x3C#8 then onBW z fun z => withImm z.size bs fun imm bs => .ok (.andMI z m imm) bs
  else if op = 0x3F#8 then onBW z fun z => withImm z.size bs fun imm bs => .ok (.cpMI z m imm) bs
  else if hi5 op = 0b01010#5 then onBW z fun z => onDividendCode z (lo3 op) (.ok (.divRM z (lo3 op) m) bs)
  else if hi5 op = 0b01011#5 then onBW z fun z => onDividendCode z (lo3 op) (.ok (.divsRM z (lo3 op) m) bs)
  else if hi5 op = 0b01101#5 then onBW z fun z => .ok (.decNM z (lo3 op) m) bs
  else if hi5 op = 0b10000#5 then .ok (.addRM z (lo3 op) m) bs
  else if hi5 op = 0b10001#5 then .ok (.addMR z m (lo3 op)) bs
  else if hi5 op = 0b10010#5 then .ok (.adcRM z (lo3 op) m) bs
  else if hi5 op = 0b10011#5 then .ok (.adcMR z m (lo3 op)) bs
  else if hi5 op = 0b11000#5 then .ok (.andRM z (lo3 op) m) bs
  else if hi5 op = 0b11001#5 then .ok (.andMR z m (lo3 op)) bs
  else if hi5 op = 0b11110#5 then .ok (.cpRM z (lo3 op) m) bs
  else if hi5 op = 0b11111#5 then .ok (.cpMR z m (lo3 op)) bs
  else .refuse .unknownEncoding

/-- The op byte after a destination-type memory prefix of mode `m` (R84). -/
def decodeDstOp (m : Mem) (op : Byte) (bs : List Byte) : Decoded :=
  if op = 0x28#8 then .ok (.andcfAM m) bs
  else if hi5 op = 0b10000#5 then .ok (.andcfNM (lo3 op) m) bs
  else if hi5 op = 0b11000#5 then .ok (.chgNM (lo3 op) m) bs
  else if hi5 op = 0b11001#5 then .ok (.bitNM (lo3 op) m) bs
  else if hi4 op = 0xE#4 then .ok (.callM (condOfCode (lo4 op)) m) bs
  else .refuse .unknownEncoding

/-- The fixed forms (R81): first bytes with bit 7 clear. -/
def decodeFixed (b : Byte) (bs : List Byte) : Decoded :=
  if b = 0x06#8 then withByte bs fun n bs =>
    if hi5 n = 0#5 then (if lo3 n = 7#3 then .ok .di bs else .ok (.ei (lo3 n)) bs) else .refuse .spareBitsSet
  else if b = 0x0D#8 then .ok .decf bs
  else if b = 0x12#8 then .ok .ccf bs
  else if b = 0x16#8 then .ok .exFF bs
  else if b = 0x1C#8 then withTwo bs fun a bs => .ok (.call16 a) bs
  else if b = 0x1D#8 then withThree bs fun a bs => .ok (.call24 a) bs
  else if b = 0x1E#8 then withTwo bs fun d bs => .ok (.calr d) bs
  else .refuse .unknownEncoding

/-- A register prefix with first byte `b` of size `z` (R73): short when bit 3 is set, extended for the low nibble 0111. -/
def decodeRegForm (z : Size) (b : Byte) (bs : List Byte) : Decoded :=
  if b.getLsbD 3 then withByte bs fun op bs => decodeRegOp z (.short (lo3 b)) op bs
  else withRegCode z bs fun k bs => withByte bs fun op bs => decodeRegOp z (.ext k) op bs

/-- The first byte is a register prefix: bits 7 and 6 set and a low nibble of 0111 or above (R73, R81). -/
def isRegPrefix (b : Byte) : Bool := b.getLsbD 6 && (b.getLsbD 3 || lo3 b == 7#3)

/-- The decoder (R81): the class of the first byte, then the rest. -/
def decode (bs : List Byte) : Decoded :=
  withByte bs fun b bs =>
    if b.getLsbD 7 = false then decodeFixed b bs
    else if isRegPrefix b then
      match sizeOfCode (sizeField b) with
      | some z => decodeRegForm z b bs
      | none => .refuse .unknownEncoding
    else withMode b bs fun m bs => withByte bs fun op bs =>
      match sizeOfCode (sizeField b) with
      | some z => decodeSrcOp z m op bs
      | none => decodeDstOp m op bs

/-! ## The encoder -/

/-- Two bytes, low byte first (R77, R78). -/
def bytes2 (v : BitVec 16) : List Byte := [v.extractLsb' 0 8, v.extractLsb' 8 8]

/-- Three bytes, low byte first (R77). -/
def bytes3 (v : BitVec 24) : List Byte := [v.extractLsb' 0 8, v.extractLsb' 8 8, v.extractLsb' 16 8]

/-- Four bytes, low byte first (R77). -/
def bytes4 (v : BitVec 32) : List Byte :=
  [v.extractLsb' 0 8, v.extractLsb' 8 8, v.extractLsb' 16 8, v.extractLsb' 24 8]

/-- The bytes of an immediate (R77). -/
def immBytes (z : Size) (imm : Word32) : List Byte :=
  match z with
  | .b => [imm.setWidth 8]
  | .w => bytes2 (imm.setWidth 16)
  | .l => bytes4 imm

/-- The register prefix: `1 1 z z 1 r r r`, or `1 1 z z 0 1 1 1` and the code (R73). -/
def RSel.bytes (z : Size) : RSel → List Byte
  | .short c => [0b11#2 ++ z.code ++ 0b1#1 ++ c]
  | .ext k => [0b11#2 ++ z.code ++ 0b0111#4, k.toByte]

/-- The memory prefix `1 m x x m m m m` and its mode bytes (R74). -/
def Mem.bytes (xx : BitVec 2) : Mem → List Byte
  | .ind R => [0b10#2 ++ xx ++ 0b0#1 ++ R]
  | .indD8 R d => [0b10#2 ++ xx ++ 0b1#1 ++ R, d]
  | .abs8 a => [0b11#2 ++ xx ++ 0x0#4, a]
  | .abs16 a => (0b11#2 ++ xx ++ 0x1#4) :: bytes2 a
  | .abs24 a => (0b11#2 ++ xx ++ 0x2#4) :: bytes3 a
  | .reg r => [0b11#2 ++ xx ++ 0x3#4, r.code6 ++ 0b00#2]
  | .regD16 r d => (0b11#2 ++ xx ++ 0x3#4) :: (r.code6 ++ 0b01#2) :: bytes2 d
  | .regR8 r k => [0b11#2 ++ xx ++ 0x3#4, 0x03#8, r.toByte, k.toByte]
  | .regR16 r k => [0b11#2 ++ xx ++ 0x3#4, 0x07#8, r.toByte, k.toByte]
  | .preDec r st => [0b11#2 ++ xx ++ 0x4#4, r.code6 ++ st.code]
  | .postInc r st => [0b11#2 ++ xx ++ 0x5#4, r.code6 ++ st.code]

/-- The mark `1 1` of a destination-type memory prefix (R84). -/
def dstMark : BitVec 2 := 0b11#2

/-- The bytes of an instruction (R82 to R84, `encoding` of the opcode table). -/
def encode : Instr → List Byte
  | .ei n => [0x06#8, 0b00000#5 ++ n]
  | .di => [0x06#8, 0x07#8]
  | .decf => [0x0D#8]
  | .ccf => [0x12#8]
  | .exFF => [0x16#8]
  | .call16 a => 0x1C#8 :: bytes2 a
  | .call24 a => 0x1D#8 :: bytes3 a
  | .calr d => 0x1E#8 :: bytes2 d
  | .cplR z r => r.bytes z.size ++ [0x06#8]
  | .divRI z r imm => r.bytes z.size ++ 0x0A#8 :: immBytes z.size imm
  | .divsRI z r imm => r.bytes z.size ++ 0x0B#8 :: immBytes z.size imm
  | .bs1f r => r.bytes .w ++ [0x0E#8]
  | .bs1b r => r.bytes .w ++ [0x0F#8]
  | .daa r => r.bytes .b ++ [0x10#8]
  | .extz z r => r.bytes z.size ++ [0x12#8]
  | .exts z r => r.bytes z.size ++ [0x13#8]
  | .djnz z r d => r.bytes z.size ++ [0x1C#8, d]
  | .andcfNR z n r => r.bytes z.size ++ [0x20#8, 0x0#4 ++ n]
  | .andcfAR z r => r.bytes z.size ++ [0x28#8]
  | .chgNR z n r => r.bytes z.size ++ [0x32#8, 0x0#4 ++ n]
  | .bitNR z n r => r.bytes z.size ++ [0x33#8, 0x0#4 ++ n]
  | .divRR z R r => r.bytes z.size ++ [0b01010#5 ++ R]
  | .divsRR z R r => r.bytes z.size ++ [0b01011#5 ++ R]
  | .decNR z n r => r.bytes z ++ [0b01101#5 ++ n]
  | .addRR z R r => r.bytes z ++ [0b10000#5 ++ R]
  | .adcRR z R r => r.bytes z ++ [0b10010#5 ++ R]
  | .exRR z R r => r.bytes z.size ++ [0b10111#5 ++ R]
  | .andRR z R r => r.bytes z ++ [0b11000#5 ++ R]
  | .addRI z r imm => r.bytes z ++ 0xC8#8 :: immBytes z imm
  | .adcRI z r imm => r.bytes z ++ 0xC9#8 :: immBytes z imm
  | .andRI z r imm => r.bytes z ++ 0xCC#8 :: immBytes z imm
  | .cpRI z r imm => r.bytes z ++ 0xCF#8 :: immBytes z imm
  | .cpRN z r n => r.bytes z.size ++ [0b11011#5 ++ n]
  | .cpRR z R r => r.bytes z ++ [0b11110#5 ++ R]
  | .cpi z R => Mem.bytes z.size.code (.ind R) ++ [0x14#8]
  | .cpir z R => Mem.bytes z.size.code (.ind R) ++ [0x15#8]
  | .cpd z R => Mem.bytes z.size.code (.ind R) ++ [0x16#8]
  | .cpdr z R => Mem.bytes z.size.code (.ind R) ++ [0x17#8]
  | .exMR z m R => m.bytes z.size.code ++ [0b00110#5 ++ R]
  | .addMI z m imm => m.bytes z.size.code ++ 0x38#8 :: immBytes z.size imm
  | .adcMI z m imm => m.bytes z.size.code ++ 0x39#8 :: immBytes z.size imm
  | .andMI z m imm => m.bytes z.size.code ++ 0x3C#8 :: immBytes z.size imm
  | .cpMI z m imm => m.bytes z.size.code ++ 0x3F#8 :: immBytes z.size imm
  | .divRM z R m => m.bytes z.size.code ++ [0b01010#5 ++ R]
  | .divsRM z R m => m.bytes z.size.code ++ [0b01011#5 ++ R]
  | .decNM z n m => m.bytes z.size.code ++ [0b01101#5 ++ n]
  | .addRM z R m => m.bytes z.code ++ [0b10000#5 ++ R]
  | .addMR z m R => m.bytes z.code ++ [0b10001#5 ++ R]
  | .adcRM z R m => m.bytes z.code ++ [0b10010#5 ++ R]
  | .adcMR z m R => m.bytes z.code ++ [0b10011#5 ++ R]
  | .andRM z R m => m.bytes z.code ++ [0b11000#5 ++ R]
  | .andMR z m R => m.bytes z.code ++ [0b11001#5 ++ R]
  | .cpRM z R m => m.bytes z.code ++ [0b11110#5 ++ R]
  | .cpMR z m R => m.bytes z.code ++ [0b11111#5 ++ R]
  | .andcfAM m => m.bytes dstMark ++ [0x28#8]
  | .andcfNM n m => m.bytes dstMark ++ [0b10000#5 ++ n]
  | .chgNM n m => m.bytes dstMark ++ [0b11000#5 ++ n]
  | .bitNM n m => m.bytes dstMark ++ [0b11001#5 ++ n]
  | .callM c m => m.bytes dstMark ++ [0xE#4 ++ c.code]

/-! ## Lengths -/

/-- The length of a register prefix (R73). -/
def RSel.len : RSel → Nat
  | .short _ => 1
  | .ext _ => 2

/-- The length of a memory prefix (R74, last column). -/
def Mem.len : Mem → Nat
  | .ind _ => 1
  | .indD8 _ _ | .abs8 _ | .reg _ | .preDec _ _ | .postInc _ _ => 2
  | .abs16 _ => 3
  | .abs24 _ | .regD16 _ _ | .regR8 _ _ | .regR16 _ _ => 4

/-- The length of an instruction in bytes (R85). -/
def Instr.len : Instr → Nat
  | .ei _ | .di => 2
  | .decf | .ccf | .exFF => 1
  | .call16 _ | .calr _ => 3
  | .call24 _ => 4
  | .cplR _ r | .bs1f r | .bs1b r | .daa r | .extz _ r | .exts _ r | .andcfAR _ r => r.len + 1
  | .divRI z r _ | .divsRI z r _ => r.len + 1 + z.size.bytes
  | .djnz _ r _ | .andcfNR _ _ r | .chgNR _ _ r | .bitNR _ _ r => r.len + 1 + 1
  | .divRR _ _ r | .divsRR _ _ r | .decNR _ _ r | .addRR _ _ r | .adcRR _ _ r | .exRR _ _ r | .andRR _ _ r => r.len + 1
  | .addRI z r _ | .adcRI z r _ | .andRI z r _ | .cpRI z r _ => r.len + 1 + z.bytes
  | .cpRN _ r _ | .cpRR _ _ r => r.len + 1
  | .cpi _ _ | .cpir _ _ | .cpd _ _ | .cpdr _ _ => 2
  | .exMR _ m _ | .divRM _ _ m | .divsRM _ _ m | .decNM _ _ m => m.len + 1
  | .addMI z m _ | .adcMI z m _ | .andMI z m _ | .cpMI z m _ => m.len + 1 + z.size.bytes
  | .addRM _ _ m | .adcRM _ _ m | .andRM _ _ m | .cpRM _ _ m => m.len + 1
  | .addMR _ m _ | .adcMR _ m _ | .andMR _ m _ | .cpMR _ m _ => m.len + 1
  | .andcfAM m | .andcfNM _ m | .chgNM _ m | .bitNM _ m | .callM _ m => m.len + 1

/-! ## The opcode table's words -/

/-- The bytes of a table word of `nbytes` bytes: the table counts the first byte as the most significant (R86, `word` is
`first byte << 8 | op byte`). Log 29. -/
def tableBytes : Nat → Nat → List Byte
  | 0, _ => []
  | n + 1, w => BitVec.ofNat 8 (w / 256 ^ n) :: tableBytes n w

/-- The bytes of a table word followed by zero bytes up to the longest instruction. -/
def tableWindow (nbits w : Nat) : List Byte :=
  tableBytes (nbits / 8) w ++ List.replicate (Config.maxInstrBytes - nbits / 8) 0#8

/-- The instruction of a decoder's answer. -/
def Decoded.instr? : Decoded → Option Instr
  | .ok i _ => some i
  | .truncated => none
  | .refuse _ => none

/-- The instruction the decoder reads from a word numbered as spec/opcode_table.json numbers it (R86). Log 29. -/
def decodeTableWord (nbits w : Nat) : Option Instr := (decode (tableWindow nbits w)).instr?

end Sys2Proof
end

