-- ==== Sys2Proof/Machine/State.lean ====
section
/-! DEFINITION. The state of the machine, the reasons a step stops, and the state after reset (spec/10_state.md,
spec/70_reset_and_hazards.md rules R240 to R244). -/

namespace Sys2Proof.Machine

/-- Why a step answers no next state although nothing is refused: the spec's "stuck" and the end of a run (R244). -/
inductive Fault where
  /-- Raised by `step`: a byte of the instruction lies outside TEXT (R61, R244 (c)). Safe: the spec calls it no step. -/
  | fetchOutsideText
  /-- Raised by every read and write of memory: an address the launch did not admit (R52, R230, R244 (c)). Safe: the spec calls it
  no step. -/
  | outsideLaunchMemory
  /-- Raised by `step`: pc = HALT_PC, the run has ended and the state is its end state (R243, R244 (a)). Safe: nothing is claimed
  after the end. -/
  | halted
  deriving DecidableEq, Repr

/-- The spec's `refuse(reason)`: the model has no meaning for the instruction (R8, R244 (b)). -/
inductive Refusal where
  /-- Raised by a rejected arm of `exec`. Safe. -/
  | notModelled (mnemonic : String)
  /-- Raised by `step`: the decoder refuses the bytes (R88). Safe. -/
  | encoding (why : BadEncoding)
  /-- Raised by the memory forms: (-r32) or (r32+) modifies a register that is also an operand or a result (R75, D10). Safe. -/
  | autoModifyOverlap
  /-- Raised by CPI, CPIR, CPD, CPDR: the pointer is XWA or XBC (R110, D34). Safe. -/
  | pointerOverlap
  /-- Raised by CHG #4,r at Byte with #4 from 8 to 15 (R187, D18). Safe. -/
  | bitNumberOutsideByte
  /-- Raised by CALL [cc,]mem: the mode names XSP or is (-r32) or (r32+) (R212, D11). Safe. -/
  | callModeNotGiven
  /-- Raised by every write of memory: it touches a byte of TEXT (R62, D20). Safe. -/
  | storeIntoText
  deriving DecidableEq, Repr

/-- The outcome of a partial operation: a value, a stop of the machine, or a refusal. -/
abbrev Result (α : Type) := Host.Outcome α Fault Refusal

/-- A flag byte, F or F': the six flags of R27 and the two bits without a name (U37), which the source gives no place. Log 28. -/
structure Flags where
  /-- sign -/
  s : Bool
  /-- zero -/
  z : Bool
  /-- half carry -/
  h : Bool
  /-- overflow, parity -/
  v : Bool
  /-- subtract -/
  n : Bool
  /-- carry -/
  c : Bool
  /-- the two bits without a name -/
  rest : BitVec 2
  deriving DecidableEq, Repr

/-- The addresses from `base` on, `size` many. -/
structure Range where
  base : Nat
  size : Nat
  deriving DecidableEq, Repr

/-- The parameters of a run that the spec makes arguments of the model (R4, R242). No step changes them. Log 4. -/
structure Launch where
  /-- ADDR_BITS (R50) -/
  addrBits : Nat
  /-- the admitted addresses (R52, R55) -/
  admitted : List Range
  /-- TEXT (R61, R62) -/
  text : List Range
  /-- HALT_PC, where the launch names one (R243) -/
  haltPc : Option Word32
  deriving DecidableEq, Repr

/-- The contents of memory: the bytes that differ from what an unlisted address reads as, by rising address. -/
abbrev Memory := List Host.Cell

/-- The state: everything the spec gives the machine (INVENTORY.md, State). -/
structure State where
  /-- `bank[b][q]` at index 4b + q and `xr[j]` at index 16 + j (R20) -/
  regs : Vector Word32 20
  /-- the program counter (R25) -/
  pc : Word32
  /-- IFF<2:0> of SR (R26) -/
  iffLevel : BitVec 3
  /-- RFP<2:0> of SR, bit 2 fixed to 0 (R26) -/
  rfp : BitVec 3
  /-- F (R27) -/
  f : Flags
  /-- F' (R28) -/
  fAlt : Flags
  /-- DMAS0 to DMAS3 (R29) -/
  dmas : Vector Word32 4
  /-- DMAD0 to DMAD3 (R29) -/
  dmad : Vector Word32 4
  /-- DMAC0 to DMAC3 (R29) -/
  dmac : Vector Word16 4
  /-- DMAM0 to DMAM3 (R29) -/
  dmam : Vector Byte 4
  /-- INTNEST (R29) -/
  intnest : Word16
  /-- memory (R35, R50) -/
  mem : Memory
  /-- the parameters of the run (R242) -/
  launch : Launch
  /-- the model's own: how many free values have been drawn (R8). Log 6. -/
  draws : Nat
  deriving DecidableEq, Repr

/-- Six flags and two unnamed bits, all 0. -/
def Flags.zero : Flags := ⟨false, false, false, false, false, false, 0#2⟩

/-- The launch after reset: the default ADDR_BITS, all of its addresses admitted, no program, no HALT_PC. Logs 2 and 4. -/
def Launch.reset : Launch :=
  { addrBits := Config.defaultAddrBits
    admitted := [⟨0, 2 ^ Config.defaultAddrBits⟩]
    text := []
    haltPc := none }

/-- The address in pc after reset: where the source's one execution example with an address stands (R63, R210).
DESIGN CHOICE, unsafe: the spec gives none. Log 2. -/
def State.resetPc : Word32 := 0x00008000#32

/-- The machine right after reset. The spec states no reset value (R37, R240); every value here but RFP2 = 0 and the default of
ADDR_BITS is a DESIGN CHOICE, unsafe. Logs 1 to 4. -/
def State.reset : State :=
  { regs := Vector.replicate 20 0#32
    pc := State.resetPc
    iffLevel := 0#3
    rfp := 0#3
    f := Flags.zero
    fAlt := Flags.zero
    dmas := Vector.replicate 4 0#32
    dmad := Vector.replicate 4 0#32
    dmac := Vector.replicate 4 0#16
    dmam := Vector.replicate 4 0#8
    intnest := 0#16
    mem := []
    launch := Launch.reset
    draws := 0 }

end Sys2Proof.Machine
end

