-- ==== Sys2Proof/Machine/Memory.lean ====
section
/-! DEFINITION. Memory as a list of cells in one canonical form, its smallest reads and writes, and the launch's ranges
(spec/20_memory.md rules R50 to R62). -/

namespace Sys2Proof.Machine

/-- The byte at an address: the listed one, else what an unlisted address reads as. -/
def Memory.read : Memory → Nat → Byte
  | [], _ => Config.unlisted
  | (k, b) :: m, a => if a = k then b else Memory.read m a

/-- Store a byte, keeping the form: a byte equal to what an unlisted address reads as is not listed. -/
def Memory.write : Memory → Nat → Byte → Memory
  | [], a, b => if b = Config.unlisted then [] else [(a, b)]
  | (k, c) :: m, a, b =>
    if a < k then (if b = Config.unlisted then (k, c) :: m else (a, b) :: (k, c) :: m)
    else if a = k then (if b = Config.unlisted then m else (a, b) :: m)
    else (k, c) :: Memory.write m a b

/-- Addresses rise strictly from `lo` on and no entry equals what an unlisted address reads as. -/
def Memory.wfFrom : Nat → Memory → Bool
  | _, [] => true
  | lo, (k, b) :: m => decide (lo ≤ k) && decide (b ≠ Config.unlisted) && Memory.wfFrom (k + 1) m

/-- The canonical form. -/
def Memory.wf (m : Memory) : Bool := Memory.wfFrom 0 m

/-- Every listed address is below the bound. -/
def Memory.below (m : Memory) (bound : Nat) : Bool := m.all fun p => decide (p.1 < bound)

/-- An address lies in a range. -/
def Range.has (r : Range) (a : Nat) : Bool := decide (r.base ≤ a) && decide (a < r.base + r.size)

/-- The number of addresses, `2^ADDR_BITS` (R50). -/
def Launch.space (l : Launch) : Nat := 2 ^ l.addrBits

/-- The launch declared the address (R52, R55). -/
def Launch.admits (l : Launch) (a : Nat) : Bool := l.admitted.any fun r => r.has a

/-- The address is one of TEXT, a subset of the admitted addresses (R61, R62, R242). -/
def Launch.isText (l : Launch) (a : Nat) : Bool := l.admits a && l.text.any fun r => r.has a

/-- The ranges lie inside the address space and ADDR_BITS in its range (R50, R242, D2). -/
def Launch.wf (l : Launch) : Bool :=
  decide (24 ≤ l.addrBits) && decide (l.addrBits ≤ 32)
    && l.admitted.all (fun r => decide (r.base + r.size ≤ l.space))
    && l.text.all (fun r => decide (r.base + r.size ≤ l.space))

end Sys2Proof.Machine
end

