-- ==== Sys2Proof/Machine/Ops.lean ====
section
/-! DEFINITION. The named operations over registers and memory that every meaning is built from (spec/10_state.md rules R20 to R25,
spec/20_memory.md rules R50 to R63, spec/46_jump_call.md rule R213). The spec names no exception that an instruction takes and no
entry sequence for an interrupt (R220, R223: "A model must not invent an entry sequence"), so there is no operation that takes an
exception and none that returns from one. Log 12. -/

namespace Sys2Proof.Machine

/-! ## Outcomes -/

/-- Go on with the value of an outcome, or stop as it stops. -/
def andThen {α β : Type} (x : Result α) (k : α → Result β) : Result β :=
  match x with
  | .next a => k a
  | .fault r => .fault r
  | .refused r => .refused r

/-! ## Registers -/

/-- The current bank, `RFP[1:0]` (R24). -/
def curBank (rfp : BitVec 3) : BitVec 2 := rfp.setWidth 2

/-- The previous bank, `(cur - 1) mod 4` (R24, D14). Log 9. -/
def prevBank (rfp : BitVec 3) : BitVec 2 := curBank rfp - 1#2

/-- The index of `bank[b][q]` (R20). -/
def bankSlot (b q : BitVec 2) : Fin 20 := ⟨4 * b.toNat + q.toNat, by have := b.isLt; have := q.isLt; omega⟩

/-- The index of `xr[j]` (R20). -/
def idxSlot (j : BitVec 2) : Fin 20 := ⟨16 + j.toNat, by have := j.isLt; omega⟩

/-- The storage of a row of the register map under the given RFP (R21, R24). -/
def regSlot (rfp : BitVec 3) : LongReg → Fin 20
  | .bank b q => bankSlot b q
  | .prev q => bankSlot (prevBank rfp) q
  | .cur q => bankSlot (curBank rfp) q
  | .idx j => idxSlot j

/-- The storage of a row of the register map in a state. -/
def State.slot (s : State) (r : LongReg) : Fin 20 := regSlot s.rfp r

/-- The 32-bit register of a row. -/
def State.long (s : State) (r : LongReg) : Word32 := s.regs[s.slot r]

/-- Write the 32-bit register of a row. -/
def State.setLong (s : State) (r : LongReg) (v : Word32) : State := { s with regs := s.regs.set (s.slot r) v }

/-- The `n` bits of a 32-bit register from byte offset `off` on (R23; offset 0 is the least significant byte, D31). Log 8. -/
def fieldGet (n : Nat) (x : Word32) (off : BitVec 2) : BitVec n := x.extractLsb' (8 * off.toNat) n

/-- A 32-bit register with those `n` bits replaced, its other bits kept (R23). -/
def fieldPut {n : Nat} (x : Word32) (off : BitVec 2) (v : BitVec n) : Word32 :=
  (x &&& ~~~((BitVec.allOnes n).setWidth 32 <<< (8 * off.toNat))) ||| (v.setWidth 32 <<< (8 * off.toNat))

/-- `r_n[k]` (R7, R38). -/
def State.readReg (s : State) (n : Nat) (k : RegCode) : BitVec n := fieldGet n (s.long k.row) k.off

/-- `r_n[k] <- v` (R7, R23). -/
def State.writeReg {n : Nat} (s : State) (k : RegCode) (v : BitVec n) : State :=
  s.setLong k.row (fieldPut (s.long k.row) k.off v)

/-- The register code beside a 3-bit code in the table of R22: at Byte W A B C D E H L; at Word and Long word the four registers of
the current bank, then IX, IY, IZ, SP. -/
def shortCode (z : Size) (c : BitVec 3) : RegCode :=
  match z with
  | .b => ⟨.cur (c.extractLsb' 1 2), if c.getLsbD 0 then 0#2 else 1#2⟩
  | .w | .l => ⟨if c.getLsbD 2 then .idx (c.setWidth 2) else .cur (c.setWidth 2), 0#2⟩

/-- The register code that a register prefix of size `z` selects (R73). -/
def selCode (z : Size) : RSel → RegCode
  | .short c => shortCode z c
  | .ext k => k

/-- The row of XRR, the 32-bit current-bank register with a 3-bit code (R22, R74). -/
def pointerReg (R : BitVec 3) : LongReg := (shortCode .l R).row

/-- A at Byte and WA at Word: code E0H of the current bank (R21, R110). -/
def codeA : RegCode := ⟨.cur 0#2, 0#2⟩

/-- C at Byte and BC at Word: code E4H of the current bank (R21, R110). -/
def codeBC : RegCode := ⟨.cur 1#2, 0#2⟩

/-- XSP (R20). -/
def rowXSP : LongReg := .idx 3#2

/-! ## Flags, control fields and pc -/

/-- Replace F. -/
def State.setF (s : State) (f : Flags) : State := { s with f := f }

/-- Go to an address. -/
def State.jump (s : State) (a : Word32) : State := { s with pc := a }

/-- `next`: the address of the instruction after one of `len` bytes (R7, R25, D12). Log 18. -/
def State.nextPc (s : State) (len : Nat) : Word32 := s.pc + BitVec.ofNat 32 len

/-- `pc <- next` (R7). -/
def State.advance (s : State) (len : Nat) : State := s.jump (s.nextPc len)

/-! ## Free values -/

/-- `draw_1()`: a free bit and the state in which it is drawn (R8). -/
def State.drawBit (s : State) : Bool × State := (Config.freeBit s.draws, { s with draws := s.draws + 1 })

/-- `draw_w()`: a free value of `w` bits and the state in which it is drawn (R8). -/
def State.drawValue (s : State) (w : Nat) : BitVec w × State :=
  (Config.freeValue w s.draws, { s with draws := s.draws + 1 })

/-- A draw where `c` holds; elsewhere nothing is drawn and the bit is not used. -/
def State.drawBitIf (s : State) (c : Bool) : Bool × State := if c then s.drawBit else (false, s)

/-! ## Memory -/

/-- The address of the byte `i` places after `a`: the sum modulo `2^ADDR_BITS` (R50, R52, D33). Log 18. -/
def State.addr (s : State) (a : Word32) (i : Nat) : Nat := (a.toNat + i) % s.launch.space

/-- One byte of memory. -/
def State.byteAt (s : State) (a : Nat) : Byte := s.mem.read a

/-- All `k` bytes from `a` on are admitted (R52, R55). -/
def State.admits (s : State) (a : Word32) (k : Nat) : Bool := (List.range k).all fun i => s.launch.admits (s.addr a i)

/-- One of the `k` bytes from `a` on is a byte of TEXT (R62). -/
def State.touchesText (s : State) (a : Word32) (k : Nat) : Bool :=
  (List.range k).any fun i => s.launch.isText (s.addr a i)

/-- The little-endian value of `k` bytes from `a + i` on (R51, R52). Log 7. -/
def State.loadLE (s : State) (a : Word32) : Nat → Nat → Nat
  | _, 0 => 0
  | i, k + 1 => (s.byteAt (s.addr a i)).toNat + 256 * s.loadLE a (i + 1) k

/-- Memory after the `k` low bytes of `v` are stored from `a + i` on, least significant first (R51, R52). Log 7. -/
def State.storeLE (s : State) (a : Word32) : Nat → Nat → Nat → Memory → Memory
  | _, 0, _, m => m
  | i, k + 1, v, m => s.storeLE a (i + 1) k (v / 256) (m.write (s.addr a i) (BitVec.ofNat 8 v))

/-- `MemRead(a, n/8)`: an `n`-bit value; stuck where the launch did not admit an address (R52). No alignment is needed (R53). -/
def State.memRead (s : State) (n : Nat) (a : Word32) : Result (BitVec n) :=
  if s.admits a (n / 8) then .next (BitVec.ofNat n (s.loadLE a 0 (n / 8))) else .fault .outsideLaunchMemory

/-- `MemWrite(a, n/8, v)`: stuck where the launch did not admit an address, refused where it touches TEXT (R52, R62). -/
def State.memWrite {n : Nat} (s : State) (a : Word32) (v : BitVec n) : Result State :=
  if s.admits a (n / 8) then
    if s.touchesText a (n / 8) then .refused .storeIntoText
    else .next { s with mem := s.storeLE a 0 (n / 8) v.toNat s.mem }
  else .fault .outsideLaunchMemory

/-- `push32(v)`: `XSP <- XSP - 4`, then the long word at XSP (R63, R213). -/
def State.push32 (s : State) (v : Word32) : Result State :=
  (s.setLong rowXSP (s.long rowXSP - 4#32)).memWrite (s.long rowXSP - 4#32) v

end Sys2Proof.Machine
end

