-- ==== Sys2Proof/Machine/Flags.lean ====
section
/-! DEFINITION. The flag helper functions, whole (spec/10_state.md rules R30 to R33), and the conditions (spec/30_encoding.md rule
R80). Arithmetic is exact, on integers, and narrowed at the end. `u` is the free bit for a flag the spec leaves undefined at 32 bits,
`f` the flags before. -/

namespace Sys2Proof.Machine

/-- An exact integer does not fit `n` bits as a signed number. -/
def signedOverflow (n : Nat) (t : Int) : Bool := decide (t < -(2 : Int) ^ (n - 1) ∨ (2 : Int) ^ (n - 1) - 1 < t)

/-- The result of `addflags`: `a + b + ci` modulo `2^n` (R30). -/
def addRes {n : Nat} (a b : BitVec n) (ci : Bool) : BitVec n := BitVec.ofNat n (a.toNat + b.toNat + ci.toNat)

/-- The flags of `addflags(n, a, b, ci)` (R30). H at Word is the carry out of bit 3 (D30). Log 19. -/
def addFlags {n : Nat} (a b : BitVec n) (ci u : Bool) (f : Flags) : Flags :=
  { f with
    s := (addRes a b ci).msb
    z := decide (addRes a b ci = 0#n)
    h := if n = 32 then u else decide (16 ≤ a.toNat % 16 + b.toNat % 16 + ci.toNat)
    v := signedOverflow n (a.toInt + b.toInt + ci.toNat)
    n := false
    c := decide (2 ^ n ≤ a.toNat + b.toNat + ci.toNat) }

/-- The result of `subflags`: `a - b - bi` modulo `2^n` (R31). -/
def subRes {n : Nat} (a b : BitVec n) (bi : Bool) : BitVec n := BitVec.ofInt n (a.toNat - b.toNat - bi.toNat)

/-- The flags of `subflags(n, a, b, bi)` (R31). -/
def subFlags {n : Nat} (a b : BitVec n) (bi u : Bool) (f : Flags) : Flags :=
  { f with
    s := (subRes a b bi).msb
    z := decide (subRes a b bi = 0#n)
    h := if n = 32 then u else decide (a.toNat % 16 < b.toNat % 16 + bi.toNat)
    v := signedOverflow n (a.toInt - b.toInt - bi.toNat)
    n := true
    c := decide (a.toNat < b.toNat + bi.toNat) }

/-- How many of the low `n` bits are 1. -/
def countOnes {w : Nat} (v : BitVec w) : Nat → Nat
  | 0 => 0
  | n + 1 => countOnes v n + (v.getLsbD n).toNat

/-- `parity_even(n, v)` (R33). Over all 16 bits at Word (D30). Log 19. -/
def parityEven {n : Nat} (v : BitVec n) : Bool := decide (countOnes v n % 2 = 0)

/-- The flags of `logicflags_and(n, res)` (R32). -/
def andFlags {n : Nat} (res : BitVec n) (u : Bool) (f : Flags) : Flags :=
  { f with
    s := res.msb
    z := decide (res = 0#n)
    h := true
    v := if n = 32 then u else parityEven res
    n := false
    c := false }

/-- `cond(cc)` (R80). -/
def Flags.holds (f : Flags) : Cond → Bool
  | .never => false
  | .lt => f.s ^^ f.v
  | .le => f.z || (f.s ^^ f.v)
  | .ule => f.c || f.z
  | .ov => f.v
  | .mi => f.s
  | .zero => f.z
  | .carry => f.c
  | .always => true
  | .ge => !(f.s ^^ f.v)
  | .gt => !(f.z || (f.s ^^ f.v))
  | .ugt => !(f.c || f.z)
  | .nov => !f.v
  | .pl => !f.s
  | .nz => !f.z
  | .nc => !f.c

/-- An operation that writes F and may draw: its result and the state with the new flags. -/
abbrev AluOp := (n : Nat) → BitVec n → BitVec n → State → BitVec n × State

/-- ADD: `addflags(n, a, b, 0)` (R120 to R124). -/
def aluAdd : AluOp := fun n a b s =>
  let d := s.drawBitIf (n == 32)
  (addRes a b false, d.2.setF (addFlags a b false d.1 s.f))

/-- ADC: `addflags(n, a, b, C)` (R125 to R129). -/
def aluAdc : AluOp := fun n a b s =>
  let d := s.drawBitIf (n == 32)
  (addRes a b s.f.c, d.2.setF (addFlags a b s.f.c d.1 s.f))

/-- AND: `logicflags_and(n, a AND b)` (R170 to R174). -/
def aluAnd : AluOp := fun n a b s =>
  let d := s.drawBitIf (n == 32)
  (a &&& b, d.2.setF (andFlags (a &&& b) d.1 s.f))

/-- A subtraction that writes all six flags (R31). -/
def aluSub : AluOp := fun n a b s =>
  let d := s.drawBitIf (n == 32)
  (subRes a b false, d.2.setF (subFlags a b false d.1 s.f))

end Sys2Proof.Machine
end

