-- ==== Sys2Proof/Machine/Operands.lean ====
section
/-! DEFINITION. The operand forms: effective addresses with their register side effects (spec/30_encoding.md rules R74 to R76), and
the two-operand shapes of spec/42_arithmetic.md rule R150. -/

namespace Sys2Proof.Machine

/-- The effective address (R75): sums modulo 2^32, absolute addresses zero-extended, displacements and index registers
sign-extended. For (-r32) it is the decremented value. Log 18. -/
def Mem.ea (s : State) : Mem → Word32
  | .ind R => s.long (pointerReg R)
  | .indD8 R d => s.long (pointerReg R) + d.signExtend 32
  | .abs8 a => a.setWidth 32
  | .abs16 a => a.setWidth 32
  | .abs24 a => a.setWidth 32
  | .reg r => s.long r
  | .regD16 r d => s.long r + d.signExtend 32
  | .regR8 r k => s.long r + (s.readReg 8 k).signExtend 32
  | .regR16 r k => s.long r + (s.readReg 16 k).signExtend 32
  | .preDec r st => s.long r - BitVec.ofNat 32 st.amount
  | .postInc r _ => s.long r

/-- The pre-decrement, before the access (R75). -/
def Mem.before (s : State) : Mem → State
  | .preDec r st => s.setLong r (s.long r - BitVec.ofNat 32 st.amount)
  | _ => s

/-- The post-increment, after the access (R75). -/
def Mem.after (s : State) : Mem → State
  | .postInc r st => s.setLong r (s.long r + BitVec.ofNat 32 st.amount)
  | _ => s

/-- The register that (-r32) or (r32+) modifies. -/
def Mem.autoReg : Mem → Option LongReg
  | .preDec r _ => some r
  | .postInc r _ => some r
  | _ => none

/-- The modified register contains the register with code `k`, whatever names it (R75, R102). Log 31. -/
def Mem.clashes (s : State) (m : Mem) (k : RegCode) : Bool :=
  match Mem.autoReg m with
  | some r => s.slot r == s.slot k.row
  | none => false

/-- A memory form whose other operands and results are the registers `used`: refused on an overlap with the auto-modified
register; else the pre-decrement, the body at the effective address, the post-increment (R75, R150, D10). Log 16. -/
def withMem (m : Mem) (used : List RegCode) (s : State) (body : Word32 → State → Result State) : Result State :=
  if used.any (Mem.clashes s m) then .refused .autoModifyOverlap
  else andThen (body (Mem.ea s m) (Mem.before s m)) fun t => .next (Mem.after t m)

/-- The end of an instruction that transfers no control: `pc <- next` (R150). -/
def finish (len : Nat) (r : Result State) : Result State := andThen r fun t => .next (t.advance len)

/-! ## The shapes of R150 -/

/-- Shape `R,r`. -/
def shapeRr (alu : AluOp) (z : Size) (R : BitVec 3) (r : RSel) (s : State) : Result State :=
  let p := alu z.bits (s.readReg z.bits (shortCode z R)) (s.readReg z.bits (selCode z r)) s
  .next (p.2.writeReg (shortCode z R) p.1)

/-- Shape `r,#`. -/
def shapeRi (alu : AluOp) (z : Size) (r : RSel) (imm : Word32) (s : State) : Result State :=
  let p := alu z.bits (s.readReg z.bits (selCode z r)) (imm.setWidth z.bits) s
  .next (p.2.writeReg (selCode z r) p.1)

/-- Shape `R,(mem)`. -/
def shapeRm (alu : AluOp) (z : Size) (R : BitVec 3) (m : Mem) (s : State) : Result State :=
  withMem m [shortCode z R] s fun ea s =>
    andThen (s.memRead z.bits ea) fun b =>
      let p := alu z.bits (s.readReg z.bits (shortCode z R)) b s
      .next (p.2.writeReg (shortCode z R) p.1)

/-- Shape `(mem),R`. -/
def shapeMr (alu : AluOp) (z : Size) (m : Mem) (R : BitVec 3) (s : State) : Result State :=
  withMem m [shortCode z R] s fun ea s =>
    andThen (s.memRead z.bits ea) fun a =>
      let p := alu z.bits a (s.readReg z.bits (shortCode z R)) s
      p.2.memWrite ea p.1

/-- Shape `<W> (mem),#`. -/
def shapeMi (alu : AluOp) (z : Size) (m : Mem) (imm : Word32) (s : State) : Result State :=
  withMem m [] s fun ea s =>
    andThen (s.memRead z.bits ea) fun a =>
      let p := alu z.bits a (imm.setWidth z.bits) s
      p.2.memWrite ea p.1

/-! ## The same shapes for CP: nothing but the flags is written -/

/-- Shape `R,r` of CP (R130). -/
def compareRr (z : Size) (R : BitVec 3) (r : RSel) (s : State) : Result State :=
  .next (aluSub z.bits (s.readReg z.bits (shortCode z R)) (s.readReg z.bits (selCode z r)) s).2

/-- CP of a register and a number (R131, R132). -/
def compareRi (z : Size) (r : RSel) (imm : Word32) (s : State) : Result State :=
  .next (aluSub z.bits (s.readReg z.bits (selCode z r)) (imm.setWidth z.bits) s).2

/-- Shape `R,(mem)` of CP (R133). -/
def compareRm (z : Size) (R : BitVec 3) (m : Mem) (s : State) : Result State :=
  withMem m [shortCode z R] s fun ea s =>
    andThen (s.memRead z.bits ea) fun b => .next (aluSub z.bits (s.readReg z.bits (shortCode z R)) b s).2

/-- Shape `(mem),R` of CP (R134). -/
def compareMr (z : Size) (m : Mem) (R : BitVec 3) (s : State) : Result State :=
  withMem m [shortCode z R] s fun ea s =>
    andThen (s.memRead z.bits ea) fun a => .next (aluSub z.bits a (s.readReg z.bits (shortCode z R)) s).2

/-- Shape `<W> (mem),#` of CP (R135). -/
def compareMi (z : Size) (m : Mem) (imm : Word32) (s : State) : Result State :=
  withMem m [] s fun ea s =>
    andThen (s.memRead z.bits ea) fun a => .next (aluSub z.bits a (imm.setWidth z.bits) s).2

end Sys2Proof.Machine
end

