-- ==== Sys2Proof/Machine/Arithmetic.lean ====
section
/-! DEFINITION. The arithmetic instructions (spec/42_arithmetic.md). -/

namespace Sys2Proof.Machine

/-! ## ADD -/

/-- ADD R,r (R120). -/
def execAddRR (z : Size) (R : BitVec 3) (r : RSel) (s : State) : Result State :=
  finish (r.len + 1) (shapeRr aluAdd z R r s)

/-- ADD r,# (R121). -/
def execAddRI (z : Size) (r : RSel) (imm : Word32) (s : State) : Result State :=
  finish (r.len + 1 + z.bytes) (shapeRi aluAdd z r imm s)

/-- ADD R,(mem) (R122). -/
def execAddRM (z : Size) (R : BitVec 3) (m : Mem) (s : State) : Result State :=
  finish (m.len + 1) (shapeRm aluAdd z R m s)

/-- ADD (mem),R (R123). -/
def execAddMR (z : Size) (m : Mem) (R : BitVec 3) (s : State) : Result State :=
  finish (m.len + 1) (shapeMr aluAdd z m R s)

/-- ADD<W> (mem),# (R124). -/
def execAddMI (z : SizeBW) (m : Mem) (imm : Word32) (s : State) : Result State :=
  finish (m.len + 1 + z.size.bytes) (shapeMi aluAdd z.size m imm s)

/-! ## ADC -/

/-- ADC R,r (R125). -/
def execAdcRR (z : Size) (R : BitVec 3) (r : RSel) (s : State) : Result State :=
  finish (r.len + 1) (shapeRr aluAdc z R r s)

/-- ADC r,# (R126). -/
def execAdcRI (z : Size) (r : RSel) (imm : Word32) (s : State) : Result State :=
  finish (r.len + 1 + z.bytes) (shapeRi aluAdc z r imm s)

/-- ADC R,(mem) (R127). -/
def execAdcRM (z : Size) (R : BitVec 3) (m : Mem) (s : State) : Result State :=
  finish (m.len + 1) (shapeRm aluAdc z R m s)

/-- ADC (mem),R (R128). -/
def execAdcMR (z : Size) (m : Mem) (R : BitVec 3) (s : State) : Result State :=
  finish (m.len + 1) (shapeMr aluAdc z m R s)

/-- ADC<W> (mem),# (R129). -/
def execAdcMI (z : SizeBW) (m : Mem) (imm : Word32) (s : State) : Result State :=
  finish (m.len + 1 + z.size.bytes) (shapeMi aluAdc z.size m imm s)

/-! ## CP -/

/-- CP R,r (R130). -/
def execCpRR (z : Size) (R : BitVec 3) (r : RSel) (s : State) : Result State :=
  finish (r.len + 1) (compareRr z R r s)

/-- CP r,#3 (R131): the number is 0 to 7. -/
def execCpRN (z : SizeBW) (r : RSel) (n : BitVec 3) (s : State) : Result State :=
  finish (r.len + 1) (compareRi z.size r (n.setWidth 32) s)

/-- CP r,# (R132). -/
def execCpRI (z : Size) (r : RSel) (imm : Word32) (s : State) : Result State :=
  finish (r.len + 1 + z.bytes) (compareRi z r imm s)

/-- CP R,(mem) (R133). -/
def execCpRM (z : Size) (R : BitVec 3) (m : Mem) (s : State) : Result State :=
  finish (m.len + 1) (compareRm z R m s)

/-- CP (mem),R (R134). -/
def execCpMR (z : Size) (m : Mem) (R : BitVec 3) (s : State) : Result State :=
  finish (m.len + 1) (compareMr z m R s)

/-- CP<W> (mem),# (R135). -/
def execCpMI (z : SizeBW) (m : Mem) (imm : Word32) (s : State) : Result State :=
  finish (m.len + 1 + z.size.bytes) (compareMi z.size m imm s)

/-! ## DEC -/

/-- The number of DEC: 1 to 7, and 8 for the code 000 (R79). -/
def decAmount (n : BitVec 3) : Nat := if n = 0#3 then 8 else n.toNat

/-- The flags of a decrement: S, Z, H, V from the subtraction, N = 1, C kept (R136, R137). -/
def decFlags {n : Nat} (a num : BitVec n) (f : Flags) : Flags := { subFlags a num false false f with c := f.c }

/-- DEC #3,r (R136): flags change at Byte only (C8). -/
def execDecNR (z : Size) (n : BitVec 3) (r : RSel) (s : State) : Result State :=
  let a := s.readReg z.bits (selCode z r)
  let num := BitVec.ofNat z.bits (decAmount n)
  let t := s.writeReg (selCode z r) (subRes a num false)
  finish (r.len + 1) (.next (if z = .b then t.setF (decFlags a num s.f) else t))

/-- DEC<W> #3,(mem) (R137): flags change at both sizes. -/
def execDecNM (z : SizeBW) (n : BitVec 3) (m : Mem) (s : State) : Result State :=
  finish (m.len + 1) <| withMem m [] s fun ea s =>
    andThen (s.memRead z.bits ea) fun a =>
      let num := BitVec.ofNat z.bits (decAmount n)
      (s.setF (decFlags a num s.f)).memWrite ea (subRes a num false)

/-! ## EXTZ, EXTS -/

/-- EXTZ r (R138): the upper half becomes 0. -/
def execExtz (z : SizeWL) (r : RSel) (s : State) : Result State :=
  let v := s.readReg z.bits (selCode z.size r)
  finish (r.len + 1) (.next (s.writeReg (selCode z.size r) ((v.setWidth (z.bits / 2)).setWidth z.bits)))

/-- EXTS r (R139): the upper half becomes copies of the sign bit of the lower half. -/
def execExts (z : SizeWL) (r : RSel) (s : State) : Result State :=
  let v := s.readReg z.bits (selCode z.size r)
  finish (r.len + 1) (.next (s.writeReg (selCode z.size r) ((v.setWidth (z.bits / 2)).signExtend z.bits)))

/-! ## DAA -/

/-- A row of DAA's adjustment table (R140): the flags N, C, H before, the bounds of the two digits, the added value and C after. -/
structure DaaRow where
  n : Bool
  c : Bool
  hiMin : Nat
  hiMax : Nat
  h : Bool
  loMin : Nat
  loMax : Nat
  added : Byte
  cAfter : Bool
  deriving DecidableEq, Repr

/-- The adjustment table, in the spec's order (R140; C after is the table's, C2). Log 20. -/
def daaTable : List DaaRow :=
  [ ⟨false, false, 0x0, 0x9, false, 0x0, 0x9, 0x00#8, false⟩
  , ⟨false, false, 0x0, 0x8, false, 0xA, 0xF, 0x06#8, false⟩
  , ⟨false, false, 0x0, 0x9, true, 0x0, 0x3, 0x06#8, false⟩
  , ⟨false, false, 0xA, 0xF, false, 0x0, 0x9, 0x60#8, true⟩
  , ⟨false, false, 0x9, 0xF, false, 0xA, 0xF, 0x66#8, true⟩
  , ⟨false, false, 0xA, 0xF, true, 0x0, 0x3, 0x66#8, true⟩
  , ⟨false, true, 0x0, 0x2, false, 0x0, 0x9, 0x60#8, true⟩
  , ⟨false, true, 0x0, 0x2, false, 0xA, 0xF, 0x66#8, true⟩
  , ⟨false, true, 0x0, 0x3, true, 0x0, 0x3, 0x66#8, true⟩
  , ⟨true, false, 0x0, 0x9, false, 0x0, 0x9, 0x00#8, false⟩
  , ⟨true, false, 0x0, 0x8, true, 0x6, 0xF, 0xFA#8, false⟩
  , ⟨true, true, 0x7, 0xF, false, 0x0, 0x9, 0xA0#8, true⟩
  , ⟨true, true, 0x6, 0xF, true, 0x6, 0xF, 0x9A#8, true⟩ ]

/-- The row applies to the byte `d` under the flags `f` (R140). -/
def DaaRow.matches (row : DaaRow) (f : Flags) (d : Byte) : Bool :=
  row.n == f.n && row.c == f.c && row.h == f.h
    && decide (row.hiMin ≤ d.toNat / 16) && decide (d.toNat / 16 ≤ row.hiMax)
    && decide (row.loMin ≤ d.toNat % 16) && decide (d.toNat % 16 ≤ row.loMax)

/-- The row for the byte `d` under the flags `f`, if one applies (R140). -/
def daaRow (f : Flags) (d : Byte) : Option DaaRow := daaTable.find? fun row => row.matches f d

/-- The flags after DAA by a table row; `u` is the free bit for H when N = 1 (R140, D16). -/
def daaFlags (row : DaaRow) (d : Byte) (u : Bool) (f : Flags) : Flags :=
  { f with
    s := (d + row.added).msb
    z := decide (d + row.added = 0#8)
    h := if f.n then u else decide (16 ≤ d.toNat % 16 + row.added.toNat % 16)
    v := parityEven (d + row.added)
    c := row.cAfter }

/-- DAA off its table: the register and S, Z, H, V, C are free, N keeps its value (R140, D16). Log 20. -/
def daaFree (k : RegCode) (s : State) : State :=
  let v := s.drawValue 8
  let a := v.2.drawBit
  let b := a.2.drawBit
  let c := b.2.drawBit
  let d := c.2.drawBit
  let e := d.2.drawBit
  (e.2.writeReg k v.1).setF { s.f with s := a.1, z := b.1, h := c.1, v := d.1, c := e.1 }

/-- DAA r (R140). -/
def execDaa (r : RSel) (s : State) : Result State :=
  let k := selCode .b r
  let d := s.readReg 8 k
  finish (r.len + 1) (.next (match daaRow s.f d with
    | some row =>
      let u := s.drawBitIf s.f.n
      (u.2.writeReg k (d + row.added)).setF (daaFlags row d u.1 s.f)
    | none => daaFree k s))

/-! ## DIV, DIVS -/

/-- `udiv(n, D, d)` (R145): remainder and quotient, or none where V becomes 1. -/
def udiv {n : Nat} (D : BitVec (n + n)) (d : BitVec n) : Option (BitVec (n + n)) :=
  if d.toNat = 0 ∨ 2 ^ n ≤ D.toNat / d.toNat then none
  else some (BitVec.ofNat n (D.toNat % d.toNat) ++ BitVec.ofNat n (D.toNat / d.toNat))

/-- `sdiv(n, D, d)` (R146): truncating toward zero, the remainder with the dividend's sign, or none where V becomes 1. -/
def sdiv {n : Nat} (D : BitVec (n + n)) (d : BitVec n) : Option (BitVec (n + n)) :=
  let q := D.toInt.tdiv d.toInt
  if d.toInt = 0 ∨ signedOverflow n q then none
  else some (BitVec.ofInt n (D.toInt - q * d.toInt) ++ BitVec.ofInt n q)

/-- Write the result of a divide to the 2n-bit register `k` and V; where there is none the register is free (R145, R146, D17).
Log 21. -/
def putDivision {n : Nat} (k : RegCode) (res : Option (BitVec (n + n))) (s : State) : State :=
  match res with
  | some v => (s.writeReg k v).setF { s.f with v := false }
  | none =>
    let u := s.drawValue (n + n)
    (u.2.writeReg k u.1).setF { s.f with v := true }

/-- The dividend: the register of width 2n at the code that names a register at the operation size (R141). -/
def dividend (z : SizeBW) (k : RegCode) (s : State) : BitVec (z.bits + z.bits) := s.readReg (z.bits + z.bits) k

/-- DIV RR,r (R142). -/
def execDivRR (z : SizeBW) (R : BitVec 3) (r : RSel) (s : State) : Result State :=
  let k := shortCode z.size R
  finish (r.len + 1) (.next (putDivision k (udiv (dividend z k s) (s.readReg z.bits (selCode z.size r))) s))

/-- DIV rr,# (R143). -/
def execDivRI (z : SizeBW) (r : RSel) (imm : Word32) (s : State) : Result State :=
  let k := selCode z.size r
  finish (r.len + 1 + z.size.bytes) (.next (putDivision k (udiv (dividend z k s) (imm.setWidth z.bits)) s))

/-- DIV RR,(mem) (R144). -/
def execDivRM (z : SizeBW) (R : BitVec 3) (m : Mem) (s : State) : Result State :=
  let k := shortCode z.size R
  finish (m.len + 1) <| withMem m [k] s fun ea s =>
    andThen (s.memRead z.bits ea) fun d => .next (putDivision k (udiv (dividend z k s) d) s)

/-- DIVS RR,r (R147; the register value and the operation line win over the page's sentence, C1). -/
def execDivsRR (z : SizeBW) (R : BitVec 3) (r : RSel) (s : State) : Result State :=
  let k := shortCode z.size R
  finish (r.len + 1) (.next (putDivision k (sdiv (dividend z k s) (s.readReg z.bits (selCode z.size r))) s))

/-- DIVS rr,# (R148). -/
def execDivsRI (z : SizeBW) (r : RSel) (imm : Word32) (s : State) : Result State :=
  let k := selCode z.size r
  finish (r.len + 1 + z.size.bytes) (.next (putDivision k (sdiv (dividend z k s) (imm.setWidth z.bits)) s))

/-- DIVS RR,(mem) (R149). -/
def execDivsRM (z : SizeBW) (R : BitVec 3) (m : Mem) (s : State) : Result State :=
  let k := shortCode z.size R
  finish (m.len + 1) <| withMem m [k] s fun ea s =>
    andThen (s.memRead z.bits ea) fun d => .next (putDivision k (sdiv (dividend z k s) d) s)

end Sys2Proof.Machine
end

