-- ==== Sys2Proof/Machine/Bits.lean ====
section
/-! DEFINITION. The bit operation instructions (spec/44_bit.md). -/

namespace Sys2Proof.Machine

/-- Bit `k` of an `n`-bit value, or a free bit where the value has no such bit (R180, R185). -/
def bitOrFree {n : Nat} (v : BitVec n) (k : Nat) (s : State) : Bool × State :=
  if k < n then (v.getLsbD k, s) else s.drawBit

/-- `C <- C AND v[k]`; C is free where the value has no bit `k` (R180 to R183, D6). -/
def andCarry {n : Nat} (v : BitVec n) (k : Nat) (s : State) : State :=
  if k < n then s.setF { s.f with c := s.f.c && v.getLsbD k }
  else s.drawBit.2.setF { s.f with c := s.drawBit.1 }

/-- The bit number in A: its low four bits (R181, R183). -/
def State.bitNumber (s : State) : Nat := (s.readReg 8 codeA).toNat % 16

/-- ANDCF #4,r (R180). -/
def execAndcfNR (z : SizeBW) (n : BitVec 4) (r : RSel) (s : State) : Result State :=
  finish (r.len + 2) (.next (andCarry (s.readReg z.bits (selCode z.size r)) n.toNat s))

/-- ANDCF A,r (R181). -/
def execAndcfAR (z : SizeBW) (r : RSel) (s : State) : Result State :=
  finish (r.len + 1) (.next (andCarry (s.readReg z.bits (selCode z.size r)) s.bitNumber s))

/-- ANDCF #3,(mem) (R182). -/
def execAndcfNM (n : BitVec 3) (m : Mem) (s : State) : Result State :=
  finish (m.len + 1) <| withMem m [] s fun ea s =>
    andThen (s.memRead 8 ea) fun v => .next (andCarry v n.toNat s)

/-- ANDCF A,(mem) (R183): the byte is read in both cases. -/
def execAndcfAM (m : Mem) (s : State) : Result State :=
  finish (m.len + 1) <| withMem m [codeA] s fun ea s =>
    andThen (s.memRead 8 ea) fun v => .next (andCarry v s.bitNumber s)

/-- CCF (R184): C is inverted, H is free, N becomes 0. -/
def execCcf (s : State) : Result State :=
  let u := s.drawBit
  finish 1 (.next (u.2.setF { s.f with c := !s.f.c, h := u.1, n := false }))

/-- The flags of BIT: Z is the inverted bit, S and V are free, H becomes 1, N 0, C is kept (R185, R186, D18). Log 22. -/
def testBit {n : Nat} (v : BitVec n) (k : Nat) (s : State) : State :=
  let b := bitOrFree v k s
  let x := b.2.drawBit
  let y := x.2.drawBit
  y.2.setF { s.f with s := x.1, z := if k < n then !b.1 else b.1, h := true, v := y.1, n := false }

/-- BIT #4,r (R185). -/
def execBitNR (z : SizeBW) (n : BitVec 4) (r : RSel) (s : State) : Result State :=
  finish (r.len + 2) (.next (testBit (s.readReg z.bits (selCode z.size r)) n.toNat s))

/-- BIT #3,(mem) (R186). -/
def execBitNM (n : BitVec 3) (m : Mem) (s : State) : Result State :=
  finish (m.len + 1) <| withMem m [] s fun ea s =>
    andThen (s.memRead 8 ea) fun v => .next (testBit v n.toNat s)

/-- A value with bit `k` inverted: `v XOR (1 << k)` (R187, R188). -/
def flipBit {n : Nat} (v : BitVec n) (k : Nat) : BitVec n := v ^^^ (1#n <<< k)

/-- CHG #4,r (R187): refused at Byte with a bit number from 8 on (D18). Log 16. -/
def execChgNR (z : SizeBW) (n : BitVec 4) (r : RSel) (s : State) : Result State :=
  if n.toNat < z.bits then
    finish (r.len + 2)
      (.next (s.writeReg (selCode z.size r) (flipBit (s.readReg z.bits (selCode z.size r)) n.toNat)))
  else .refused .bitNumberOutsideByte

/-- CHG #3,(mem) (R188). -/
def execChgNM (n : BitVec 3) (m : Mem) (s : State) : Result State :=
  finish (m.len + 1) <| withMem m [] s fun ea s =>
    andThen (s.memRead 8 ea) fun v => s.memWrite ea (flipBit v n.toNat)

/-- The least bit number that is 1, if there is one (R189). -/
def firstOne (v : Word16) : Option Nat := (List.range 16).find? fun i => v.getLsbD i

/-- The greatest bit number that is 1, if there is one (R190). -/
def lastOne (v : Word16) : Option Nat := (List.range 16).reverse.find? fun i => v.getLsbD i

/-- Write a search's result to A and V: the bit number in all eight bits, or a free value and V = 1 (R189, R190, D36). Log 23. -/
def putSearch (found : Option Nat) (s : State) : State :=
  match found with
  | some i => (s.writeReg codeA (BitVec.ofNat 8 i)).setF { s.f with v := false }
  | none =>
    let u := s.drawValue 8
    (u.2.writeReg codeA u.1).setF { s.f with v := true }

/-- BS1F A,r (R189). -/
def execBs1f (r : RSel) (s : State) : Result State :=
  finish (r.len + 1) (.next (putSearch (firstOne (s.readReg 16 (selCode .w r))) s))

/-- BS1B A,r (R190). -/
def execBs1b (r : RSel) (s : State) : Result State :=
  finish (r.len + 1) (.next (putSearch (lastOne (s.readReg 16 (selCode .w r))) s))

end Sys2Proof.Machine
end

