-- ==== Sys2Proof/Machine/BlockCompare.lean ====
section
/-! DEFINITION. The compare increment/decrement instructions (spec/41_block_compare.md). -/

namespace Sys2Proof.Machine

/-- BC of the current bank, the counter (R110). -/
def State.counter (s : State) : Word16 := s.readReg 16 codeBC

/-- The pointer `XRR` moved by `bytes(n)` up or down (R110, D15). Log 17. -/
def stepPointer (z : SizeBW) (up : Bool) (p : Word32) : Word32 :=
  if up then p + BitVec.ofNat 32 z.size.bytes else p - BitVec.ofNat 32 z.size.bytes

/-- The registers and flags after one compare step with the memory value `m`: the pointer, BC, and S Z H from the subtraction,
V = (BC /= 0), N = 1, C kept (R110). -/
def compareStepDone (z : SizeBW) (R : BitVec 3) (up : Bool) (m : BitVec z.bits) (s : State) : State :=
  let g := subFlags (s.readReg z.bits codeA) m false false s.f
  let t := s.setLong (pointerReg R) (stepPointer z up (s.long (pointerReg R)))
  let t := t.writeReg codeBC (t.counter - 1#16)
  t.setF { s.f with s := g.s, z := g.z, h := g.h, v := decide (t.counter ≠ 0#16), n := true }

/-- `cmpstep(n, R, dir)` (R110). -/
def compareStep (z : SizeBW) (R : BitVec 3) (up : Bool) (s : State) : Result State :=
  andThen (s.memRead z.bits (s.long (pointerReg R))) fun m => .next (compareStepDone z R up m s)

/-- `repeat cmpstep until Z = 1 or BC = 0` (R112, R114), at most the given number of times. -/
def compareRepeat (z : SizeBW) (R : BitVec 3) (up : Bool) : Nat → State → Result State
  | 0, s => .next s
  | k + 1, s => andThen (compareStep z R up s) fun t =>
      if t.f.z || t.counter == 0#16 then .next t else compareRepeat z R up k t

/-- How often the repeat can run: BC, and 65536 times from BC = 0 (R112). BC is 0 after that many steps. -/
def compareBound (s : State) : Nat := if s.counter = 0#16 then 65536 else s.counter.toNat

/-- The pointer may not be XWA (which holds A and WA) nor XBC (which holds BC) (R110, D34). -/
def onFreePointer (R : BitVec 3) (r : Result State) : Result State :=
  if R = 0#3 ∨ R = 1#3 then .refused .pointerOverlap else r

/-- CPI (R111). -/
def execCpi (z : SizeBW) (R : BitVec 3) (s : State) : Result State :=
  onFreePointer R (finish 2 (compareStep z R true s))

/-- CPIR (R112): the whole repeat is one step (D29). Log 25. -/
def execCpir (z : SizeBW) (R : BitVec 3) (s : State) : Result State :=
  onFreePointer R (finish 2 (compareRepeat z R true (compareBound s) s))

/-- CPD (R113): the access is at the value before the decrement (C7). -/
def execCpd (z : SizeBW) (R : BitVec 3) (s : State) : Result State :=
  onFreePointer R (finish 2 (compareStep z R false s))

/-- CPDR (R114): the whole repeat is one step (D29). Log 25. -/
def execCpdr (z : SizeBW) (R : BitVec 3) (s : State) : Result State :=
  onFreePointer R (finish 2 (compareRepeat z R false (compareBound s) s))

end Sys2Proof.Machine
end

