-- ==== Sys2Proof/Machine/Calls.lean ====
section
/-! DEFINITION. The call and loop instructions (spec/46_jump_call.md). -/

namespace Sys2Proof.Machine

/-- Push `next`, then go to `target` (R210 to R214). -/
def call (len : Nat) (target : Word32) (s : State) : Result State :=
  andThen (s.push32 (s.nextPc len)) fun t => .next (t.jump target)

/-- CALL #16 (R210). -/
def execCall16 (a : BitVec 16) (s : State) : Result State := call 3 (a.setWidth 32) s

/-- CALL #24 (R211). -/
def execCall24 (a : BitVec 24) (s : State) : Result State := call 4 (a.setWidth 32) s

/-- CALR (R214): relative to `next` (R78). -/
def execCalr (d : BitVec 16) (s : State) : Result State := call 3 (s.nextPc 3 + d.signExtend 32) s

/-- The row of the register that a code names is not XSP. -/
def notXSP (r : LongReg) : Bool := r != rowXSP

/-- The modes that CALL [cc,]mem has a meaning for: none that names XSP or a part of it, and neither (-r32) nor (r32+) (R212,
D11). Log 16. -/
def callMode : Mem → Bool
  | .ind R => notXSP (pointerReg R)
  | .indD8 R _ => notXSP (pointerReg R)
  | .abs8 _ | .abs16 _ | .abs24 _ => true
  | .reg r => notXSP r
  | .regD16 r _ => notXSP r
  | .regR8 r k => notXSP r && notXSP k.row
  | .regR16 r k => notXSP r && notXSP k.row
  | .preDec _ _ | .postInc _ _ => false

/-- CALL [cc,]mem (R212): the effective address, from the registers before the instruction, is itself the target. -/
def execCallM (c : Cond) (m : Mem) (s : State) : Result State :=
  if callMode m then
    if s.f.holds c then call (m.len + 1) (Mem.ea s m) s else .next (s.advance (m.len + 1))
  else .refused .callModeNotGiven

/-- DJNZ [r,]$+3/4+d8 (R215): relative to `next` (R78). No flag changes. -/
def execDjnz (z : SizeBW) (r : RSel) (d : BitVec 8) (s : State) : Result State :=
  let v := s.readReg z.bits (selCode z.size r) - 1#z.bits
  let t := s.writeReg (selCode z.size r) v
  .next (if v = 0#z.bits then t.advance (r.len + 2) else t.jump (s.nextPc (r.len + 2) + d.signExtend 32))

end Sys2Proof.Machine
end

