-- ==== Sys2Proof/Machine/Control.lean ====
section
/-! DEFINITION. The CPU control instructions (spec/45_cpu_control.md). No mode is checked: the source shows no privilege (R224). -/

namespace Sys2Proof.Machine

/-- EI #3 (R200). In force from the next instruction on (D26). Log 24. -/
def execEi (n : BitVec 3) (s : State) : Result State :=
  finish 2 (.next { s with iffLevel := n })

/-- DI (R201). -/
def execDi (s : State) : Result State :=
  finish 2 (.next { s with iffLevel := 7#3 })

/-- `(RFP - 1) mod 4` in three bits, bit 2 being 0 (R202, D35). Log 24. -/
def decRfp (rfp : BitVec 3) : BitVec 3 := (rfp.setWidth 2 - 1#2).setWidth 3

/-- DECF (R202). No register's content changes. -/
def execDecf (s : State) : Result State :=
  finish 1 (.next { s with rfp := decRfp s.rfp })

end Sys2Proof.Machine
end

