-- ==== Sys2Proof/Machine/Exchange.lean ====
section
/-! DEFINITION. The exchange instructions (spec/40_exchange.md). -/

namespace Sys2Proof.Machine

/-- EX F,F' (R100): all eight bits of each. -/
def execExFF (s : State) : Result State :=
  finish 1 (.next { s with f := s.fAlt, fAlt := s.f })

/-- EX R,r (R101). -/
def execExRR (z : SizeBW) (R : BitVec 3) (r : RSel) (s : State) : Result State :=
  let t := s.readReg z.bits (shortCode z.size R)
  let u := s.readReg z.bits (selCode z.size r)
  finish (r.len + 1) (.next ((s.writeReg (shortCode z.size R) u).writeReg (selCode z.size r) t))

/-- EX (mem),r (R102): the read comes before the write; the register is the 3-bit field of the op byte (C6). -/
def execExMR (z : SizeBW) (m : Mem) (R : BitVec 3) (s : State) : Result State :=
  finish (m.len + 1) <| withMem m [shortCode z.size R] s fun ea s =>
    andThen (s.memRead z.bits ea) fun t =>
      andThen (s.memWrite ea (s.readReg z.bits (shortCode z.size R))) fun s =>
        .next (s.writeReg (shortCode z.size R) t)

end Sys2Proof.Machine
end

