-- ==== Sys2Proof/Machine/Logical.lean ====
section
/-! DEFINITION. The logical instructions (spec/43_logical.md). -/

namespace Sys2Proof.Machine

/-- AND R,r (R170). -/
def execAndRR (z : Size) (R : BitVec 3) (r : RSel) (s : State) : Result State :=
  finish (r.len + 1) (shapeRr aluAnd z R r s)

/-- AND r,# (R171). -/
def execAndRI (z : Size) (r : RSel) (imm : Word32) (s : State) : Result State :=
  finish (r.len + 1 + z.bytes) (shapeRi aluAnd z r imm s)

/-- AND R,(mem) (R172). -/
def execAndRM (z : Size) (R : BitVec 3) (m : Mem) (s : State) : Result State :=
  finish (m.len + 1) (shapeRm aluAnd z R m s)

/-- AND (mem),R (R173). -/
def execAndMR (z : Size) (m : Mem) (R : BitVec 3) (s : State) : Result State :=
  finish (m.len + 1) (shapeMr aluAnd z m R s)

/-- AND<W> (mem),# (R174). -/
def execAndMI (z : SizeBW) (m : Mem) (imm : Word32) (s : State) : Result State :=
  finish (m.len + 1 + z.size.bytes) (shapeMi aluAnd z.size m imm s)

/-- CPL r (R175): the ones complement; H and N become 1. -/
def execCplR (z : SizeBW) (r : RSel) (s : State) : Result State :=
  let t := s.writeReg (selCode z.size r) (~~~(s.readReg z.bits (selCode z.size r)))
  finish (r.len + 1) (.next (t.setF { s.f with h := true, n := true }))

end Sys2Proof.Machine
end

