-- ==== Sys2Proof/Machine/Dispatch.lean ====
section
/-! DEFINITION. What each instruction does: one arm per constructor, each a direct call of its meaning. -/

namespace Sys2Proof.Machine

def exec (i : Instr) (s : State) : Host.Outcome State Fault Refusal :=
  match i with
  | .ei n => Sys2Proof.Machine.execEi n s
  | .di => Sys2Proof.Machine.execDi s
  | .decf => Sys2Proof.Machine.execDecf s
  | .ccf => Sys2Proof.Machine.execCcf s
  | .exFF => Sys2Proof.Machine.execExFF s
  | .call16 a => Sys2Proof.Machine.execCall16 a s
  | .call24 a => Sys2Proof.Machine.execCall24 a s
  | .calr d => Sys2Proof.Machine.execCalr d s
  | .cplR z r => Sys2Proof.Machine.execCplR z r s
  | .divRI z r imm => Sys2Proof.Machine.execDivRI z r imm s
  | .divsRI z r imm => Sys2Proof.Machine.execDivsRI z r imm s
  | .bs1f r => Sys2Proof.Machine.execBs1f r s
  | .bs1b r => Sys2Proof.Machine.execBs1b r s
  | .daa r => Sys2Proof.Machine.execDaa r s
  | .extz z r => Sys2Proof.Machine.execExtz z r s
  | .exts z r => Sys2Proof.Machine.execExts z r s
  | .djnz z r d => Sys2Proof.Machine.execDjnz z r d s
  | .andcfNR z n r => Sys2Proof.Machine.execAndcfNR z n r s
  | .andcfAR z r => Sys2Proof.Machine.execAndcfAR z r s
  | .chgNR z n r => Sys2Proof.Machine.execChgNR z n r s
  | .bitNR z n r => Sys2Proof.Machine.execBitNR z n r s
  | .divRR z R r => Sys2Proof.Machine.execDivRR z R r s
  | .divsRR z R r => Sys2Proof.Machine.execDivsRR z R r s
  | .decNR z n r => Sys2Proof.Machine.execDecNR z n r s
  | .addRR z R r => Sys2Proof.Machine.execAddRR z R r s
  | .adcRR z R r => Sys2Proof.Machine.execAdcRR z R r s
  | .exRR z R r => Sys2Proof.Machine.execExRR z R r s
  | .andRR z R r => Sys2Proof.Machine.execAndRR z R r s
  | .addRI z r imm => Sys2Proof.Machine.execAddRI z r imm s
  | .adcRI z r imm => Sys2Proof.Machine.execAdcRI z r imm s
  | .andRI z r imm => Sys2Proof.Machine.execAndRI z r imm s
  | .cpRI z r imm => Sys2Proof.Machine.execCpRI z r imm s
  | .cpRN z r n => Sys2Proof.Machine.execCpRN z r n s
  | .cpRR z R r => Sys2Proof.Machine.execCpRR z R r s
  | .cpi z R => Sys2Proof.Machine.execCpi z R s
  | .cpir z R => Sys2Proof.Machine.execCpir z R s
  | .cpd z R => Sys2Proof.Machine.execCpd z R s
  | .cpdr z R => Sys2Proof.Machine.execCpdr z R s
  | .exMR z m R => Sys2Proof.Machine.execExMR z m R s
  | .addMI z m imm => Sys2Proof.Machine.execAddMI z m imm s
  | .adcMI z m imm => Sys2Proof.Machine.execAdcMI z m imm s
  | .andMI z m imm => Sys2Proof.Machine.execAndMI z m imm s
  | .cpMI z m imm => Sys2Proof.Machine.execCpMI z m imm s
  | .divRM z R m => Sys2Proof.Machine.execDivRM z R m s
  | .divsRM z R m => Sys2Proof.Machine.execDivsRM z R m s
  | .decNM z n m => Sys2Proof.Machine.execDecNM z n m s
  | .addRM z R m => Sys2Proof.Machine.execAddRM z R m s
  | .addMR z m R => Sys2Proof.Machine.execAddMR z m R s
  | .adcRM z R m => Sys2Proof.Machine.execAdcRM z R m s
  | .adcMR z m R => Sys2Proof.Machine.execAdcMR z m R s
  | .andRM z R m => Sys2Proof.Machine.execAndRM z R m s
  | .andMR z m R => Sys2Proof.Machine.execAndMR z m R s
  | .cpRM z R m => Sys2Proof.Machine.execCpRM z R m s
  | .cpMR z m R => Sys2Proof.Machine.execCpMR z m R s
  | .andcfAM m => Sys2Proof.Machine.execAndcfAM m s
  | .andcfNM n m => Sys2Proof.Machine.execAndcfNM n m s
  | .chgNM n m => Sys2Proof.Machine.execChgNM n m s
  | .bitNM n m => Sys2Proof.Machine.execBitNM n m s
  | .callM c m => Sys2Proof.Machine.execCallM c m s

end Sys2Proof.Machine
end

