-- ==== Sys2Proof/Machine/Fetch.lean ====
section
/-! DEFINITION. Fetching an instruction's bytes (spec/20_memory.md rule R61) and placing a program, which stands for the launch
(spec/70_reset_and_hazards.md rules R241 and R242). -/

namespace Sys2Proof.Machine

/-- The bytes at `$ + i`, `$ + i + 1`, … as long as they lie in TEXT, at most `k` of them (R61). -/
def State.fetchFrom (s : State) : Nat → Nat → List Byte
  | _, 0 => []
  | i, k + 1 =>
    if s.launch.isText (s.addr s.pc i) then s.byteAt (s.addr s.pc i) :: s.fetchFrom (i + 1) k else []

/-- The bytes an instruction at pc can be read from (R61, R85). Log 35. -/
def State.fetch (s : State) : List Byte := s.fetchFrom 0 Config.maxInstrBytes

/-- Store bytes from `a + i` on without asking the launch. -/
def State.placeFrom (s : State) (a : Word32) : Nat → List Byte → Memory → Memory
  | _, [], m => m
  | i, b :: bs, m => s.placeFrom a (i + 1) bs (m.write (s.addr a i) b)

/-- The one-byte ranges of the `k` addresses from `a` on. -/
def State.rangesFrom (s : State) (a : Word32) (k : Nat) : List Range := (List.range k).map fun i => ⟨s.addr a i, 1⟩

/-- The launch with a program placed at `a`: its bytes in memory, its addresses admitted and in TEXT, no HALT_PC at `a`
(R242). Log 2. -/
def State.loadProgram (s : State) (a : Word32) (bytes : List Byte) : State :=
  { s with
    mem := s.placeFrom a 0 bytes s.mem
    launch := { s.launch with
      admitted := s.rangesFrom a bytes.length ++ s.launch.admitted
      text := s.rangesFrom a bytes.length ++ s.launch.text
      haltPc := if s.launch.haltPc = some a then none else s.launch.haltPc } }

/-- The run has ended: pc = HALT_PC (R243). -/
def State.atHalt (s : State) : Bool := s.launch.haltPc == some s.pc

end Sys2Proof.Machine
end

