-- ==== Sys2Proof/Machine/Step.lean ====
section
/-! DEFINITION. One step of the machine: one instruction (spec/70_reset_and_hazards.md rules R243 to R246). -/

namespace Sys2Proof.Machine

/-- What follows from the decoder's answer: the instruction runs, or the fetch left TEXT, or the encoding is refused. -/
def runDecoded (d : Decoded) (s : State) : Host.Outcome State Fault Refusal :=
  match d with
  | .ok i _ => exec i s
  | .truncated => .fault .fetchOutsideText
  | .refuse why => .refused (.encoding why)

/-- One step (R244): at HALT_PC the run has ended and nothing is fetched (R243); else fetch, decode, execute. Log 5. -/
def step (s : State) : Host.Outcome State Fault Refusal :=
  if s.atHalt then .fault .halted else runDecoded (decode s.fetch) s

/-- `s` with the instruction of a table word, followed by zero bytes, as the program at pc, so that the next step runs it. It
stands for the launch that places a program (R242). Logs 2 and 29. -/
def State.withFetchWord (s : State) (nbits w : Nat) : State := s.loadProgram s.pc (tableWindow nbits w)

end Sys2Proof.Machine
end

