-- ==== Sys2Proof/Safety.lean ====
section
/-! DEFINITION. The terms that claims are stated in: what a state must satisfy, what an instruction leaves unchanged, and what the
flags say about a result. They are written from the spec, beside the meanings and not by calling them. -/

namespace Sys2Proof.Machine

/-! ## States -/

/-- Memory is in canonical form and lists no address outside the address space (R50). -/
def State.memOk (s : State) : Prop := s.mem.wf = true ∧ s.mem.below s.launch.space = true

/-- "RFP2 is fixed to 0" (R26). -/
def State.rfpOk (s : State) : Prop := s.rfp.getLsbD 2 = false

/-- The invariant that every step keeps. -/
def State.Inv (s : State) : Prop := s.memOk ∧ s.rfpOk ∧ s.launch.wf = true

/-- The launch admits every address of TEXT: "the subset of admitted addresses that holds the program" (R242). -/
def Launch.textAdmitted (l : Launch) : Prop := ∀ a : Nat, (l.text.any fun r => r.has a) = true → l.admits a = true

/-- A well-formed launch (R242): pc is in TEXT, TEXT is admitted and both lie inside the address space, RFP2 is 0, and HALT_PC is
no address of TEXT at which the program expects to execute. What a program expects is no data of the machine: `expected` lists those
addresses, pc among them. Log 36. -/
def State.WellFormedLaunch (expected : List Word32) (s : State) : Prop :=
  s.Inv ∧ s.launch.textAdmitted ∧ s.launch.isText (s.addr s.pc 0) = true ∧ s.pc ∈ expected
    ∧ ∀ h, s.launch.haltPc = some h → ¬ (s.launch.isText (s.addr h 0) = true ∧ h ∈ expected)

/-- What a store needs to be read back: memory in canonical form, and an address space of at least 2^24 bytes (D2), so that the
bytes of one access have different addresses. Both follow from `State.Inv`. -/
def State.storeOk (s : State) : Prop := s.mem.wf = true ∧ 24 ≤ s.launch.addrBits

/-! ## What is kept -/

/-- Byte `j` of the register with storage index `i`. -/
def State.regByte (s : State) (i : Fin 20) (j : Fin 4) : Byte := s.regs[i].extractLsb' (8 * j.val) 8

/-- The byte `j` of storage index `i` is one of the `n / 8` bytes that the register code `k` names (R38). -/
def State.inReg (s : State) (n : Nat) (k : RegCode) (i : Fin 20) (j : Fin 4) : Prop :=
  i = s.slot k.row ∧ k.off.toNat ≤ j.val ∧ j.val < k.off.toNat + n / 8

/-- The byte lies in the 32-bit register of a row. -/
def State.inLong (s : State) (r : LongReg) (i : Fin 20) (_ : Fin 4) : Prop := i = s.slot r

/-- The byte lies in the register that (-r32) or (r32+) modifies. -/
def State.inAuto (s : State) (m : Mem) (i : Fin 20) (_ : Fin 4) : Prop := ∃ r, Mem.autoReg m = some r ∧ i = s.slot r

/-- Every byte of every general register is unchanged but those for which `dest` holds. -/
def RegsKeptBut (dest : Fin 20 → Fin 4 → Prop) (s t : State) : Prop :=
  ∀ i j, ¬ dest i j → t.regByte i j = s.regByte i j

/-- Every general register is unchanged. -/
def RegsKept (s t : State) : Prop := ∀ i : Fin 20, t.regs[i] = s.regs[i]

/-- Every byte of memory is unchanged. -/
def MemKept (s t : State) : Prop := ∀ a : Nat, t.byteAt a = s.byteAt a

/-- Every byte of memory is unchanged but the `k` bytes from `ea` on. -/
def MemKeptBut (ea : Word32) (k : Nat) (s t : State) : Prop :=
  ∀ a : Nat, (∀ i, i < k → a ≠ s.addr ea i) → t.byteAt a = s.byteAt a

/-- The DMA registers and INTNEST are unchanged (R29). -/
def ControlRegsKept (s t : State) : Prop :=
  t.dmas = s.dmas ∧ t.dmad = s.dmad ∧ t.dmac = s.dmac ∧ t.dmam = s.dmam ∧ t.intnest = s.intnest

/-- IFF, RFP, F', the control registers and the parameters of the run are unchanged. -/
def SystemKept (s t : State) : Prop :=
  t.iffLevel = s.iffLevel ∧ t.rfp = s.rfp ∧ t.fAlt = s.fAlt ∧ ControlRegsKept s t ∧ t.launch = s.launch

/-- `pc <- next` (R7): pc has moved past the instruction. -/
def MovedPast (i : Instr) (s t : State) : Prop := t.pc = s.pc + BitVec.ofNat 32 i.len

/-! ## What is written -/

/-- The `k` bytes from `ea` on may be written: admitted and outside TEXT (R52, R62). -/
def State.writable (s : State) (ea : Word32) (k : Nat) : Prop := s.admits ea k = true ∧ s.touchesText ea k = false

/-- The mode modifies none of the registers `used` (R75). -/
def NoClash (s : State) (m : Mem) (used : List RegCode) : Prop := ∀ k ∈ used, Mem.clashes s m k = false

/-- The register of (-r32) or (r32+) has moved by its step (R75, R76). -/
def AutoMoved (m : Mem) (s t : State) : Prop :=
  match m with
  | .preDec r st => t.long r = s.long r - BitVec.ofNat 32 st.amount
  | .postInc r st => t.long r = s.long r + BitVec.ofNat 32 st.amount
  | _ => True

/-- The bytes of `v` stand in memory from `ea` on, least significant first (R51, R52). -/
def Stored {n : Nat} (ea : Word32) (v : BitVec n) (s t : State) : Prop :=
  ∀ i, i < n / 8 → t.byteAt (s.addr ea i) = v.extractLsb' (8 * i) 8

/-- An instruction has written `v` to the register `k` and has changed no other register, no memory and no system field. -/
def WroteReg {n : Nat} (i : Instr) (k : RegCode) (v : BitVec n) (s t : State) : Prop :=
  t.readReg n k = v ∧ RegsKeptBut (s.inReg n k) s t ∧ MemKept s t ∧ SystemKept s t ∧ MovedPast i s t

/-- The same for an instruction that also uses the memory mode `m`. -/
def WroteRegVia {n : Nat} (m : Mem) (i : Instr) (k : RegCode) (v : BitVec n) (s t : State) : Prop :=
  t.readReg n k = v ∧ AutoMoved m s t ∧ RegsKeptBut (fun x j => s.inReg n k x j ∨ s.inAuto m x j) s t ∧ MemKept s t
    ∧ SystemKept s t ∧ MovedPast i s t

/-- An instruction has stored `v` at the effective address of `m` and has changed no other byte of memory, no register but the
auto-modified one and no system field. -/
def WroteMem {n : Nat} (m : Mem) (i : Instr) (v : BitVec n) (s t : State) : Prop :=
  Stored (Mem.ea s m) v s t ∧ MemKeptBut (Mem.ea s m) (n / 8) s t ∧ AutoMoved m s t ∧ RegsKeptBut (s.inAuto m) s t
    ∧ SystemKept s t ∧ MovedPast i s t

/-- An instruction has changed no register, no memory and no system field. -/
def WroteNothing (i : Instr) (s t : State) : Prop := RegsKept s t ∧ MemKept s t ∧ SystemKept s t ∧ MovedPast i s t

/-- The same for an instruction that uses the memory mode `m`. -/
def WroteNothingVia (m : Mem) (i : Instr) (s t : State) : Prop :=
  AutoMoved m s t ∧ RegsKeptBut (s.inAuto m) s t ∧ MemKept s t ∧ SystemKept s t ∧ MovedPast i s t

/-- A call has pushed the address after the instruction `i` and has gone to `target`: XSP is 4 lower, the long word there is the
return address, and nothing else has changed (R63, R213). -/
def Called (i : Instr) (target : Word32) (s t : State) : Prop :=
  t.pc = target ∧ t.long rowXSP = s.long rowXSP - 4#32
    ∧ Stored (s.long rowXSP - 4#32) (s.pc + BitVec.ofNat 32 i.len) s t
    ∧ MemKeptBut (s.long rowXSP - 4#32) 4 s t ∧ RegsKeptBut (s.inLong rowXSP) s t ∧ t.f = s.f ∧ SystemKept s t

/-! ## What the flags say -/

/-- The flags `g` after an add-type operation with result `res`, from the flags `f` before (R30). H is left open at Long word. -/
def AddFlagsSay (z : Size) (a b res : BitVec z.bits) (ci : Bool) (f g : Flags) : Prop :=
  g.s = res.msb ∧ (g.z = true ↔ res = 0#z.bits)
    ∧ (z ≠ .l → (g.h = true ↔ 16 ≤ a.toNat % 16 + b.toNat % 16 + ci.toNat))
    ∧ (g.v = true ↔ res.toInt ≠ a.toInt + b.toInt + ci.toNat)
    ∧ g.n = false ∧ (g.c = true ↔ 2 ^ z.bits ≤ a.toNat + b.toNat + ci.toNat) ∧ g.rest = f.rest

/-- S, Z, H, V and N after the subtraction `a - b` (R31). H is left open at Long word. -/
def SubFlagsSay (z : Size) (a b : BitVec z.bits) (f g : Flags) : Prop :=
  g.s = (a - b).msb ∧ (g.z = true ↔ a = b) ∧ (z ≠ .l → (g.h = true ↔ a.toNat % 16 < b.toNat % 16))
    ∧ (g.v = true ↔ (a - b).toInt ≠ a.toInt - b.toInt) ∧ g.n = true ∧ g.rest = f.rest

/-- How many bits of a value are 1. -/
def onesCount {n : Nat} (v : BitVec n) : Nat := ((List.range n).filter fun i => v.getLsbD i).length

/-- The flags after AND with result `res` (R32). V is left open at Long word. -/
def AndFlagsSay (z : Size) (res : BitVec z.bits) (f g : Flags) : Prop :=
  g.s = res.msb ∧ (g.z = true ↔ res = 0#z.bits) ∧ g.h = true ∧ (z ≠ .l → (g.v = true ↔ onesCount res % 2 = 0))
    ∧ g.n = false ∧ g.c = false ∧ g.rest = f.rest

/-- All flags but C are the same. -/
def SameButC (f g : Flags) : Prop := g = { f with c := g.c }

/-- The flags of BIT but Z: S and V are open, H is 1, N is 0, C is kept (R185, R186). -/
def BitFlagsSay (f g : Flags) : Prop := g = { f with s := g.s, z := g.z, h := true, v := g.v, n := false }

end Sys2Proof.Machine
end

