-- ==== Sys2Proof/Certificates/Slice0/Obligations.lean ====
section
/-! DEFINITION. The statements for the provers. Each is a statement about the machine, none about a program. A free value of the
spec (a flag or a register that a page calls undefined) is left unconstrained in every statement. -/

open Sys2Proof Sys2Proof.Machine

/-! ## Encoding -/

/-- Words written out from the encodings of the opcode table and of the spec's examples decode to the instructions they stand
for. The pair 06H 07H is read as DI (log 26). -/
def Obligations.SpecWordsDecode : Prop :=
  decode [0x06#8, 0x03#8] = .ok (.ei 3#3) [] ∧ decode [0x06#8, 0x07#8] = .ok .di [] ∧ decode [0x16#8] = .ok .exFF []
  ∧ decode [0xDC#8, 0x83#8] = .ok (.addRR .w 3#3 (.short 4#3)) []
  ∧ decode [0xC7#8, 0xF0#8, 0x0A#8, 0x03#8] = .ok (.divRI .b (.ext ⟨.idx 0#2, 0#2⟩) 3#32) []
  ∧ decode [0x84#8, 0x15#8] = .ok (.cpir .b 4#3) []
  ∧ decode [0xD1#8, 0x00#8, 0x02#8, 0x38#8, 0x34#8, 0x12#8] = .ok (.addMI .w (.abs16 0x0200#16) 0x1234#32) []
  ∧ decode [0xF1#8, 0x00#8, 0x01#8, 0x86#8] = .ok (.andcfNM 6#3 (.abs16 0x0100#16)) []
  ∧ decode [0xDB#8, 0x6C#8] = .ok (.decNR .w 4#3 (.short 3#3)) []
  ∧ decode [0xD8#8, 0x06#8] = .ok (.cplR .w (.short 0#3)) []
  ∧ decode [0xF1#8, 0x00#8, 0x30#8, 0xEC#8] = .ok (.callM .nov (.abs16 0x3000#16)) []
  ∧ decode [0xC8#8, 0x1C#8, 0xFB#8] = .ok (.djnz .b (.short 0#3) 0xFB#8) []

/-- Decode and encode agree: every operand at every value an encoding admits comes back. EI 7 is left out because its bytes are
read as DI (log 26). -/
def Obligations.DecodeOfEncodeIsTheInstruction : Prop :=
  ∀ (i : Instr) (rest : List Byte), i.wf = true → decode (encode i ++ rest) = .ok i rest

/-- What the decoder accepts is a well-formed instruction, and the bytes it took are its encoding: no two encodings of the map
stand for one instruction, and nothing outside the map is accepted. That everything else is refused is the spec's decision (log
15), and 06H 07H is read as DI (log 26). -/
def Obligations.DecodedBytesAreTheEncoding : Prop :=
  ∀ (bs : List Byte) (i : Instr) (rest : List Byte), decode bs = .ok i rest → i.wf = true ∧ bs = encode i ++ rest

/-- Instructions are `len` bytes long, from 1 to 7. -/
def Obligations.EncodingsHaveTheStatedLength : Prop :=
  ∀ i : Instr, (encode i).length = i.len ∧ 1 ≤ i.len ∧ i.len ≤ 7

/-- A first byte that the map gives no class is refused as an unknown encoding, whatever follows it. That an encoding without a
row is refused is the spec's decision (log 15). -/
def Obligations.FirstBytesOutsideTheMapAreRefused : Prop :=
  ∀ (b : Byte) (bs : List Byte),
    (b.toNat < 0x80 ∧ b ∉ [0x06#8, 0x0D#8, 0x12#8, 0x16#8, 0x1C#8, 0x1D#8, 0x1E#8])
      ∨ b ∈ [0xC6#8, 0xD6#8, 0xE6#8, 0xF6#8, 0xF7#8] ∨ 0xF8 ≤ b.toNat →
    decode (b :: bs) = .refuse .unknownEncoding

/-- Register codes that name no register, register codes that are no multiple of the size, step code 11, undefined second bytes
of the register modes, spare bits, and dividend codes that name no register are refused, each by its name: in a register prefix,
short or extended, and in the code bytes of the memory modes. These refusals are the spec's decisions (log 15), and so is which of
two that apply is named (log 30). -/
def Obligations.ReservedFieldsAreRefused : Prop :=
  (∀ (z : Size) (k : Byte) (bs : List Byte), 0x40 ≤ k.toNat → k.toNat < 0xD0 →
    decode ((0b11#2 ++ z.code ++ 0b0111#4) :: k :: bs) = .refuse .unassignedRegisterCode)
  ∧ (∀ (z : Size) (k : Byte) (bs : List Byte), k.toNat < 0x40 ∨ 0xD0 ≤ k.toNat → k.toNat % z.bytes ≠ 0 →
    decode ((0b11#2 ++ z.code ++ 0b0111#4) :: k :: bs) = .refuse .misalignedRegisterCode)
  ∧ (∀ (xx : BitVec 2) (k : Byte) (bs : List Byte), 0x40 ≤ k.toNat → k.toNat < 0xD0 →
    decode ((0b11#2 ++ xx ++ 0x4#4) :: k :: bs) = .refuse .unassignedRegisterCode
    ∧ decode ((0b11#2 ++ xx ++ 0x5#4) :: k :: bs) = .refuse .unassignedRegisterCode
    ∧ (k.toNat % 4 < 2 → decode ((0b11#2 ++ xx ++ 0x3#4) :: k :: bs) = .refuse .unassignedRegisterCode)
    ∧ decode ((0b11#2 ++ xx ++ 0x3#4) :: 0x03#8 :: k :: bs) = .refuse .unassignedRegisterCode
    ∧ decode ((0b11#2 ++ xx ++ 0x3#4) :: 0x07#8 :: k :: bs) = .refuse .unassignedRegisterCode
    ∧ ∀ r : LongReg, decode ((0b11#2 ++ xx ++ 0x3#4) :: 0x03#8 :: r.toByte :: k :: bs) = .refuse .unassignedRegisterCode
      ∧ decode ((0b11#2 ++ xx ++ 0x3#4) :: 0x07#8 :: r.toByte :: k :: bs) = .refuse .unassignedRegisterCode)
  ∧ (∀ (xx : BitVec 2) (k : Byte) (bs : List Byte), k.toNat < 0x40 ∨ 0xD0 ≤ k.toNat →
    (k.toNat % 4 ≠ 0 →
      decode ((0b11#2 ++ xx ++ 0x3#4) :: 0x03#8 :: k :: bs) = .refuse .misalignedRegisterCode
      ∧ decode ((0b11#2 ++ xx ++ 0x3#4) :: 0x07#8 :: k :: bs) = .refuse .misalignedRegisterCode)
    ∧ (k.toNat % 2 ≠ 0 → ∀ r : LongReg,
      decode ((0b11#2 ++ xx ++ 0x3#4) :: 0x07#8 :: r.toByte :: k :: bs) = .refuse .misalignedRegisterCode))
  ∧ (∀ (xx : BitVec 2) (k : Byte) (bs : List Byte), 2 ≤ k.toNat % 4 → k ≠ 0x03#8 → k ≠ 0x07#8 →
    decode ((0b11#2 ++ xx ++ 0x3#4) :: k :: bs) = .refuse .unknownEncoding)
  ∧ (∀ (xx : BitVec 2) (r : LongReg) (bs : List Byte),
    decode ((0b11#2 ++ xx ++ 0x4#4) :: (r.code6 ++ 0b11#2) :: bs) = .refuse .stepCode11
    ∧ decode ((0b11#2 ++ xx ++ 0x5#4) :: (r.code6 ++ 0b11#2) :: bs) = .refuse .stepCode11)
  ∧ (∀ (z : SizeBW) (r : RSel) (op b : Byte) (bs : List Byte), r.wf z.size = true → op ∈ [0x20#8, 0x32#8, 0x33#8] →
    16 ≤ b.toNat → decode (r.bytes z.size ++ op :: b :: bs) = .refuse .spareBitsSet)
  ∧ (∀ (b : Byte) (bs : List Byte), 8 ≤ b.toNat → decode (0x06#8 :: b :: bs) = .refuse .spareBitsSet)
  ∧ (∀ (R : BitVec 3) (hi : BitVec 5) (bs : List Byte), hi ∈ [0b01010#5, 0b01011#5] → R ∈ [0#3, 2#3, 4#3, 6#3] →
    (∀ r : RSel, decode (r.bytes .b ++ (hi ++ R) :: bs) = .refuse .oddDividendCode)
    ∧ ∀ m : Mem, m.wf = true → decode (m.bytes 0b00#2 ++ (hi ++ R) :: bs) = .refuse .oddDividendCode)
  ∧ (∀ (op : Byte) (bs : List Byte), op ∈ [0x0A#8, 0x0B#8] →
    (∀ c : BitVec 3, c ∈ [0#3, 2#3, 4#3, 6#3] → decode ((0b11001#5 ++ c) :: op :: bs) = .refuse .oddDividendCode)
    ∧ ∀ (z : SizeBW) (k : Byte), k.toNat < 0x40 ∨ 0xD0 ≤ k.toNat → k.toNat % (2 * z.size.bytes) ≠ 0 →
      decode ((0b11#2 ++ z.size.code ++ 0b0111#4) :: k :: op :: bs) = .refuse .misalignedRegisterCode)

/-- After a register prefix, short or extended, or a memory prefix, an operand size that the page of a form marks with X is refused. This
refusal is the spec's decision (log 15). -/
def Obligations.SizesMarkedXAreRefused : Prop :=
  (∀ (r : RSel) (R : BitVec 3) (op : Byte) (bs : List Byte), r.wf .l = true →
    op ∈ [0x06#8, 0x0A#8, 0x0B#8, 0x1C#8, 0x20#8, 0x28#8, 0x32#8, 0x33#8, 0b01010#5 ++ R, 0b01011#5 ++ R, 0b10111#5 ++ R,
      0b11011#5 ++ R] →
    decode (r.bytes .l ++ op :: bs) = .refuse .sizeNotListed)
  ∧ (∀ (z : Size) (r : RSel) (op : Byte) (bs : List Byte), r.wf z = true → z ≠ .w → op ∈ [0x0E#8, 0x0F#8] →
    decode (r.bytes z ++ op :: bs) = .refuse .sizeNotListed)
  ∧ (∀ (z : Size) (r : RSel) (bs : List Byte), r.wf z = true → z ≠ .b →
    decode (r.bytes z ++ 0x10#8 :: bs) = .refuse .sizeNotListed)
  ∧ (∀ (r : RSel) (op : Byte) (bs : List Byte), op ∈ [0x12#8, 0x13#8] →
    decode (r.bytes .b ++ op :: bs) = .refuse .sizeNotListed)
  ∧ (∀ (m : Mem) (R : BitVec 3) (op : Byte) (bs : List Byte), m.wf = true →
    op ∈ [0b00110#5 ++ R, 0x38#8, 0x39#8, 0x3C#8, 0x3F#8, 0b01010#5 ++ R, 0b01011#5 ++ R, 0b01101#5 ++ R] →
    decode (m.bytes 0b10#2 ++ op :: bs) = .refuse .sizeNotListed)
  ∧ (∀ (R : BitVec 3) (op : Byte) (bs : List Byte), op ∈ [0x14#8, 0x15#8, 0x16#8, 0x17#8] →
    decode ((0b10100#5 ++ R) :: op :: bs) = .refuse .sizeNotListed)

/-! ## The step -/

/-- When the bytes at pc decode to an instruction, the step is that instruction's execution. The execution itself moves pc. -/
def Obligations.StepRunsTheDecodedInstruction : Prop :=
  ∀ (s : State) (i : Instr) (rest : List Byte), s.atHalt = false → decode s.fetch = .ok i rest → step s = exec i s

/-- When the bytes from pc on are those of a well-formed instruction and all of them lie in TEXT, the step executes it. TEXT is
the spec's decision (log 13). -/
def Obligations.StepRunsTheInstructionInText : Prop :=
  ∀ (s : State) (i : Instr), i.wf = true → s.launch.haltPc ≠ some s.pc →
    (∀ (j : Nat) (b : Byte), (encode i)[j]? = some b →
      s.launch.isText (s.addr s.pc j) = true ∧ s.byteAt (s.addr s.pc j) = b) →
    step s = exec i s

/-- A run ends at HALT_PC, where no byte is fetched; elsewhere an instruction whose first byte lies outside TEXT is no step, and
neither is one that begins in TEXT and runs out of it at any later byte. How the end of a run is told is the model's choice (log 5).
TEXT is the spec's decision (log 13). -/
def Obligations.StepStopsAtTheEndAndOutsideText : Prop :=
  ∀ s : State, (s.launch.haltPc = some s.pc → step s = .fault .halted)
    ∧ (s.launch.haltPc ≠ some s.pc → s.launch.isText (s.addr s.pc 0) = false → step s = .fault .fetchOutsideText)
    ∧ ∀ (i : Instr) (j : Nat), i.wf = true → s.launch.haltPc ≠ some s.pc → j < (encode i).length →
      (∀ (k : Nat) (b : Byte), k < j → (encode i)[k]? = some b →
        s.launch.isText (s.addr s.pc k) = true ∧ s.byteAt (s.addr s.pc k) = b) →
      s.launch.isText (s.addr s.pc j) = false → step s = .fault .fetchOutsideText

/-- Loading a program at pc makes a well-formed launch, and in every well-formed launch the first step is no stop of the launch: pc
is not HALT_PC, its byte is fetched, and the step is what follows from decoding. That a launch stands outside the machine and what a
program expects are logs 2 and 36. -/
def Obligations.LaunchOfAProgramIsWellFormed : Prop :=
  (∀ (s : State) (bytes : List Byte), s.Inv → s.launch.textAdmitted → bytes ≠ [] →
    (s.loadProgram s.pc bytes).WellFormedLaunch [s.pc])
  ∧ ∀ (s : State) (expected : List Word32), s.WellFormedLaunch expected →
    s.launch.haltPc ≠ some s.pc ∧ s.fetch.head? = some (s.byteAt (s.addr s.pc 0)) ∧ step s = runDecoded (decode s.fetch) s

/-- The launch that `withFetchWord` stands for: the very next step reads the table word's bytes and runs them (logs 2 and 29). -/
def Obligations.PlacedWordIsTheNextInstruction : Prop :=
  ∀ (s : State) (nbits w : Nat), s.storeOk → nbits = 8 ∨ nbits = 16 →
    step (s.withFetchWord nbits w) = runDecoded (decode (tableWindow nbits w)) (s.withFetchWord nbits w)

/-! ## Invariants of every step -/

/-- Memory stays in canonical form inside the address space, RFP2 stays 0 and the parameters stay well formed. The canonical
form is the model's choice (log 3), the parameters are fields of State (log 4). -/
def Obligations.EveryStepKeepsTheInvariant : Prop :=
  ∀ s t : State, s.Inv → step s = .next t → t.Inv

/-- The invariant holds right after reset. But for RFP2 the reset values are the model's choice (logs 1 to 4). -/
def Obligations.ResetMeetsTheInvariant : Prop := State.reset.Inv

/-- No step changes a byte of TEXT. TEXT and the refusal of a store into it are the spec's decision (log 13). -/
def Obligations.EveryStepKeepsTheProgramText : Prop :=
  ∀ s t : State, step s = .next t → ∀ a : Nat, s.launch.isText a = true → t.byteAt a = s.byteAt a

/-- IFF changes only by EI and DI, RFP only by DECF, F' only by EX F,F'; the DMA registers, INTNEST and the parameters of the
run never change. The parameters are fields of State by the model's choice (log 4). -/
def Obligations.SystemFieldsChangeOnlyByTheirInstructions : Prop :=
  ∀ (i : Instr) (s t : State), exec i s = .next t →
    ((∀ n, i ≠ .ei n) → i ≠ .di → t.iffLevel = s.iffLevel) ∧ (i ≠ .decf → t.rfp = s.rfp) ∧ (i ≠ .exFF → t.fAlt = s.fAlt)
    ∧ ControlRegsKept s t ∧ t.launch = s.launch

/-- Only CALL, CALR and DJNZ write pc with a target; every other instruction ends with pc at the next instruction. That pc wraps
modulo 2^32 is the spec's decision (log 18). -/
def Obligations.OnlyCallsAndDjnzWritePcWithATarget : Prop :=
  ∀ (i : Instr) (s t : State), exec i s = .next t →
    (∀ a, i ≠ .call16 a) → (∀ a, i ≠ .call24 a) → (∀ c m, i ≠ .callM c m) → (∀ d, i ≠ .calr d) →
    (∀ z r d, i ≠ .djnz z r d) → MovedPast i s t

/-- The instructions whose row of the flag summary shows no change leave all of F alone: EXTZ, EXTS, CHG, EX R,r, EX (mem),r,
EI, DI, DECF, CALL, CALR, DJNZ, and DEC #3,r at Word and Long word. For DEC the page's note wins over its flags block (log 34).
-/
def Obligations.InstructionsWithoutFlagEffectKeepF : Prop :=
  ∀ (i : Instr) (s t : State), exec i s = .next t →
    (match i with
      | .extz _ _ | .exts _ _ | .chgNR _ _ _ | .chgNM _ _ | .exRR _ _ _ | .exMR _ _ _ | .ei _ | .di | .decf | .call16 _
      | .call24 _ | .callM _ _ | .calr _ | .djnz _ _ _ | .decNR .w _ _ | .decNR .l _ _ => True
      | _ => False) →
    t.f = s.f

/-! ## Registers, conditions, addresses, memory -/

/-- The 8-bit codes of the register map: 16b + 4q + o for byte o of register q of bank b, D0H, E0H and F0H + 4q + o for the
previous bank, the current bank and the unbanked registers. The 3-bit codes name the registers of their table, written by their
8-bit codes, and the rows of the map name the storage the map gives them. That the previous bank is one below the current one is the
spec's own decision (log 9). -/
def Obligations.RegisterCodesNameTheirRegisters : Prop :=
  (∀ c : BitVec 3,
    some (shortCode .b c).toByte = [0xE1#8, 0xE0#8, 0xE5#8, 0xE4#8, 0xE9#8, 0xE8#8, 0xED#8, 0xEC#8][c.toNat]?
    ∧ some (shortCode .w c).toByte = [0xE0#8, 0xE4#8, 0xE8#8, 0xEC#8, 0xF0#8, 0xF4#8, 0xF8#8, 0xFC#8][c.toNat]?
    ∧ shortCode .l c = shortCode .w c)
  ∧ (∀ b q o : BitVec 2,
    (RegCode.toByte ⟨.bank b q, o⟩).toNat = 16 * b.toNat + 4 * q.toNat + o.toNat
    ∧ (RegCode.toByte ⟨.prev q, o⟩).toNat = 0xD0 + 4 * q.toNat + o.toNat
    ∧ (RegCode.toByte ⟨.cur q, o⟩).toNat = 0xE0 + 4 * q.toNat + o.toNat
    ∧ (RegCode.toByte ⟨.idx q, o⟩).toNat = 0xF0 + 4 * q.toNat + o.toNat)
  ∧ ∀ (s : State) (b q : BitVec 2),
    (s.slot (.bank b q)).val = 4 * b.toNat + q.toNat ∧ (s.slot (.cur q)).val = 4 * (s.rfp.toNat % 4) + q.toNat
    ∧ (s.slot (.prev q)).val = 4 * ((s.rfp.toNat + 3) % 4) + q.toNat ∧ (s.slot (.idx q)).val = 16 + q.toNat

/-- A register is the bytes of its row from its offset on, it reads back what is written to it, and a write to a byte or word
register changes only those bits. Which byte offset is which bits is the spec's decision (log 8). -/
def Obligations.RegisterWriteChangesOnlyItsBytes : Prop :=
  ∀ (s : State) (z : Size) (k : RegCode) (v : BitVec z.bits), k.aligned z = true →
    (∀ j, j < z.bytes →
      (s.readReg z.bits k).extractLsb' (8 * j) 8 = (s.long k.row).extractLsb' (8 * (k.off.toNat + j)) 8)
    ∧ (s.writeReg k v).readReg z.bits k = v ∧ RegsKeptBut (s.inReg z.bits k) s (s.writeReg k v)
    ∧ RegsKept s (s.writeReg k (s.readReg z.bits k))

/-- The condition codes mean what the table says, and code c + 8 is the negation of code c. They stand in the op byte of CALL
[cc,]mem and are read on the flags before the instruction: a false condition only moves pc on. -/
def Obligations.ConditionCodesMeanTheirTable : Prop :=
  ∀ (f : Flags),
    (f.holds (condOfCode 0x0#4) = false) ∧ (f.holds (condOfCode 0x8#4) = true)
    ∧ (f.holds (condOfCode 0x6#4) = true ↔ f.z = true) ∧ (f.holds (condOfCode 0xE#4) = true ↔ f.z = false)
    ∧ (f.holds (condOfCode 0x7#4) = true ↔ f.c = true) ∧ (f.holds (condOfCode 0xF#4) = true ↔ f.c = false)
    ∧ (f.holds (condOfCode 0xD#4) = true ↔ f.s = false) ∧ (f.holds (condOfCode 0x5#4) = true ↔ f.s = true)
    ∧ (f.holds (condOfCode 0x4#4) = true ↔ f.v = true) ∧ (f.holds (condOfCode 0xC#4) = true ↔ f.v = false)
    ∧ (f.holds (condOfCode 0x9#4) = true ↔ f.s = f.v) ∧ (f.holds (condOfCode 0x1#4) = true ↔ f.s ≠ f.v)
    ∧ (f.holds (condOfCode 0xA#4) = true ↔ f.z = false ∧ f.s = f.v)
    ∧ (f.holds (condOfCode 0x2#4) = true ↔ f.z = true ∨ f.s ≠ f.v)
    ∧ (f.holds (condOfCode 0xB#4) = true ↔ f.c = false ∧ f.z = false)
    ∧ (f.holds (condOfCode 0x3#4) = true ↔ f.c = true ∨ f.z = true)
    ∧ (∀ c : BitVec 4, f.holds (condOfCode (c + 8#4)) = !f.holds (condOfCode c))
    ∧ (∀ (c : BitVec 4) (R : BitVec 3),
      decode [0b10110#5 ++ R, 0xE#4 ++ c] = .ok (.callM (condOfCode c) (.ind R)) [])
    ∧ ∀ (c : BitVec 4) (m : Mem) (s : State), callMode m = true → s.f.holds (condOfCode c) = false →
      exec (.callM (condOfCode c) m) s = .next (s.advance (m.len + 1))

/-- The effective address of each mode, as an exact sum modulo 2^32: absolute addresses unsigned, displacements and index
registers signed; (-r32) and (r32+) move by 1, 2 or 4, which the codes 00, 01 and 10 name. Wrapping and zero-extension are the
spec's decisions (log 18), the steps 2 and 4 general knowledge (log 10). -/
def Obligations.EffectiveAddressesAreExactSums : Prop :=
  ∀ (s : State) (R : BitVec 3) (r : LongReg) (k : RegCode) (st : StepCode) (a8 : BitVec 8) (a16 : BitVec 16) (a24 : BitVec 24),
    Mem.ea s (.ind R) = s.long (pointerReg R)
    ∧ ((Mem.ea s (.indD8 R a8)).toNat : Int) = ((s.long (pointerReg R)).toNat + a8.toInt) % 2 ^ 32
    ∧ (Mem.ea s (.abs8 a8)).toNat = a8.toNat ∧ (Mem.ea s (.abs16 a16)).toNat = a16.toNat
    ∧ (Mem.ea s (.abs24 a24)).toNat = a24.toNat ∧ Mem.ea s (.reg r) = s.long r
    ∧ ((Mem.ea s (.regD16 r a16)).toNat : Int) = ((s.long r).toNat + a16.toInt) % 2 ^ 32
    ∧ ((Mem.ea s (.regR8 r k)).toNat : Int) = ((s.long r).toNat + (s.readReg 8 k).toInt) % 2 ^ 32
    ∧ ((Mem.ea s (.regR16 r k)).toNat : Int) = ((s.long r).toNat + (s.readReg 16 k).toInt) % 2 ^ 32
    ∧ ((Mem.ea s (.preDec r st)).toNat : Int) = ((s.long r).toNat - st.amount) % 2 ^ 32
    ∧ Mem.ea s (.postInc r st) = s.long r
    ∧ (StepCode.by1.amount = 1 ∧ StepCode.by2.amount = 2 ∧ StepCode.by4.amount = 4)
    ∧ ∀ (xx : BitVec 2) (p : StepCode × BitVec 2), p ∈ [(.by1, 0b00#2), (.by2, 0b01#2), (.by4, 0b10#2)] →
      Mem.bytes xx (.preDec r p.1) = [0b11#2 ++ xx ++ 0x4#4, r.code6 ++ p.2]
      ∧ Mem.bytes xx (.postInc r p.1) = [0b11#2 ++ xx ++ 0x5#4, r.code6 ++ p.2]

/-- A value of any size written to admitted addresses outside TEXT, at any alignment and across the top of the address space,
reads back, and no other byte of memory changes. The byte order, the missing alignment rule and the wrap at the top are the
spec's decisions (logs 7 and 18). -/
def Obligations.MemoryReadsBackWhatWasWritten : Prop :=
  ∀ (s : State) (z : Size) (a : Word32) (v : BitVec z.bits), s.storeOk → s.writable a z.bytes →
    ∃ t, s.memWrite a v = .next t ∧ t.memRead z.bits a = .next v ∧ Stored a v s t ∧ MemKeptBut a z.bytes s t

/-- An access that touches an address the launch did not admit is stuck; a store that touches TEXT is refused. Both stops are
the spec's decisions (logs 13 and 14); that a store that touches both is reported as the first is the model's choice (log 30). -/
def Obligations.MemoryAccessStopsWhereTheLaunchSaysSo : Prop :=
  ∀ (s : State) (z : Size) (a : Word32) (v : BitVec z.bits),
    ((∃ i, i < z.bytes ∧ s.launch.admits (s.addr a i) = false) →
      s.memRead z.bits a = .fault .outsideLaunchMemory ∧ s.memWrite a v = .fault .outsideLaunchMemory)
    ∧ ((∀ i, i < z.bytes → s.launch.admits (s.addr a i) = true) → (∃ i, i < z.bytes ∧ s.launch.isText (s.addr a i) = true) →
      s.memWrite a v = .refused .storeIntoText)

/-! ## ADD, ADC, AND, CP -/

/-- ADD with a register as destination: addRR, addRI, addRM. H at Word is the spec's decision (log 19). -/
def Obligations.AddToARegister : Prop :=
  (∀ (z : Size) (R : BitVec 3) (r : RSel) (s : State),
    let a := s.readReg z.bits (shortCode z R)
    let b := s.readReg z.bits (selCode z r)
    ∃ t, exec (.addRR z R r) s = .next t ∧ WroteReg (.addRR z R r) (shortCode z R) (a + b) s t
      ∧ AddFlagsSay z a b (a + b) false s.f t.f)
  ∧ (∀ (z : Size) (r : RSel) (imm : Word32) (s : State), r.wf z = true →
    let a := s.readReg z.bits (selCode z r)
    let b := imm.setWidth z.bits
    ∃ t, exec (.addRI z r imm) s = .next t ∧ WroteReg (.addRI z r imm) (selCode z r) (a + b) s t
      ∧ AddFlagsSay z a b (a + b) false s.f t.f)
  ∧ (∀ (z : Size) (R : BitVec 3) (m : Mem) (s : State) (b : BitVec z.bits), NoClash s m [shortCode z R] →
    s.memRead z.bits (Mem.ea s m) = .next b →
    let a := s.readReg z.bits (shortCode z R)
    ∃ t, exec (.addRM z R m) s = .next t ∧ WroteRegVia m (.addRM z R m) (shortCode z R) (a + b) s t
      ∧ AddFlagsSay z a b (a + b) false s.f t.f)

/-- ADD with a destination in memory: addMR, addMI. H at Word and the byte order are the spec's decisions (logs 19 and 7). -/
def Obligations.AddToMemory : Prop :=
  (∀ (z : Size) (m : Mem) (R : BitVec 3) (s : State) (a : BitVec z.bits), s.storeOk → NoClash s m [shortCode z R] →
    s.memRead z.bits (Mem.ea s m) = .next a → s.writable (Mem.ea s m) z.bytes →
    let b := s.readReg z.bits (shortCode z R)
    ∃ t, exec (.addMR z m R) s = .next t ∧ WroteMem m (.addMR z m R) (a + b) s t
      ∧ AddFlagsSay z a b (a + b) false s.f t.f)
  ∧ (∀ (z : SizeBW) (m : Mem) (imm : Word32) (s : State) (a : BitVec z.bits), s.storeOk →
    s.memRead z.bits (Mem.ea s m) = .next a → s.writable (Mem.ea s m) z.size.bytes →
    let b := imm.setWidth z.bits
    ∃ t, exec (.addMI z m imm) s = .next t ∧ WroteMem m (.addMI z m imm) (a + b) s t
      ∧ AddFlagsSay z.size a b (a + b) false s.f t.f)

/-- The carry flag as an `n`-bit number. -/
def carryIn (n : Nat) (s : State) : BitVec n := BitVec.ofNat n s.f.c.toNat

/-- ADC with a register as destination: adcRR, adcRI, adcRM. The carry is the flag before the instruction. H at Word is the
spec's decision (log 19). -/
def Obligations.AdcToARegister : Prop :=
  (∀ (z : Size) (R : BitVec 3) (r : RSel) (s : State),
    let a := s.readReg z.bits (shortCode z R)
    let b := s.readReg z.bits (selCode z r)
    ∃ t, exec (.adcRR z R r) s = .next t ∧ WroteReg (.adcRR z R r) (shortCode z R) (a + b + carryIn z.bits s) s t
      ∧ AddFlagsSay z a b (a + b + carryIn z.bits s) s.f.c s.f t.f)
  ∧ (∀ (z : Size) (r : RSel) (imm : Word32) (s : State), r.wf z = true →
    let a := s.readReg z.bits (selCode z r)
    let b := imm.setWidth z.bits
    ∃ t, exec (.adcRI z r imm) s = .next t ∧ WroteReg (.adcRI z r imm) (selCode z r) (a + b + carryIn z.bits s) s t
      ∧ AddFlagsSay z a b (a + b + carryIn z.bits s) s.f.c s.f t.f)
  ∧ (∀ (z : Size) (R : BitVec 3) (m : Mem) (s : State) (b : BitVec z.bits), NoClash s m [shortCode z R] →
    s.memRead z.bits (Mem.ea s m) = .next b →
    let a := s.readReg z.bits (shortCode z R)
    ∃ t, exec (.adcRM z R m) s = .next t
      ∧ WroteRegVia m (.adcRM z R m) (shortCode z R) (a + b + carryIn z.bits s) s t
      ∧ AddFlagsSay z a b (a + b + carryIn z.bits s) s.f.c s.f t.f)

/-- ADC with a destination in memory: adcMR, adcMI. H at Word and the byte order are the spec's decisions (logs 19 and 7). -/
def Obligations.AdcToMemory : Prop :=
  (∀ (z : Size) (m : Mem) (R : BitVec 3) (s : State) (a : BitVec z.bits), s.storeOk → NoClash s m [shortCode z R] →
    s.memRead z.bits (Mem.ea s m) = .next a → s.writable (Mem.ea s m) z.bytes →
    let b := s.readReg z.bits (shortCode z R)
    ∃ t, exec (.adcMR z m R) s = .next t ∧ WroteMem m (.adcMR z m R) (a + b + carryIn z.bits s) s t
      ∧ AddFlagsSay z a b (a + b + carryIn z.bits s) s.f.c s.f t.f)
  ∧ (∀ (z : SizeBW) (m : Mem) (imm : Word32) (s : State) (a : BitVec z.bits), s.storeOk →
    s.memRead z.bits (Mem.ea s m) = .next a → s.writable (Mem.ea s m) z.size.bytes →
    let b := imm.setWidth z.bits
    ∃ t, exec (.adcMI z m imm) s = .next t ∧ WroteMem m (.adcMI z m imm) (a + b + carryIn z.bits s) s t
      ∧ AddFlagsSay z.size a b (a + b + carryIn z.bits s) s.f.c s.f t.f)

/-- AND with a register as destination: andRR, andRI, andRM. Parity over 16 bits at Word is the spec's decision (log 19). -/
def Obligations.AndToARegister : Prop :=
  (∀ (z : Size) (R : BitVec 3) (r : RSel) (s : State),
    let v := s.readReg z.bits (shortCode z R) &&& s.readReg z.bits (selCode z r)
    ∃ t, exec (.andRR z R r) s = .next t ∧ WroteReg (.andRR z R r) (shortCode z R) v s t ∧ AndFlagsSay z v s.f t.f)
  ∧ (∀ (z : Size) (r : RSel) (imm : Word32) (s : State), r.wf z = true →
    let v := s.readReg z.bits (selCode z r) &&& imm.setWidth z.bits
    ∃ t, exec (.andRI z r imm) s = .next t ∧ WroteReg (.andRI z r imm) (selCode z r) v s t ∧ AndFlagsSay z v s.f t.f)
  ∧ (∀ (z : Size) (R : BitVec 3) (m : Mem) (s : State) (b : BitVec z.bits), NoClash s m [shortCode z R] →
    s.memRead z.bits (Mem.ea s m) = .next b →
    let v := s.readReg z.bits (shortCode z R) &&& b
    ∃ t, exec (.andRM z R m) s = .next t ∧ WroteRegVia m (.andRM z R m) (shortCode z R) v s t ∧ AndFlagsSay z v s.f t.f)

/-- AND with a destination in memory: andMR, andMI. Parity over 16 bits at Word and the byte order are the spec's decisions
(logs 19 and 7). -/
def Obligations.AndToMemory : Prop :=
  (∀ (z : Size) (m : Mem) (R : BitVec 3) (s : State) (a : BitVec z.bits), s.storeOk → NoClash s m [shortCode z R] →
    s.memRead z.bits (Mem.ea s m) = .next a → s.writable (Mem.ea s m) z.bytes →
    let v := a &&& s.readReg z.bits (shortCode z R)
    ∃ t, exec (.andMR z m R) s = .next t ∧ WroteMem m (.andMR z m R) v s t ∧ AndFlagsSay z v s.f t.f)
  ∧ (∀ (z : SizeBW) (m : Mem) (imm : Word32) (s : State) (a : BitVec z.bits), s.storeOk →
    s.memRead z.bits (Mem.ea s m) = .next a → s.writable (Mem.ea s m) z.size.bytes →
    let v := a &&& imm.setWidth z.bits
    ∃ t, exec (.andMI z m imm) s = .next t ∧ WroteMem m (.andMI z m imm) v s t ∧ AndFlagsSay z.size v s.f t.f)

/-- CP of registers and numbers writes nothing but F: cpRR, cpRI, cpRN. C is the borrow. H at Word is the spec's decision (log
19). -/
def Obligations.CompareRegistersWritesOnlyFlags : Prop :=
  (∀ (z : Size) (R : BitVec 3) (r : RSel) (s : State),
    let a := s.readReg z.bits (shortCode z R)
    let b := s.readReg z.bits (selCode z r)
    ∃ t, exec (.cpRR z R r) s = .next t ∧ WroteNothing (.cpRR z R r) s t ∧ SubFlagsSay z a b s.f t.f
      ∧ (t.f.c = true ↔ a.toNat < b.toNat))
  ∧ (∀ (z : Size) (r : RSel) (imm : Word32) (s : State),
    let a := s.readReg z.bits (selCode z r)
    let b := imm.setWidth z.bits
    ∃ t, exec (.cpRI z r imm) s = .next t ∧ WroteNothing (.cpRI z r imm) s t ∧ SubFlagsSay z a b s.f t.f
      ∧ (t.f.c = true ↔ a.toNat < b.toNat))
  ∧ (∀ (z : SizeBW) (r : RSel) (n : BitVec 3) (s : State),
    let a := s.readReg z.bits (selCode z.size r)
    ∃ t, exec (.cpRN z r n) s = .next t ∧ WroteNothing (.cpRN z r n) s t ∧ SubFlagsSay z.size a (n.setWidth z.bits) s.f t.f
      ∧ (t.f.c = true ↔ a.toNat < n.toNat))

/-- CP with a memory operand reads memory and writes nothing but F and the auto-modified register: cpRM, cpMR, cpMI. H at Word
and the byte order are the spec's decisions (logs 19 and 7). -/
def Obligations.CompareMemoryWritesOnlyFlags : Prop :=
  (∀ (z : Size) (R : BitVec 3) (m : Mem) (s : State) (b : BitVec z.bits), NoClash s m [shortCode z R] →
    s.memRead z.bits (Mem.ea s m) = .next b →
    let a := s.readReg z.bits (shortCode z R)
    ∃ t, exec (.cpRM z R m) s = .next t ∧ WroteNothingVia m (.cpRM z R m) s t ∧ SubFlagsSay z a b s.f t.f
      ∧ (t.f.c = true ↔ a.toNat < b.toNat))
  ∧ (∀ (z : Size) (m : Mem) (R : BitVec 3) (s : State) (a : BitVec z.bits), NoClash s m [shortCode z R] →
    s.memRead z.bits (Mem.ea s m) = .next a →
    let b := s.readReg z.bits (shortCode z R)
    ∃ t, exec (.cpMR z m R) s = .next t ∧ WroteNothingVia m (.cpMR z m R) s t ∧ SubFlagsSay z a b s.f t.f
      ∧ (t.f.c = true ↔ a.toNat < b.toNat))
  ∧ (∀ (z : SizeBW) (m : Mem) (imm : Word32) (s : State) (a : BitVec z.bits),
    s.memRead z.bits (Mem.ea s m) = .next a →
    let b := imm.setWidth z.bits
    ∃ t, exec (.cpMI z m imm) s = .next t ∧ WroteNothingVia m (.cpMI z m imm) s t ∧ SubFlagsSay z.size a b s.f t.f
      ∧ (t.f.c = true ↔ a.toNat < b.toNat))

/-! ## DEC, EXTZ, EXTS, DAA -/

/-- The number of DEC: 1 to 7, and 8 for the code 000. -/
def decNumber (w : Nat) (n : BitVec 3) : BitVec w := if n = 0#3 then BitVec.ofNat w 8 else n.setWidth w

/-- DEC #3,r: the register is decremented; at Byte S, Z, H, V and N are set and C is kept, at Word and Long word no flag changes. -/
def Obligations.DecrementRegister : Prop :=
  ∀ (z : Size) (n : BitVec 3) (r : RSel) (s : State), r.wf z = true →
    let a := s.readReg z.bits (selCode z r)
    encode (.decNR z n r) = r.bytes z ++ [0b01101#5 ++ n]
    ∧ ∃ t, exec (.decNR z n r) s = .next t ∧ WroteReg (.decNR z n r) (selCode z r) (a - decNumber z.bits n) s t
      ∧ (z = .b → SubFlagsSay z a (decNumber z.bits n) s.f t.f ∧ t.f.c = s.f.c) ∧ (z ≠ .b → t.f = s.f)

/-- DEC<W> #3,(mem): the memory operand is decremented and S, Z, H, V and N are set at both sizes; C is kept. H at Word, the
byte order and the flags at Word are the spec's decisions (logs 19, 7 and 34). -/
def Obligations.DecrementMemory : Prop :=
  ∀ (z : SizeBW) (n : BitVec 3) (m : Mem) (s : State) (a : BitVec z.bits), s.storeOk →
    s.memRead z.bits (Mem.ea s m) = .next a → s.writable (Mem.ea s m) z.size.bytes →
    ∃ t, exec (.decNM z n m) s = .next t ∧ WroteMem m (.decNM z n m) (a - decNumber z.bits n) s t
      ∧ SubFlagsSay z.size a (decNumber z.bits n) s.f t.f ∧ t.f.c = s.f.c

/-- EXTZ clears the upper half of a register and EXTS fills it with the sign bit of the lower half; no flag changes. At Byte both
are refused, which is the spec's decision (log 15). -/
def Obligations.ExtendFillsTheUpperHalf : Prop :=
  ∀ (z : SizeWL) (r : RSel) (s : State), r.wf z.size = true →
    let lower := (s.readReg z.bits (selCode z.size r)).setWidth (z.bits / 2)
    encode (.extz z r) = r.bytes z.size ++ [0x12#8] ∧ encode (.exts z r) = r.bytes z.size ++ [0x13#8]
    ∧ (∀ r' : RSel, decode (r'.bytes .b ++ [0x12#8]) = .refuse .sizeNotListed
      ∧ decode (r'.bytes .b ++ [0x13#8]) = .refuse .sizeNotListed)
    ∧ (∃ t, exec (.extz z r) s = .next t ∧ t.f = s.f
      ∧ WroteReg (.extz z r) (selCode z.size r) (BitVec.ofNat z.bits lower.toNat) s t)
    ∧ (∃ t, exec (.exts z r) s = .next t ∧ t.f = s.f
      ∧ WroteReg (.exts z r) (selCode z.size r) (BitVec.ofInt z.bits lower.toInt) s t)

/-- The rows of DAA's table are disjoint. -/
def Obligations.DaaRowsAreDisjoint : Prop :=
  ∀ (f : Flags) (d : Byte) (row row' : DaaRow), row ∈ daaTable → row' ∈ daaTable → row.matches f d = true →
    row'.matches f d = true → row = row'

/-- DAA by a row of its table adds the row's value and sets the flags; off the table it runs all the same, the register and S,
Z, H, V, C being free and N kept. H is free where N = 1. The free values and C from the table are the spec's decisions (log 20).
-/
def Obligations.DecimalAdjust : Prop :=
  (∀ (r : RSel) (s : State) (row : DaaRow), row ∈ daaTable → row.matches s.f (s.readReg 8 (selCode .b r)) = true →
    let d := s.readReg 8 (selCode .b r)
    ∃ t, exec (.daa r) s = .next t ∧ WroteReg (.daa r) (selCode .b r) (d + row.added) s t
      ∧ t.f.s = (d + row.added).msb ∧ (t.f.z = true ↔ d + row.added = 0#8)
      ∧ (s.f.n = false → (t.f.h = true ↔ 16 ≤ d.toNat % 16 + row.added.toNat % 16))
      ∧ (t.f.v = true ↔ onesCount (d + row.added) % 2 = 0) ∧ t.f.n = s.f.n ∧ t.f.c = row.cAfter ∧ t.f.rest = s.f.rest)
  ∧ (∀ (r : RSel) (s : State), (∀ row ∈ daaTable, row.matches s.f (s.readReg 8 (selCode .b r)) = false) →
    ∃ t, exec (.daa r) s = .next t ∧ t.f.n = s.f.n ∧ t.f.rest = s.f.rest
      ∧ RegsKeptBut (s.inReg 8 (selCode .b r)) s t ∧ MemKept s t ∧ SystemKept s t ∧ MovedPast (.daa r) s t)

/-- The two-digit BCD byte of a number below 100. -/
def bcd (x : Nat) : Byte := BitVec.ofNat 8 (16 * (x / 10) + x % 10)

/-- ADD or ADC of two BCD bytes and then DAA gives the BCD byte of their sum, and C tells that the sum reached 100. C is the
table's (log 20). -/
def Obligations.AddThenDaaAddsInDecimal : Prop :=
  ∀ (r : RSel) (s : State) (x y : Nat), x < 100 → y < 100 → s.readReg 8 (selCode .b r) = bcd x →
    (∃ t u, exec (.addRI .b r ((bcd y).setWidth 32)) s = .next t ∧ exec (.daa r) t = .next u
      ∧ u.readReg 8 (selCode .b r) = bcd ((x + y) % 100) ∧ (u.f.c = true ↔ 100 ≤ x + y))
    ∧ ∃ t u, exec (.adcRI .b r ((bcd y).setWidth 32)) s = .next t ∧ exec (.daa r) t = .next u
      ∧ u.readReg 8 (selCode .b r) = bcd ((x + y + s.f.c.toNat) % 100) ∧ (u.f.c = true ↔ 100 ≤ x + y + s.f.c.toNat)

/-- DAA of a BCD difference: where the register holds the byte `bcd x - bcd y - b` and N, C and H are those of that subtraction with
borrow `b` (N = 1, C the borrow, H the borrow of the lower digit), DAA gives the BCD byte of `x - y - b` modulo 100 and keeps C and
N. C is the table's (log 20). -/
def Obligations.DaaAdjustsADecimalDifference : Prop :=
  ∀ (r : RSel) (s : State) (x y : Nat) (b : Bool), x < 100 → y < 100 →
    s.readReg 8 (selCode .b r) = bcd x - bcd y - BitVec.ofNat 8 b.toNat →
    s.f.n = true → (s.f.c = true ↔ x < y + b.toNat) → (s.f.h = true ↔ x % 10 < y % 10 + b.toNat) →
    ∃ t, exec (.daa r) s = .next t ∧ WroteReg (.daa r) (selCode .b r) (bcd ((x + 100 - y - b.toNat) % 100)) s t
      ∧ t.f.c = s.f.c ∧ t.f.n = true

/-! ## DIV, DIVS -/

/-- The division of `D` by `d` has a quotient that fits the lower half (R145). -/
def UnsignedFits {n : Nat} (D : BitVec (n + n)) (d : BitVec n) : Prop := d.toNat ≠ 0 ∧ D.toNat / d.toNat < 2 ^ n

/-- The register `k` holds remainder and quotient of `D` by `d`, V is 0 and no other flag has changed (R145). -/
def DividedUnsigned {n : Nat} (k : RegCode) (D : BitVec (n + n)) (d : BitVec n) (s t : State) : Prop :=
  (t.readReg (n + n) k).toNat = (D.toNat % d.toNat) * 2 ^ n + D.toNat / d.toNat ∧ t.f = { s.f with v := false }

/-- The signed quotient, truncated toward zero, is an `n`-bit signed number (R146, D28). -/
def SignedFits {n : Nat} (D : BitVec (n + n)) (d : BitVec n) : Prop :=
  d.toInt ≠ 0 ∧ -(2 : Int) ^ (n - 1) ≤ D.toInt.tdiv d.toInt ∧ D.toInt.tdiv d.toInt ≤ (2 : Int) ^ (n - 1) - 1

/-- The lower half of the register `k` holds the signed quotient of `D` by `d`, its upper half the remainder, which has the sign of
`D`; V is 0 and no other flag has changed (R146). -/
def DividedSigned {n : Nat} (k : RegCode) (D : BitVec (n + n)) (d : BitVec n) (s t : State) : Prop :=
  ((t.readReg (n + n) k).extractLsb' 0 n).toInt = D.toInt.tdiv d.toInt
    ∧ ((t.readReg (n + n) k).extractLsb' n n).toInt = D.toInt.tmod d.toInt ∧ t.f = { s.f with v := false }

/-- A divide has changed no register but the dividend `k`, no memory and no system field. -/
def DivideKept (n : Nat) (i : Instr) (k : RegCode) (s t : State) : Prop :=
  RegsKeptBut (s.inReg (n + n) k) s t ∧ MemKept s t ∧ SystemKept s t ∧ MovedPast i s t

/-- The same for a divide that uses the memory mode `m`. -/
def DivideKeptVia (m : Mem) (n : Nat) (i : Instr) (k : RegCode) (s t : State) : Prop :=
  AutoMoved m s t ∧ RegsKeptBut (fun x j => s.inReg (n + n) k x j ∨ s.inAuto m x j) s t ∧ MemKept s t ∧ SystemKept s t
    ∧ MovedPast i s t

/-- DIV with a quotient that fits: divRR, divRI, divRM. The byte order in memory is the spec's decision (log 7). -/
def Obligations.UnsignedDivide : Prop :=
  (∀ (z : SizeBW) (R : BitVec 3) (r : RSel) (s : State), dividendCodeOk z R = true →
    let k := shortCode z.size R
    let D := s.readReg (z.bits + z.bits) k
    let d := s.readReg z.bits (selCode z.size r)
    UnsignedFits D d →
    ∃ t, exec (.divRR z R r) s = .next t ∧ DividedUnsigned k D d s t ∧ DivideKept z.bits (.divRR z R r) k s t)
  ∧ (∀ (z : SizeBW) (r : RSel) (imm : Word32) (s : State), r.dividendOk z = true →
    let k := selCode z.size r
    let D := s.readReg (z.bits + z.bits) k
    let d := imm.setWidth z.bits
    UnsignedFits D d →
    ∃ t, exec (.divRI z r imm) s = .next t ∧ DividedUnsigned k D d s t ∧ DivideKept z.bits (.divRI z r imm) k s t)
  ∧ (∀ (z : SizeBW) (R : BitVec 3) (m : Mem) (s : State) (d : BitVec z.bits), dividendCodeOk z R = true →
    let k := shortCode z.size R
    let D := s.readReg (z.bits + z.bits) k
    NoClash s m [k] → s.memRead z.bits (Mem.ea s m) = .next d → UnsignedFits D d →
    ∃ t, exec (.divRM z R m) s = .next t ∧ DividedUnsigned k D d s t ∧ DivideKeptVia m z.bits (.divRM z R m) k s t)

/-- DIVS with a quotient that fits: divsRR, divsRI, divsRM. The range of the quotient is the spec's decision (log 21). -/
def Obligations.SignedDivide : Prop :=
  (∀ (z : SizeBW) (R : BitVec 3) (r : RSel) (s : State), dividendCodeOk z R = true →
    let k := shortCode z.size R
    let D := s.readReg (z.bits + z.bits) k
    let d := s.readReg z.bits (selCode z.size r)
    SignedFits D d →
    ∃ t, exec (.divsRR z R r) s = .next t ∧ DividedSigned k D d s t ∧ DivideKept z.bits (.divsRR z R r) k s t)
  ∧ (∀ (z : SizeBW) (r : RSel) (imm : Word32) (s : State), r.dividendOk z = true →
    let k := selCode z.size r
    let D := s.readReg (z.bits + z.bits) k
    let d := imm.setWidth z.bits
    SignedFits D d →
    ∃ t, exec (.divsRI z r imm) s = .next t ∧ DividedSigned k D d s t ∧ DivideKept z.bits (.divsRI z r imm) k s t)
  ∧ (∀ (z : SizeBW) (R : BitVec 3) (m : Mem) (s : State) (d : BitVec z.bits), dividendCodeOk z R = true →
    let k := shortCode z.size R
    let D := s.readReg (z.bits + z.bits) k
    NoClash s m [k] → s.memRead z.bits (Mem.ea s m) = .next d → SignedFits D d →
    ∃ t, exec (.divsRM z R m) s = .next t ∧ DividedSigned k D d s t ∧ DivideKeptVia m z.bits (.divsRM z R m) k s t)

/-- A division by zero or with a quotient that does not fit does not trap: V becomes 1, the other flags keep their values, the
dividend register is free, and the instruction goes on. All six forms. The free dividend register and the range of the signed
quotient are the spec's decisions (log 21). -/
def Obligations.DivisionErrorsSetVAndGoOn : Prop :=
  (∀ (z : SizeBW) (R : BitVec 3) (r : RSel) (s : State), dividendCodeOk z R = true →
    let k := shortCode z.size R
    let D := s.readReg (z.bits + z.bits) k
    let d := s.readReg z.bits (selCode z.size r)
    (¬ UnsignedFits D d → ∃ t, exec (.divRR z R r) s = .next t ∧ t.f = { s.f with v := true }
      ∧ DivideKept z.bits (.divRR z R r) k s t)
    ∧ (¬ SignedFits D d → ∃ t, exec (.divsRR z R r) s = .next t ∧ t.f = { s.f with v := true }
      ∧ DivideKept z.bits (.divsRR z R r) k s t))
  ∧ (∀ (z : SizeBW) (r : RSel) (imm : Word32) (s : State), r.dividendOk z = true →
    let k := selCode z.size r
    let D := s.readReg (z.bits + z.bits) k
    let d := imm.setWidth z.bits
    (¬ UnsignedFits D d → ∃ t, exec (.divRI z r imm) s = .next t ∧ t.f = { s.f with v := true }
      ∧ DivideKept z.bits (.divRI z r imm) k s t)
    ∧ (¬ SignedFits D d → ∃ t, exec (.divsRI z r imm) s = .next t ∧ t.f = { s.f with v := true }
      ∧ DivideKept z.bits (.divsRI z r imm) k s t))
  ∧ (∀ (z : SizeBW) (R : BitVec 3) (m : Mem) (s : State) (d : BitVec z.bits), dividendCodeOk z R = true →
    let k := shortCode z.size R
    let D := s.readReg (z.bits + z.bits) k
    NoClash s m [k] → s.memRead z.bits (Mem.ea s m) = .next d →
    (¬ UnsignedFits D d → ∃ t, exec (.divRM z R m) s = .next t ∧ t.f = { s.f with v := true }
      ∧ DivideKeptVia m z.bits (.divRM z R m) k s t)
    ∧ (¬ SignedFits D d → ∃ t, exec (.divsRM z R m) s = .next t ∧ t.f = { s.f with v := true }
      ∧ DivideKeptVia m z.bits (.divsRM z R m) k s t))

/-! ## CPL and the bit operations -/

/-- CPL takes the ones complement, sets H and N, keeps the other flags, and applied twice restores the register. At Long word it
is refused, which is the spec's decision (log 15). -/
def Obligations.ComplementRegister : Prop :=
  ∀ (z : SizeBW) (r : RSel) (s : State), r.wf z.size = true →
    let k := selCode z.size r
    encode (.cplR z r) = r.bytes z.size ++ [0x06#8]
    ∧ (∀ r' : RSel, r'.wf .l = true → decode (r'.bytes .l ++ [0x06#8]) = .refuse .sizeNotListed)
    ∧ ∃ t, exec (.cplR z r) s = .next t
      ∧ (t.readReg z.bits k).toNat = 2 ^ z.bits - 1 - (s.readReg z.bits k).toNat
      ∧ RegsKeptBut (s.inReg z.bits k) s t ∧ MemKept s t ∧ SystemKept s t ∧ MovedPast (.cplR z r) s t
      ∧ t.f = { s.f with h := true, n := true }
      ∧ ∃ u, exec (.cplR z r) t = .next u ∧ RegsKept s u

/-- ANDCF ands C with a bit of the source; at Byte with a bit number from 8 on C is free; nothing else changes. andcfNR,
andcfAR, andcfNM, andcfAM. The free C is log 22. -/
def Obligations.AndCarryWithABit : Prop :=
  (∀ (z : SizeBW) (n : BitVec 4) (r : RSel) (s : State),
    ∃ t, exec (.andcfNR z n r) s = .next t ∧ WroteNothing (.andcfNR z n r) s t ∧ SameButC s.f t.f
      ∧ (n.toNat < z.bits → t.f.c = (s.f.c && (s.readReg z.bits (selCode z.size r)).getLsbD n.toNat)))
  ∧ (∀ (z : SizeBW) (r : RSel) (s : State),
    let k := (s.readReg 8 codeA).toNat % 16
    ∃ t, exec (.andcfAR z r) s = .next t ∧ WroteNothing (.andcfAR z r) s t ∧ SameButC s.f t.f
      ∧ (k < z.bits → t.f.c = (s.f.c && (s.readReg z.bits (selCode z.size r)).getLsbD k)))
  ∧ (∀ (n : BitVec 3) (m : Mem) (s : State) (v : Byte), s.memRead 8 (Mem.ea s m) = .next v →
    ∃ t, exec (.andcfNM n m) s = .next t ∧ WroteNothingVia m (.andcfNM n m) s t ∧ SameButC s.f t.f
      ∧ t.f.c = (s.f.c && v.getLsbD n.toNat))
  ∧ (∀ (m : Mem) (s : State) (v : Byte), NoClash s m [codeA] → s.memRead 8 (Mem.ea s m) = .next v →
    let k := (s.readReg 8 codeA).toNat % 16
    ∃ t, exec (.andcfAM m) s = .next t ∧ WroteNothingVia m (.andcfAM m) s t ∧ SameButC s.f t.f
      ∧ (k < 8 → t.f.c = (s.f.c && v.getLsbD k)))

/-- CCF inverts C, clears N, leaves H open and keeps S, Z and V. -/
def Obligations.ComplementCarry : Prop :=
  encode .ccf = [0x12#8]
  ∧ ∀ s : State, ∃ t, exec .ccf s = .next t ∧ WroteNothing .ccf s t ∧ t.f = { s.f with c := !s.f.c, n := false, h := t.f.h }

/-- BIT sets Z to the inverted bit, H to 1, N to 0, keeps C and leaves S and V open; at Byte with a bit number from 8 on Z is
open too. bitNR, bitNM. The free Z at Byte is the spec's decision (log 22). -/
def Obligations.TestABit : Prop :=
  (∀ (z : SizeBW) (n : BitVec 4) (r : RSel) (s : State),
    ∃ t, exec (.bitNR z n r) s = .next t ∧ WroteNothing (.bitNR z n r) s t ∧ BitFlagsSay s.f t.f
      ∧ (n.toNat < z.bits → t.f.z = !(s.readReg z.bits (selCode z.size r)).getLsbD n.toNat))
  ∧ (∀ (n : BitVec 3) (m : Mem) (s : State) (v : Byte), s.memRead 8 (Mem.ea s m) = .next v →
    ∃ t, exec (.bitNM n m) s = .next t ∧ WroteNothingVia m (.bitNM n m) s t ∧ BitFlagsSay s.f t.f
      ∧ t.f.z = !v.getLsbD n.toNat)

/-- `v` is `u` with bit `k` inverted and every other bit kept. -/
def BitFlipped {n : Nat} (u v : BitVec n) (k : Nat) : Prop :=
  ∀ i, i < n → v.getLsbD i = if i = k then !u.getLsbD i else u.getLsbD i

/-- CHG inverts one bit of a register or of a byte in memory; no flag changes. At Byte a bit number from 8 on is refused for the
register form, which is the spec's own decision (log 16). chgNR, chgNM. -/
def Obligations.InvertABit : Prop :=
  (∀ (z : SizeBW) (n : BitVec 4) (r : RSel) (s : State), r.wf z.size = true → n.toNat < z.bits →
    ∃ t v, exec (.chgNR z n r) s = .next t ∧ BitFlipped (s.readReg z.bits (selCode z.size r)) v n.toNat
      ∧ WroteReg (.chgNR z n r) (selCode z.size r) v s t ∧ t.f = s.f)
  ∧ (∀ (n : BitVec 4) (r : RSel) (s : State), 8 ≤ n.toNat → exec (.chgNR .b n r) s = .refused .bitNumberOutsideByte)
  ∧ (∀ (n : BitVec 3) (m : Mem) (s : State) (u : Byte), s.storeOk → s.memRead 8 (Mem.ea s m) = .next u →
    s.writable (Mem.ea s m) 1 →
    ∃ t v, exec (.chgNM n m) s = .next t ∧ BitFlipped u v n.toNat ∧ WroteMem m (.chgNM n m) v s t ∧ t.f = s.f)

/-- BS1F writes the least and BS1B the greatest number of a 1 bit of a word register to A and clears V; on a register of zeros
both set V, leave A free and go on. That all eight bits of A are written is the spec's decision (log 23). -/
def Obligations.SearchForABit : Prop :=
  ∀ (r : RSel) (s : State), r.wf .w = true →
    let v := s.readReg 16 (selCode .w r)
    (∀ i, i < 16 → v.getLsbD i = true →
      ((∀ j, j < i → v.getLsbD j = false) →
        ∃ t, exec (.bs1f r) s = .next t ∧ WroteReg (.bs1f r) codeA (BitVec.ofNat 8 i) s t ∧ t.f = { s.f with v := false })
      ∧ ((∀ j, i < j → j < 16 → v.getLsbD j = false) →
        ∃ t, exec (.bs1b r) s = .next t ∧ WroteReg (.bs1b r) codeA (BitVec.ofNat 8 i) s t ∧ t.f = { s.f with v := false }))
    ∧ (v = 0#16 →
      (∃ t a, exec (.bs1f r) s = .next t ∧ WroteReg (n := 8) (.bs1f r) codeA a s t ∧ t.f = { s.f with v := true })
      ∧ ∃ t a, exec (.bs1b r) s = .next t ∧ WroteReg (n := 8) (.bs1b r) codeA a s t ∧ t.f = { s.f with v := true })

/-! ## Exchange -/

/-- EX F,F' exchanges all eight bits of F and F' and nothing else; executed twice it restores both. -/
def Obligations.ExchangeFlagBytes : Prop :=
  encode .exFF = [0x16#8]
  ∧ ∀ s : State, ∃ t, exec .exFF s = .next t ∧ t.f = s.fAlt ∧ t.fAlt = s.f ∧ RegsKept s t ∧ MemKept s t
    ∧ t.iffLevel = s.iffLevel ∧ t.rfp = s.rfp ∧ ControlRegsKept s t ∧ t.launch = s.launch ∧ MovedPast .exFF s t
    ∧ ∃ u, exec .exFF t = .next u ∧ u.f = s.f ∧ u.fAlt = s.fAlt

/-- EX R,r exchanges the two registers and changes no flag; where both are the same register nothing changes but pc. At Long word
it is refused, which is the spec's decision (log 15). -/
def Obligations.ExchangeRegisters : Prop :=
  ∀ (z : SizeBW) (R : BitVec 3) (r : RSel) (s : State), r.wf z.size = true →
    let k := shortCode z.size R
    let k' := selCode z.size r
    encode (.exRR z R r) = r.bytes z.size ++ [0b10111#5 ++ R]
    ∧ (∀ r' : RSel, r'.wf .l = true → decode (r'.bytes .l ++ [0b10111#5 ++ R]) = .refuse .sizeNotListed)
    ∧ ∃ t, exec (.exRR z R r) s = .next t ∧ t.f = s.f
      ∧ t.readReg z.bits k = s.readReg z.bits k' ∧ t.readReg z.bits k' = s.readReg z.bits k
      ∧ RegsKeptBut (fun i j => s.inReg z.bits k i j ∨ s.inReg z.bits k' i j) s t
      ∧ (s.slot k.row = s.slot k'.row → k.off = k'.off → RegsKept s t)
      ∧ MemKept s t ∧ SystemKept s t ∧ MovedPast (.exRR z R r) s t

/-- EX (mem),r exchanges a memory operand and a register and changes no flag. The byte order and the 3-bit register field are
the spec's decisions (logs 7 and 34). -/
def Obligations.ExchangeMemoryAndRegister : Prop :=
  ∀ (z : SizeBW) (m : Mem) (R : BitVec 3) (s : State) (v : BitVec z.bits), s.storeOk → NoClash s m [shortCode z.size R] →
    s.memRead z.bits (Mem.ea s m) = .next v → s.writable (Mem.ea s m) z.size.bytes →
    let k := shortCode z.size R
    ∃ t, exec (.exMR z m R) s = .next t ∧ t.f = s.f ∧ t.readReg z.bits k = v
      ∧ Stored (Mem.ea s m) (s.readReg z.bits k) s t ∧ MemKeptBut (Mem.ea s m) z.size.bytes s t ∧ AutoMoved m s t
      ∧ RegsKeptBut (fun i j => s.inReg z.bits k i j ∨ s.inAuto m i j) s t ∧ SystemKept s t ∧ MovedPast (.exMR z m R) s t

/-! ## Compare and count -/

/-- The pointer after `k` steps of `z.size.bytes`, up or down. -/
def pointerAfter (z : SizeBW) (up : Bool) (p : Word32) (k : Nat) : Word32 :=
  if up then p + BitVec.ofNat 32 (k * z.size.bytes) else p - BitVec.ofNat 32 (k * z.size.bytes)

/-- After `k` compare steps, the last with the memory value `m`: the pointer, BC, the flags and what is kept (R110). -/
def ComparedTimes (k : Nat) (i : Instr) (z : SizeBW) (R : BitVec 3) (up : Bool) (m : BitVec z.bits) (s t : State) : Prop :=
  t.long (pointerReg R) = pointerAfter z up (s.long (pointerReg R)) k
    ∧ t.readReg 16 codeBC = s.readReg 16 codeBC - BitVec.ofNat 16 k
    ∧ t.f.s = (s.readReg z.bits codeA - m).msb ∧ (t.f.z = true ↔ s.readReg z.bits codeA = m)
    ∧ (t.f.h = true ↔ (s.readReg z.bits codeA).toNat % 16 < m.toNat % 16)
    ∧ (t.f.v = true ↔ t.readReg 16 codeBC ≠ 0#16) ∧ t.f.n = true ∧ t.f.c = s.f.c ∧ t.f.rest = s.f.rest
    ∧ RegsKeptBut (fun x j => s.inLong (pointerReg R) x j ∨ s.inReg 16 codeBC x j) s t
    ∧ MemKept s t ∧ SystemKept s t ∧ MovedPast i s t

/-- CPI and CPD make one compare step: the access is at the pointer before it moves. At Word the pointer moves by 2, which is
the spec's own decision (log 17). H at Word is log 19. -/
def Obligations.CompareOnceAndCount : Prop :=
  ∀ (z : SizeBW) (R : BitVec 3) (s : State) (m : BitVec z.bits), R ≠ 0#3 → R ≠ 1#3 →
    s.memRead z.bits (s.long (pointerReg R)) = .next m →
    (∃ t, exec (.cpi z R) s = .next t ∧ ComparedTimes 1 (.cpi z R) z R true m s t)
    ∧ ∃ t, exec (.cpd z R) s = .next t ∧ ComparedTimes 1 (.cpd z R) z R false m s t

/-- CPIR and CPDR compare until a match or until BC has counted down to 0, which from BC = 0 takes 65536 steps: if the first `k
- 1` operands differ from A (WA) and either the `k`-th equals it or the count ends there, exactly `k` steps are made. The step
at Word, H at Word and the whole repeat as one step are the spec's decisions (logs 17, 19 and 25). -/
def Obligations.CompareRepeatedAndCount : Prop :=
  ∀ (z : SizeBW) (R : BitVec 3) (up : Bool) (s : State) (k : Nat) (ms : Nat → BitVec z.bits), R ≠ 0#3 → R ≠ 1#3 →
    let bound := if s.readReg 16 codeBC = 0#16 then 65536 else (s.readReg 16 codeBC).toNat
    let i := if up then Instr.cpir z R else Instr.cpdr z R
    1 ≤ k → k ≤ bound →
    (∀ j, j < k → s.memRead z.bits (pointerAfter z up (s.long (pointerReg R)) j) = .next (ms j)) →
    (∀ j, j + 1 < k → ms j ≠ s.readReg z.bits codeA) →
    (ms (k - 1) = s.readReg z.bits codeA ∨ k = bound) →
    ∃ t, exec i s = .next t ∧ ComparedTimes k i z R up (ms (k - 1)) s t

/-! ## CPU control -/

/-- An instruction has changed IFF to `n` and nothing else but pc. -/
def OnlyLevelSet (i : Instr) (n : BitVec 3) (s t : State) : Prop :=
  t.iffLevel = n ∧ t.f = s.f ∧ RegsKept s t ∧ MemKept s t ∧ t.rfp = s.rfp ∧ t.fAlt = s.fAlt ∧ ControlRegsKept s t
    ∧ t.launch = s.launch ∧ MovedPast i s t

/-- EI sets IFF to its number and DI to 7, and nothing else changes but pc; DI and EI 7 are one byte pair with one effect. What
the level lets through is not modelled (log 12). -/
def Obligations.InterruptLevelIsSet : Prop :=
  (∀ (n : BitVec 3) (s : State), ∃ t, exec (.ei n) s = .next t ∧ OnlyLevelSet (.ei n) n s t)
  ∧ encode .di = [0x06#8, 0x07#8] ∧ encode (.ei 7#3) = encode .di
  ∧ ∀ s : State, ∃ t, exec .di s = .next t ∧ OnlyLevelSet .di 7#3 s t ∧ exec (.ei 7#3) s = .next t

/-- DECF makes the bank below the current one: from 3, 2 and 1 the number falls by one, from 0 it becomes 3. No register's
content changes, and what the new current and previous bank names denote is the bank below and the one below that. The wrap from
0 to 3 and the previous bank are the spec's decisions (logs 24 and 9). -/
def Obligations.DecfMovesToTheBankBelow : Prop :=
  ∀ s : State, s.rfpOk → ∃ t, exec .decf s = .next t ∧ t.rfpOk ∧ t.rfp.toNat = (s.rfp.toNat + 3) % 4 ∧ t.f = s.f
    ∧ RegsKept s t ∧ MemKept s t ∧ t.iffLevel = s.iffLevel ∧ t.fAlt = s.fAlt ∧ ControlRegsKept s t ∧ t.launch = s.launch
    ∧ MovedPast .decf s t
    ∧ ∀ q : BitVec 2, t.long (.cur q) = s.long (.prev q) ∧ (t.slot (.prev q)).val = 4 * ((s.rfp.toNat + 2) % 4) + q.toNat

/-! ## Calls and DJNZ -/

/-- CALL #16, CALL #24 and CALR push the address of the next instruction and go to their target. The byte order on the stack and
the wrap of pc are the spec's decisions (logs 7 and 18). -/
def Obligations.CallsPushAndJump : Prop :=
  ∀ (s : State) (a16 d : BitVec 16) (a24 : BitVec 24), s.storeOk → s.writable (s.long rowXSP - 4#32) 4 →
    (∃ t, exec (.call16 a16) s = .next t ∧ Called (.call16 a16) (a16.setWidth 32) s t)
    ∧ (∃ t, exec (.call24 a24) s = .next t ∧ Called (.call24 a24) (a24.setWidth 32) s t)
    ∧ ∃ t, exec (.calr d) s = .next t ∧ Called (.calr d) (s.pc + 3#32 + d.signExtend 32) s t

/-- CALL [cc,]mem: if the condition is true, the address after the instruction is pushed and pc becomes the effective address,
from the registers before the instruction; if it is false, only pc moves on. The byte order on the stack, the modes left out and
the wraps are the spec's decisions (logs 7, 16 and 18). -/
def Obligations.CallMemoryModeIsConditional : Prop :=
  ∀ (c : Cond) (m : Mem) (s : State), callMode m = true →
    (s.f.holds c = true → s.storeOk → s.writable (s.long rowXSP - 4#32) 4 →
      ∃ t, exec (.callM c m) s = .next t ∧ Called (.callM c m) (Mem.ea s m) s t)
    ∧ (s.f.holds c = false → ∃ t, exec (.callM c m) s = .next t ∧ WroteNothing (.callM c m) s t ∧ t.f = s.f)

/-- DJNZ decrements the register and jumps, relative to the next instruction, when the result is not 0; no flag changes. That pc
wraps modulo 2^32 is the spec's decision (log 18). -/
def Obligations.DecrementAndJump : Prop :=
  ∀ (z : SizeBW) (r : RSel) (d : BitVec 8) (s : State), r.wf z.size = true →
    let k := selCode z.size r
    let v := s.readReg z.bits k - 1#z.bits
    encode (.djnz z r d) = r.bytes z.size ++ [0x1C#8, d]
    ∧ ∃ t, exec (.djnz z r d) s = .next t ∧ t.readReg z.bits k = v ∧ t.f = s.f
      ∧ RegsKeptBut (s.inReg z.bits k) s t ∧ MemKept s t ∧ SystemKept s t
      ∧ t.pc = (if v = 0#z.bits then s.pc + BitVec.ofNat 32 (r.len + 2)
          else s.pc + BitVec.ofNat 32 (r.len + 2) + d.signExtend 32)

/-- The forms the spec itself refuses, each by its name: a pointer that holds an operand in the compare group, the modes of CALL
[cc,]mem that name XSP or modify a register, and a memory form whose auto-modified register is an operand or a result. These
refusals are the spec's decisions (log 16); that an overlap is judged on storage is log 31. -/
def Obligations.UnorderedOverlapsAreRefused : Prop :=
  (∀ (z : SizeBW) (R : BitVec 3) (s : State), R = 0#3 ∨ R = 1#3 →
    exec (.cpi z R) s = .refused .pointerOverlap ∧ exec (.cpir z R) s = .refused .pointerOverlap
    ∧ exec (.cpd z R) s = .refused .pointerOverlap ∧ exec (.cpdr z R) s = .refused .pointerOverlap)
  ∧ (∀ (c : Cond) (s : State) (m : Mem), m ∈ [.ind 7#3, .reg (.idx 3#2)] ∨ (∃ d, m = .indD8 7#3 d)
      ∨ (∃ d, m = .regD16 (.idx 3#2) d) ∨ (∃ r k, (m = .regR8 r k ∨ m = .regR16 r k) ∧ (r = .idx 3#2 ∨ k.row = .idx 3#2))
      ∨ (∃ r st, m = .preDec r st ∨ m = .postInc r st) →
    exec (.callM c m) s = .refused .callModeNotGiven)
  ∧ (∀ (z : Size) (R : BitVec 3) (m : Mem) (r : LongReg) (st : StepCode) (s : State), m = .preDec r st ∨ m = .postInc r st →
    s.slot r = s.slot (shortCode z R).row →
    exec (.addRM z R m) s = .refused .autoModifyOverlap ∧ exec (.addMR z m R) s = .refused .autoModifyOverlap
    ∧ exec (.adcRM z R m) s = .refused .autoModifyOverlap ∧ exec (.adcMR z m R) s = .refused .autoModifyOverlap
    ∧ exec (.andRM z R m) s = .refused .autoModifyOverlap ∧ exec (.andMR z m R) s = .refused .autoModifyOverlap
    ∧ exec (.cpRM z R m) s = .refused .autoModifyOverlap ∧ exec (.cpMR z m R) s = .refused .autoModifyOverlap)
  ∧ (∀ (z : SizeBW) (R : BitVec 3) (m : Mem) (r : LongReg) (st : StepCode) (s : State), m = .preDec r st ∨ m = .postInc r st →
    (s.slot r = s.slot (shortCode z.size R).row →
      exec (.exMR z m R) s = .refused .autoModifyOverlap ∧ exec (.divRM z R m) s = .refused .autoModifyOverlap
      ∧ exec (.divsRM z R m) s = .refused .autoModifyOverlap)
    ∧ (s.slot r = s.slot codeA.row → exec (.andcfAM m) s = .refused .autoModifyOverlap))
end

