-- ==== Sys2Proof/Laws/Decode.lean ====
section
/-! SUPPORT. The decoder's parsers read back what the encoder's parts write: one lemma for each part of an encoding. -/

namespace Sys2Proof

/-! ## Fields of a byte put together from them -/

theorem hi5_append (h : BitVec 5) (l : BitVec 3) : hi5 (h ++ l) = h := by
  revert h l; decide

theorem lo3_append (h : BitVec 5) (l : BitVec 3) : lo3 (h ++ l) = l := by
  revert h l; decide

theorem hi4_append (h l : BitVec 4) : hi4 (h ++ l) = h := by
  revert h l; decide

theorem lo4_append (h l : BitVec 4) : lo4 (h ++ l) = l := by
  revert h l; decide

theorem hi6_append (h : BitVec 6) (l : BitVec 2) : hi6 (h ++ l) = h := by
  revert h l; decide

theorem lo2_append (h : BitVec 6) (l : BitVec 2) : lo2 (h ++ l) = l := by
  revert h l; decide

/-- An op byte with another upper field than `b` is not `b`. -/
theorem append_ne_of_hi5 {h h' : BitVec 5} {R : BitVec 3} {b : Byte} (hb : hi5 b = h') (hn : h' ≠ h) :
    ¬ ((h ++ R : Byte) = b) := by
  intro e
  apply hn
  rw [← hb, ← e, hi5_append]

/-! ## Codes and what they stand for -/

theorem longRegOfCode6_code6 (r : LongReg) : longRegOfCode6 r.code6 = some r := by
  cases r with
  | bank b q => revert b q; decide
  | prev q => revert q; decide
  | cur q => revert q; decide
  | idx j => revert j; decide

theorem stepOfCode_code (st : StepCode) : stepOfCode st.code = some st := by cases st <;> rfl

theorem condOfCode_code (c : Cond) : condOfCode c.code = c := by cases c <;> rfl

theorem sizeOfCode_code (z : Size) : sizeOfCode z.code = some z := by cases z <;> rfl

/-! ## Parsers read back what the encoder wrote -/

theorem two_bytes_joined (v : BitVec 16) : v.extractLsb' 8 8 ++ v.extractLsb' 0 8 = v := by
  apply BitVec.eq_of_getLsbD_eq
  intro i hi
  simp only [BitVec.getLsbD_append, BitVec.getLsbD_extractLsb']
  by_cases h : i < 8
  · simp [h]
  · simp [h, show i - 8 < 8 by omega, show 8 + (i - 8) = i by omega]

theorem three_bytes_joined (v : BitVec 24) : v.extractLsb' 16 8 ++ v.extractLsb' 8 8 ++ v.extractLsb' 0 8 = v := by
  apply BitVec.eq_of_getLsbD_eq
  intro i hi
  simp only [BitVec.getLsbD_append, BitVec.getLsbD_extractLsb']
  by_cases h : i < 8
  · simp [h]
  · by_cases h2 : i - 8 < 8
    · simp [h, h2, show 8 + (i - 8) = i by omega]
    · simp [h, h2, show i - 8 - 8 < 8 by omega, show 16 + (i - 8 - 8) = i by omega]

theorem four_bytes_joined (v : BitVec 32) :
    v.extractLsb' 24 8 ++ v.extractLsb' 16 8 ++ v.extractLsb' 8 8 ++ v.extractLsb' 0 8 = v := by
  apply BitVec.eq_of_getLsbD_eq
  intro i hi
  simp only [BitVec.getLsbD_append, BitVec.getLsbD_extractLsb']
  by_cases h : i < 8
  · simp [h]
  · by_cases h2 : i - 8 < 8
    · simp [h, h2, show 8 + (i - 8) = i by omega]
    · by_cases h3 : i - 8 - 8 < 8
      · simp [h, h2, h3, show 16 + (i - 8 - 8) = i by omega]
      · simp [h, h2, h3, show i - 8 - 8 - 8 < 8 by omega, show 24 + (i - 8 - 8 - 8) = i by omega]

theorem withTwo_bytes2 (v : BitVec 16) (bs : List Byte) (k : BitVec 16 → List Byte → Decoded) :
    withTwo (bytes2 v ++ bs) k = k v bs := by
  simp only [withTwo, bytes2, withByte, List.cons_append, List.nil_append, two_bytes_joined]

theorem withThree_bytes3 (v : BitVec 24) (bs : List Byte) (k : BitVec 24 → List Byte → Decoded) :
    withThree (bytes3 v ++ bs) k = k v bs := by
  simp only [withThree, bytes3, withByte, List.cons_append, List.nil_append, three_bytes_joined]

theorem withFour_bytes4 (v : BitVec 32) (bs : List Byte) (k : BitVec 32 → List Byte → Decoded) :
    withFour (bytes4 v ++ bs) k = k v bs := by
  simp only [withFour, bytes4, withByte, List.cons_append, List.nil_append, four_bytes_joined]

/-- An immediate that fits its size is its low bits. -/
theorem setWidth_of_immFits {z : Size} {imm : Word32} (h : immFits z imm = true) :
    (imm.setWidth z.bits).setWidth 32 = imm := by
  apply BitVec.eq_of_toNat_eq
  simp only [immFits, decide_eq_true_eq] at h
  have := imm.isLt
  simp only [BitVec.toNat_setWidth]
  rw [Nat.mod_eq_of_lt h, Nat.mod_eq_of_lt this]

theorem withImm_immBytes {z : Size} {imm : Word32} (h : immFits z imm = true) (bs : List Byte)
    (k : Word32 → List Byte → Decoded) : withImm z (immBytes z imm ++ bs) k = k imm bs := by
  have h1 := setWidth_of_immFits h
  cases z
  · simp only [immBytes, withImm, withByte, List.cons_append, List.nil_append]
    exact congrArg (k · bs) h1
  · simp only [immBytes, withImm, withTwo_bytes2]
    exact congrArg (k · bs) h1
  · exact withFour_bytes4 _ _ _

theorem withNum4_append (n : BitVec 4) (bs : List Byte) (k : BitVec 4 → List Byte → Decoded) :
    withNum4 ((0x0#4 ++ n) :: bs) k = k n bs := by
  simp [withNum4, withByte, hi4_append, lo4_append]

theorem withRow_code6 (r : LongReg) (k : LongReg → Decoded) : withRow r.code6 k = k r := by
  simp [withRow, longRegOfCode6_code6]

theorem withRegCode_toByte {z : Size} {c : RegCode} (h : c.aligned z = true) (bs : List Byte)
    (k : RegCode → List Byte → Decoded) : withRegCode z (c.toByte :: bs) k = k c bs := by
  simp only [withRegCode, withByte, RegCode.toByte, hi6_append, lo2_append, withRow_code6]
  exact if_pos h

theorem withLongReg_toByte (r : LongReg) (bs : List Byte) (k : LongReg → List Byte → Decoded) :
    withLongReg (r.toByte :: bs) k = k r bs :=
  withRegCode_toByte (c := ⟨r, 0#2⟩) rfl bs fun c bs => k c.row bs

theorem withStepped_append (r : LongReg) (st : StepCode) (bs : List Byte) (k : LongReg → StepCode → List Byte → Decoded) :
    withStepped ((r.code6 ++ st.code) :: bs) k = k r st bs := by
  simp only [withStepped, withByte, hi6_append, lo2_append, withRow_code6, stepOfCode_code]

theorem onBW_size (z : SizeBW) (k : SizeBW → Decoded) : onBW z.size k = k z := by cases z <;> rfl

theorem onWL_size (z : SizeWL) (k : SizeWL → Decoded) : onWL z.size k = k z := by cases z <;> rfl

/-- A register that names a dividend is a register of the operation size. -/
theorem RSel.wf_of_dividendOk {z : SizeBW} {r : RSel} (h : r.dividendOk z = true) : r.wf z.size = true := by
  cases r with
  | short c => rfl
  | ext k =>
    have h0 : k.aligned z.double = true := h
    show k.aligned z.size = true
    cases z <;> simp_all [RegCode.aligned, SizeBW.double, SizeBW.size]

/-! ## Prefixes -/

/-- A register prefix with its op byte. -/
theorem decode_regBytes {z : Size} {r : RSel} (h : r.wf z = true) (op : Byte) (bs : List Byte) :
    decode (r.bytes z ++ op :: bs) = decodeRegOp z r op bs := by
  cases r with
  | short c =>
    have h1 : ((0b11#2 ++ z.code ++ 0b1#1 ++ c : Byte)).getLsbD 7 = true := by
      cases z <;> revert c <;> decide
    have h2 : isRegPrefix (0b11#2 ++ z.code ++ 0b1#1 ++ c) = true := by
      cases z <;> revert c <;> decide
    have h3 : sizeOfCode (sizeField (0b11#2 ++ z.code ++ 0b1#1 ++ c)) = some z := by
      cases z <;> revert c <;> decide
    have h4 : ((0b11#2 ++ z.code ++ 0b1#1 ++ c : Byte)).getLsbD 3 = true := by
      cases z <;> revert c <;> decide
    have h5 : lo3 (0b11#2 ++ z.code ++ 0b1#1 ++ c) = c := by
      cases z <;> revert c <;> decide
    simp only [decode, RSel.bytes, List.cons_append, List.nil_append, withByte, h1, h2, h3, decodeRegForm, h4, h5,
      Bool.true_eq_false, if_false, if_true]
  | ext k =>
    have h0 : k.aligned z = true := h
    have h1 : (0b11#2 ++ z.code ++ 0b0111#4 : Byte).getLsbD 7 = true := by cases z <;> rfl
    have h2 : isRegPrefix (0b11#2 ++ z.code ++ 0b0111#4) = true := by cases z <;> rfl
    have h3 : sizeOfCode (sizeField (0b11#2 ++ z.code ++ 0b0111#4)) = some z := by cases z <;> rfl
    have h4 : (0b11#2 ++ z.code ++ 0b0111#4 : Byte).getLsbD 3 = false := by cases z <;> rfl
    simp only [decode, RSel.bytes, List.cons_append, List.nil_append, withByte, h1, h2, h3, decodeRegForm, h4,
      Bool.true_eq_false, Bool.false_eq_true, if_false, if_true]
    exact withRegCode_toByte h0 _ _

/-- A first byte of the memory class (R74, R81). -/
theorem decode_memFirst {p : Byte} {xx : BitVec 2} (h1 : p.getLsbD 7 = true) (h2 : isRegPrefix p = false)
    (h3 : sizeField p = xx) (bs : List Byte) :
    decode (p :: bs) = withMode p bs fun m bs => withByte bs fun op bs =>
      match sizeOfCode xx with
      | some z => decodeSrcOp z m op bs
      | none => decodeDstOp m op bs := by
  simp only [decode, withByte, h1, h2, h3, Bool.true_eq_false, Bool.false_eq_true, if_false] <;> rfl

/-- The first byte of each memory mode: class, size field, and the bits that select the mode. -/
theorem memFirst_low (xx : BitVec 2) (d : BitVec 1) (R : BitVec 3) :
    let p : Byte := 0b10#2 ++ xx ++ d ++ R
    p.getLsbD 7 = true ∧ isRegPrefix p = false ∧ sizeField p = xx ∧ p.getLsbD 6 = false ∧ p.getLsbD 3 = d.getLsbD 0
      ∧ lo3 p = R := by
  revert xx d R; decide

theorem memFirst_high (xx : BitVec 2) (l : BitVec 4) (h : l.toNat < 6) :
    let p : Byte := 0b11#2 ++ xx ++ l
    p.getLsbD 7 = true ∧ isRegPrefix p = false ∧ sizeField p = xx ∧ p.getLsbD 6 = true ∧ lo4 p = l := by
  revert xx l; decide

/-- A memory prefix with its op byte. -/
theorem decode_memBytes (xx : BitVec 2) {m : Mem} (h : m.wf = true) (op : Byte) (bs : List Byte) :
    decode (m.bytes xx ++ op :: bs) =
      match sizeOfCode xx with
      | some z => decodeSrcOp z m op bs
      | none => decodeDstOp m op bs := by
  cases m with
  | ind R =>
    obtain ⟨h1, h2, h3, h4, h5, h6⟩ := memFirst_low xx 0#1 R
    simp only [Mem.bytes, List.cons_append, List.nil_append]
    rw [decode_memFirst h1 h2 h3]
    simp only [withMode, h4, h5, h6, withByte, if_true]
    rfl
  | indD8 R d =>
    obtain ⟨h1, h2, h3, h4, h5, h6⟩ := memFirst_low xx 1#1 R
    simp only [Mem.bytes, List.cons_append, List.nil_append]
    rw [decode_memFirst h1 h2 h3]
    simp only [withMode, h4, h5, h6, withByte, if_true]
    rfl
  | abs8 a =>
    obtain ⟨h1, h2, h3, h4, h5⟩ := memFirst_high xx 0#4 (by decide)
    simp only [Mem.bytes, List.cons_append, List.nil_append]
    rw [decode_memFirst h1 h2 h3]
    simp [withMode, h4, h5, withByte]
  | abs16 a =>
    obtain ⟨h1, h2, h3, h4, h5⟩ := memFirst_high xx 1#4 (by decide)
    simp only [Mem.bytes, List.cons_append]
    rw [decode_memFirst h1 h2 h3]
    simp [withMode, h4, h5, withByte, withTwo_bytes2]
  | abs24 a =>
    obtain ⟨h1, h2, h3, h4, h5⟩ := memFirst_high xx 2#4 (by decide)
    simp only [Mem.bytes, List.cons_append]
    rw [decode_memFirst h1 h2 h3]
    simp [withMode, h4, h5, withByte, withThree_bytes3]
  | reg r =>
    obtain ⟨h1, h2, h3, h4, h5⟩ := memFirst_high xx 3#4 (by decide)
    simp only [Mem.bytes, List.cons_append, List.nil_append]
    rw [decode_memFirst h1 h2 h3]
    simp [withMode, h4, h5, withByte, withRegMode, lo2_append, hi6_append, withRow_code6]
  | regD16 r d =>
    obtain ⟨h1, h2, h3, h4, h5⟩ := memFirst_high xx 3#4 (by decide)
    simp only [Mem.bytes, List.cons_append]
    rw [decode_memFirst h1 h2 h3]
    simp [withMode, h4, h5, withByte, withRegMode, lo2_append, hi6_append, withRow_code6, withTwo_bytes2]
  | regR8 r k =>
    obtain ⟨h1, h2, h3, h4, h5⟩ := memFirst_high xx 3#4 (by decide)
    simp only [Mem.bytes, List.cons_append, List.nil_append]
    rw [decode_memFirst h1 h2 h3]
    have h6 : lo2 (0x03#8) = 3#2 := by decide
    simp only [withMode, h4, h5, withRegMode]
    simp [withByte, h6, withLongReg_toByte]
    rw [withRegCode_toByte (by rfl)]
  | regR16 r k =>
    obtain ⟨h1, h2, h3, h4, h5⟩ := memFirst_high xx 3#4 (by decide)
    simp only [Mem.bytes, List.cons_append, List.nil_append]
    rw [decode_memFirst h1 h2 h3]
    have h6 : lo2 (0x07#8) = 3#2 := by decide
    simp only [withMode, h4, h5, withRegMode]
    simp [withByte, h6, withLongReg_toByte]
    have h7 : k.aligned .w = true := h
    rw [withRegCode_toByte h7]
  | preDec r st =>
    obtain ⟨h1, h2, h3, h4, h5⟩ := memFirst_high xx 4#4 (by decide)
    simp only [Mem.bytes, List.cons_append, List.nil_append]
    rw [decode_memFirst h1 h2 h3]
    simp [withMode, h4, h5, withByte, withStepped_append]
  | postInc r st =>
    obtain ⟨h1, h2, h3, h4, h5⟩ := memFirst_high xx 5#4 (by decide)
    simp only [Mem.bytes, List.cons_append, List.nil_append]
    rw [decode_memFirst h1 h2 h3]
    simp [withMode, h4, h5, withByte, withStepped_append]

end Sys2Proof
end

