-- ==== Sys2Proof/Laws/State.lean ====
section
/-! SUPPORT. One lemma per field per update of the state, each true by unfolding, so that no later proof unfolds a record update. -/

namespace Sys2Proof.Machine

/-! ## setF -/

@[simp] theorem State.setF_regs (s : State) (g : Flags) : (s.setF g).regs = s.regs := rfl
@[simp] theorem State.setF_pc (s : State) (g : Flags) : (s.setF g).pc = s.pc := rfl
@[simp] theorem State.setF_iffLevel (s : State) (g : Flags) : (s.setF g).iffLevel = s.iffLevel := rfl
@[simp] theorem State.setF_rfp (s : State) (g : Flags) : (s.setF g).rfp = s.rfp := rfl
@[simp] theorem State.setF_f (s : State) (g : Flags) : (s.setF g).f = g := rfl
@[simp] theorem State.setF_fAlt (s : State) (g : Flags) : (s.setF g).fAlt = s.fAlt := rfl
@[simp] theorem State.setF_dmas (s : State) (g : Flags) : (s.setF g).dmas = s.dmas := rfl
@[simp] theorem State.setF_dmad (s : State) (g : Flags) : (s.setF g).dmad = s.dmad := rfl
@[simp] theorem State.setF_dmac (s : State) (g : Flags) : (s.setF g).dmac = s.dmac := rfl
@[simp] theorem State.setF_dmam (s : State) (g : Flags) : (s.setF g).dmam = s.dmam := rfl
@[simp] theorem State.setF_intnest (s : State) (g : Flags) : (s.setF g).intnest = s.intnest := rfl
@[simp] theorem State.setF_mem (s : State) (g : Flags) : (s.setF g).mem = s.mem := rfl
@[simp] theorem State.setF_launch (s : State) (g : Flags) : (s.setF g).launch = s.launch := rfl
@[simp] theorem State.setF_draws (s : State) (g : Flags) : (s.setF g).draws = s.draws := rfl

/-! ## jump -/

@[simp] theorem State.jump_regs (s : State) (a : Word32) : (s.jump a).regs = s.regs := rfl
@[simp] theorem State.jump_pc (s : State) (a : Word32) : (s.jump a).pc = a := rfl
@[simp] theorem State.jump_iffLevel (s : State) (a : Word32) : (s.jump a).iffLevel = s.iffLevel := rfl
@[simp] theorem State.jump_rfp (s : State) (a : Word32) : (s.jump a).rfp = s.rfp := rfl
@[simp] theorem State.jump_f (s : State) (a : Word32) : (s.jump a).f = s.f := rfl
@[simp] theorem State.jump_fAlt (s : State) (a : Word32) : (s.jump a).fAlt = s.fAlt := rfl
@[simp] theorem State.jump_dmas (s : State) (a : Word32) : (s.jump a).dmas = s.dmas := rfl
@[simp] theorem State.jump_dmad (s : State) (a : Word32) : (s.jump a).dmad = s.dmad := rfl
@[simp] theorem State.jump_dmac (s : State) (a : Word32) : (s.jump a).dmac = s.dmac := rfl
@[simp] theorem State.jump_dmam (s : State) (a : Word32) : (s.jump a).dmam = s.dmam := rfl
@[simp] theorem State.jump_intnest (s : State) (a : Word32) : (s.jump a).intnest = s.intnest := rfl
@[simp] theorem State.jump_mem (s : State) (a : Word32) : (s.jump a).mem = s.mem := rfl
@[simp] theorem State.jump_launch (s : State) (a : Word32) : (s.jump a).launch = s.launch := rfl
@[simp] theorem State.jump_draws (s : State) (a : Word32) : (s.jump a).draws = s.draws := rfl

/-! ## advance -/

@[simp] theorem State.advance_regs (s : State) (len : Nat) : (s.advance len).regs = s.regs := rfl
@[simp] theorem State.advance_pc (s : State) (len : Nat) : (s.advance len).pc = s.nextPc len := rfl
@[simp] theorem State.advance_iffLevel (s : State) (len : Nat) : (s.advance len).iffLevel = s.iffLevel := rfl
@[simp] theorem State.advance_rfp (s : State) (len : Nat) : (s.advance len).rfp = s.rfp := rfl
@[simp] theorem State.advance_f (s : State) (len : Nat) : (s.advance len).f = s.f := rfl
@[simp] theorem State.advance_fAlt (s : State) (len : Nat) : (s.advance len).fAlt = s.fAlt := rfl
@[simp] theorem State.advance_dmas (s : State) (len : Nat) : (s.advance len).dmas = s.dmas := rfl
@[simp] theorem State.advance_dmad (s : State) (len : Nat) : (s.advance len).dmad = s.dmad := rfl
@[simp] theorem State.advance_dmac (s : State) (len : Nat) : (s.advance len).dmac = s.dmac := rfl
@[simp] theorem State.advance_dmam (s : State) (len : Nat) : (s.advance len).dmam = s.dmam := rfl
@[simp] theorem State.advance_intnest (s : State) (len : Nat) : (s.advance len).intnest = s.intnest := rfl
@[simp] theorem State.advance_mem (s : State) (len : Nat) : (s.advance len).mem = s.mem := rfl
@[simp] theorem State.advance_launch (s : State) (len : Nat) : (s.advance len).launch = s.launch := rfl
@[simp] theorem State.advance_draws (s : State) (len : Nat) : (s.advance len).draws = s.draws := rfl

/-! ## setLong -/

@[simp] theorem State.setLong_regs (s : State) (r : LongReg) (v : Word32) : (s.setLong r v).regs = s.regs.set (s.slot r) v := rfl
@[simp] theorem State.setLong_pc (s : State) (r : LongReg) (v : Word32) : (s.setLong r v).pc = s.pc := rfl
@[simp] theorem State.setLong_iffLevel (s : State) (r : LongReg) (v : Word32) : (s.setLong r v).iffLevel = s.iffLevel := rfl
@[simp] theorem State.setLong_rfp (s : State) (r : LongReg) (v : Word32) : (s.setLong r v).rfp = s.rfp := rfl
@[simp] theorem State.setLong_f (s : State) (r : LongReg) (v : Word32) : (s.setLong r v).f = s.f := rfl
@[simp] theorem State.setLong_fAlt (s : State) (r : LongReg) (v : Word32) : (s.setLong r v).fAlt = s.fAlt := rfl
@[simp] theorem State.setLong_dmas (s : State) (r : LongReg) (v : Word32) : (s.setLong r v).dmas = s.dmas := rfl
@[simp] theorem State.setLong_dmad (s : State) (r : LongReg) (v : Word32) : (s.setLong r v).dmad = s.dmad := rfl
@[simp] theorem State.setLong_dmac (s : State) (r : LongReg) (v : Word32) : (s.setLong r v).dmac = s.dmac := rfl
@[simp] theorem State.setLong_dmam (s : State) (r : LongReg) (v : Word32) : (s.setLong r v).dmam = s.dmam := rfl
@[simp] theorem State.setLong_intnest (s : State) (r : LongReg) (v : Word32) : (s.setLong r v).intnest = s.intnest := rfl
@[simp] theorem State.setLong_mem (s : State) (r : LongReg) (v : Word32) : (s.setLong r v).mem = s.mem := rfl
@[simp] theorem State.setLong_launch (s : State) (r : LongReg) (v : Word32) : (s.setLong r v).launch = s.launch := rfl
@[simp] theorem State.setLong_draws (s : State) (r : LongReg) (v : Word32) : (s.setLong r v).draws = s.draws := rfl

/-! ## writeReg -/

@[simp] theorem State.writeReg_regs (s : State) {n : Nat} (k : RegCode) (v : BitVec n) : (s.writeReg k v).regs = s.regs.set (s.slot k.row) (fieldPut (s.long k.row) k.off v) := rfl
@[simp] theorem State.writeReg_pc (s : State) {n : Nat} (k : RegCode) (v : BitVec n) : (s.writeReg k v).pc = s.pc := rfl
@[simp] theorem State.writeReg_iffLevel (s : State) {n : Nat} (k : RegCode) (v : BitVec n) : (s.writeReg k v).iffLevel = s.iffLevel := rfl
@[simp] theorem State.writeReg_rfp (s : State) {n : Nat} (k : RegCode) (v : BitVec n) : (s.writeReg k v).rfp = s.rfp := rfl
@[simp] theorem State.writeReg_f (s : State) {n : Nat} (k : RegCode) (v : BitVec n) : (s.writeReg k v).f = s.f := rfl
@[simp] theorem State.writeReg_fAlt (s : State) {n : Nat} (k : RegCode) (v : BitVec n) : (s.writeReg k v).fAlt = s.fAlt := rfl
@[simp] theorem State.writeReg_dmas (s : State) {n : Nat} (k : RegCode) (v : BitVec n) : (s.writeReg k v).dmas = s.dmas := rfl
@[simp] theorem State.writeReg_dmad (s : State) {n : Nat} (k : RegCode) (v : BitVec n) : (s.writeReg k v).dmad = s.dmad := rfl
@[simp] theorem State.writeReg_dmac (s : State) {n : Nat} (k : RegCode) (v : BitVec n) : (s.writeReg k v).dmac = s.dmac := rfl
@[simp] theorem State.writeReg_dmam (s : State) {n : Nat} (k : RegCode) (v : BitVec n) : (s.writeReg k v).dmam = s.dmam := rfl
@[simp] theorem State.writeReg_intnest (s : State) {n : Nat} (k : RegCode) (v : BitVec n) : (s.writeReg k v).intnest = s.intnest := rfl
@[simp] theorem State.writeReg_mem (s : State) {n : Nat} (k : RegCode) (v : BitVec n) : (s.writeReg k v).mem = s.mem := rfl
@[simp] theorem State.writeReg_launch (s : State) {n : Nat} (k : RegCode) (v : BitVec n) : (s.writeReg k v).launch = s.launch := rfl
@[simp] theorem State.writeReg_draws (s : State) {n : Nat} (k : RegCode) (v : BitVec n) : (s.writeReg k v).draws = s.draws := rfl

/-! ## drawBit -/

@[simp] theorem State.drawBit_regs (s : State) : (s.drawBit.2).regs = s.regs := rfl
@[simp] theorem State.drawBit_pc (s : State) : (s.drawBit.2).pc = s.pc := rfl
@[simp] theorem State.drawBit_iffLevel (s : State) : (s.drawBit.2).iffLevel = s.iffLevel := rfl
@[simp] theorem State.drawBit_rfp (s : State) : (s.drawBit.2).rfp = s.rfp := rfl
@[simp] theorem State.drawBit_f (s : State) : (s.drawBit.2).f = s.f := rfl
@[simp] theorem State.drawBit_fAlt (s : State) : (s.drawBit.2).fAlt = s.fAlt := rfl
@[simp] theorem State.drawBit_dmas (s : State) : (s.drawBit.2).dmas = s.dmas := rfl
@[simp] theorem State.drawBit_dmad (s : State) : (s.drawBit.2).dmad = s.dmad := rfl
@[simp] theorem State.drawBit_dmac (s : State) : (s.drawBit.2).dmac = s.dmac := rfl
@[simp] theorem State.drawBit_dmam (s : State) : (s.drawBit.2).dmam = s.dmam := rfl
@[simp] theorem State.drawBit_intnest (s : State) : (s.drawBit.2).intnest = s.intnest := rfl
@[simp] theorem State.drawBit_mem (s : State) : (s.drawBit.2).mem = s.mem := rfl
@[simp] theorem State.drawBit_launch (s : State) : (s.drawBit.2).launch = s.launch := rfl
@[simp] theorem State.drawBit_draws (s : State) : (s.drawBit.2).draws = s.draws + 1 := rfl

/-! ## drawValue -/

@[simp] theorem State.drawValue_regs (s : State) (w : Nat) : ((s.drawValue w).2).regs = s.regs := rfl
@[simp] theorem State.drawValue_pc (s : State) (w : Nat) : ((s.drawValue w).2).pc = s.pc := rfl
@[simp] theorem State.drawValue_iffLevel (s : State) (w : Nat) : ((s.drawValue w).2).iffLevel = s.iffLevel := rfl
@[simp] theorem State.drawValue_rfp (s : State) (w : Nat) : ((s.drawValue w).2).rfp = s.rfp := rfl
@[simp] theorem State.drawValue_f (s : State) (w : Nat) : ((s.drawValue w).2).f = s.f := rfl
@[simp] theorem State.drawValue_fAlt (s : State) (w : Nat) : ((s.drawValue w).2).fAlt = s.fAlt := rfl
@[simp] theorem State.drawValue_dmas (s : State) (w : Nat) : ((s.drawValue w).2).dmas = s.dmas := rfl
@[simp] theorem State.drawValue_dmad (s : State) (w : Nat) : ((s.drawValue w).2).dmad = s.dmad := rfl
@[simp] theorem State.drawValue_dmac (s : State) (w : Nat) : ((s.drawValue w).2).dmac = s.dmac := rfl
@[simp] theorem State.drawValue_dmam (s : State) (w : Nat) : ((s.drawValue w).2).dmam = s.dmam := rfl
@[simp] theorem State.drawValue_intnest (s : State) (w : Nat) : ((s.drawValue w).2).intnest = s.intnest := rfl
@[simp] theorem State.drawValue_mem (s : State) (w : Nat) : ((s.drawValue w).2).mem = s.mem := rfl
@[simp] theorem State.drawValue_launch (s : State) (w : Nat) : ((s.drawValue w).2).launch = s.launch := rfl
@[simp] theorem State.drawValue_draws (s : State) (w : Nat) : ((s.drawValue w).2).draws = s.draws + 1 := rfl

/-! ## drawBitIf: every field but `draws` is kept -/

@[simp] theorem State.drawBitIf_regs (s : State) (c : Bool) : (s.drawBitIf c).2.regs = s.regs := by
  cases c <;> rfl
@[simp] theorem State.drawBitIf_pc (s : State) (c : Bool) : (s.drawBitIf c).2.pc = s.pc := by
  cases c <;> rfl
@[simp] theorem State.drawBitIf_iffLevel (s : State) (c : Bool) : (s.drawBitIf c).2.iffLevel = s.iffLevel := by
  cases c <;> rfl
@[simp] theorem State.drawBitIf_rfp (s : State) (c : Bool) : (s.drawBitIf c).2.rfp = s.rfp := by
  cases c <;> rfl
@[simp] theorem State.drawBitIf_f (s : State) (c : Bool) : (s.drawBitIf c).2.f = s.f := by
  cases c <;> rfl
@[simp] theorem State.drawBitIf_fAlt (s : State) (c : Bool) : (s.drawBitIf c).2.fAlt = s.fAlt := by
  cases c <;> rfl
@[simp] theorem State.drawBitIf_dmas (s : State) (c : Bool) : (s.drawBitIf c).2.dmas = s.dmas := by
  cases c <;> rfl
@[simp] theorem State.drawBitIf_dmad (s : State) (c : Bool) : (s.drawBitIf c).2.dmad = s.dmad := by
  cases c <;> rfl
@[simp] theorem State.drawBitIf_dmac (s : State) (c : Bool) : (s.drawBitIf c).2.dmac = s.dmac := by
  cases c <;> rfl
@[simp] theorem State.drawBitIf_dmam (s : State) (c : Bool) : (s.drawBitIf c).2.dmam = s.dmam := by
  cases c <;> rfl
@[simp] theorem State.drawBitIf_intnest (s : State) (c : Bool) : (s.drawBitIf c).2.intnest = s.intnest := by
  cases c <;> rfl
@[simp] theorem State.drawBitIf_mem (s : State) (c : Bool) : (s.drawBitIf c).2.mem = s.mem := by
  cases c <;> rfl
@[simp] theorem State.drawBitIf_launch (s : State) (c : Bool) : (s.drawBitIf c).2.launch = s.launch := by
  cases c <;> rfl

/-! ## The auto-modified register -/

@[simp] theorem Mem.before_pc (s : State) (m : Mem) : (Mem.before s m).pc = s.pc := by
  cases m <;> rfl
@[simp] theorem Mem.after_pc (s : State) (m : Mem) : (Mem.after s m).pc = s.pc := by
  cases m <;> rfl
@[simp] theorem Mem.before_iffLevel (s : State) (m : Mem) : (Mem.before s m).iffLevel = s.iffLevel := by
  cases m <;> rfl
@[simp] theorem Mem.after_iffLevel (s : State) (m : Mem) : (Mem.after s m).iffLevel = s.iffLevel := by
  cases m <;> rfl
@[simp] theorem Mem.before_rfp (s : State) (m : Mem) : (Mem.before s m).rfp = s.rfp := by
  cases m <;> rfl
@[simp] theorem Mem.after_rfp (s : State) (m : Mem) : (Mem.after s m).rfp = s.rfp := by
  cases m <;> rfl
@[simp] theorem Mem.before_f (s : State) (m : Mem) : (Mem.before s m).f = s.f := by
  cases m <;> rfl
@[simp] theorem Mem.after_f (s : State) (m : Mem) : (Mem.after s m).f = s.f := by
  cases m <;> rfl
@[simp] theorem Mem.before_fAlt (s : State) (m : Mem) : (Mem.before s m).fAlt = s.fAlt := by
  cases m <;> rfl
@[simp] theorem Mem.after_fAlt (s : State) (m : Mem) : (Mem.after s m).fAlt = s.fAlt := by
  cases m <;> rfl
@[simp] theorem Mem.before_dmas (s : State) (m : Mem) : (Mem.before s m).dmas = s.dmas := by
  cases m <;> rfl
@[simp] theorem Mem.after_dmas (s : State) (m : Mem) : (Mem.after s m).dmas = s.dmas := by
  cases m <;> rfl
@[simp] theorem Mem.before_dmad (s : State) (m : Mem) : (Mem.before s m).dmad = s.dmad := by
  cases m <;> rfl
@[simp] theorem Mem.after_dmad (s : State) (m : Mem) : (Mem.after s m).dmad = s.dmad := by
  cases m <;> rfl
@[simp] theorem Mem.before_dmac (s : State) (m : Mem) : (Mem.before s m).dmac = s.dmac := by
  cases m <;> rfl
@[simp] theorem Mem.after_dmac (s : State) (m : Mem) : (Mem.after s m).dmac = s.dmac := by
  cases m <;> rfl
@[simp] theorem Mem.before_dmam (s : State) (m : Mem) : (Mem.before s m).dmam = s.dmam := by
  cases m <;> rfl
@[simp] theorem Mem.after_dmam (s : State) (m : Mem) : (Mem.after s m).dmam = s.dmam := by
  cases m <;> rfl
@[simp] theorem Mem.before_intnest (s : State) (m : Mem) : (Mem.before s m).intnest = s.intnest := by
  cases m <;> rfl
@[simp] theorem Mem.after_intnest (s : State) (m : Mem) : (Mem.after s m).intnest = s.intnest := by
  cases m <;> rfl
@[simp] theorem Mem.before_mem (s : State) (m : Mem) : (Mem.before s m).mem = s.mem := by
  cases m <;> rfl
@[simp] theorem Mem.after_mem (s : State) (m : Mem) : (Mem.after s m).mem = s.mem := by
  cases m <;> rfl
@[simp] theorem Mem.before_launch (s : State) (m : Mem) : (Mem.before s m).launch = s.launch := by
  cases m <;> rfl
@[simp] theorem Mem.after_launch (s : State) (m : Mem) : (Mem.after s m).launch = s.launch := by
  cases m <;> rfl
@[simp] theorem Mem.before_draws (s : State) (m : Mem) : (Mem.before s m).draws = s.draws := by
  cases m <;> rfl
@[simp] theorem Mem.after_draws (s : State) (m : Mem) : (Mem.after s m).draws = s.draws := by
  cases m <;> rfl

end Sys2Proof.Machine
end

