-- ==== Sys2Proof/Laws/Memory.lean ====
section
/-! SUPPORT. Memory: read after write, other addresses, and the canonical form, which every memory operation keeps. -/

namespace Sys2Proof.Machine

theorem Memory.read_write_other (m : Memory) (a a' : Nat) (b : Byte) (h : a' ≠ a) :
    Memory.read (Memory.write m a b) a' = Memory.read m a' := by
  induction m with
  | nil => by_cases hb : b = Config.unlisted <;> simp [Memory.write, Memory.read, hb, h]
  | cons p m ih =>
    obtain ⟨k, c⟩ := p
    simp only [Memory.write]
    split
    · split <;> simp [Memory.read, h]
    · split
      · rename_i hk
        subst hk
        split <;> simp [Memory.read, h]
      · simp [Memory.read, ih]

theorem Memory.wfFrom_mono {lo lo' : Nat} {m : Memory} (h : Memory.wfFrom lo m = true) (hl : lo' ≤ lo) :
    Memory.wfFrom lo' m = true := by
  cases m with
  | nil => rfl
  | cons p m =>
    simp only [Memory.wfFrom, Bool.and_eq_true, decide_eq_true_eq] at h ⊢
    exact ⟨⟨le_trans hl h.1.1, h.1.2⟩, h.2⟩

theorem Memory.read_below {lo a : Nat} {m : Memory} (h : Memory.wfFrom lo m = true) (ha : a < lo) :
    Memory.read m a = Config.unlisted := by
  induction m generalizing lo with
  | nil => rfl
  | cons p m ih =>
    obtain ⟨k, c⟩ := p
    simp only [Memory.wfFrom, Bool.and_eq_true, decide_eq_true_eq] at h
    have hne : a ≠ k := by omega
    simpa [Memory.read, hne] using ih h.2 (by omega)

theorem Memory.read_write_same {m : Memory} (hm : m.wf = true) (a : Nat) (b : Byte) :
    Memory.read (Memory.write m a b) a = b := by
  suffices h : ∀ lo, Memory.wfFrom lo m = true → Memory.read (Memory.write m a b) a = b from h 0 hm
  intro lo h
  induction m generalizing lo with
  | nil => by_cases hb : b = Config.unlisted <;> simp [Memory.write, Memory.read, hb]
  | cons p m ih =>
    obtain ⟨k, c⟩ := p
    have hw := h
    simp only [Memory.wfFrom, Bool.and_eq_true, decide_eq_true_eq] at h
    simp only [Memory.write]
    split
    · rename_i hlt
      split
      · rename_i hb
        have hne : a ≠ k := by omega
        simp only [Memory.read, hne, if_false]
        rw [hb]
        exact Memory.read_below h.2 (by omega)
      · simp [Memory.read]
    · split
      · rename_i hk
        subst hk
        split
        · rename_i hb
          rw [hb]
          exact Memory.read_below h.2 (by omega)
        · simp [Memory.read]
      · rename_i hne
        simp only [Memory.read, hne, if_false]
        exact ih (Memory.wfFrom_mono h.2 (Nat.zero_le _)) _ h.2

theorem Memory.wfFrom_write {lo a : Nat} {m : Memory} {b : Byte} (h : Memory.wfFrom lo m = true) (ha : lo ≤ a) :
    Memory.wfFrom lo (Memory.write m a b) = true := by
  induction m generalizing lo with
  | nil => by_cases hb : b = Config.unlisted <;> simp [Memory.write, Memory.wfFrom, hb, ha]
  | cons p m ih =>
    obtain ⟨k, c⟩ := p
    have hw := h
    simp only [Memory.wfFrom, Bool.and_eq_true, decide_eq_true_eq] at h
    simp only [Memory.write]
    split
    · split
      · exact hw
      · rename_i hlt hb
        simp only [Memory.wfFrom, Bool.and_eq_true, decide_eq_true_eq]
        exact ⟨⟨ha, hb⟩, ⟨by omega, h.1.2⟩, h.2⟩
    · split
      · rename_i hk
        subst hk
        split
        · exact Memory.wfFrom_mono h.2 (by omega)
        · rename_i hb
          simp only [Memory.wfFrom, Bool.and_eq_true, decide_eq_true_eq]
          exact ⟨⟨ha, hb⟩, h.2⟩
      · simp only [Memory.wfFrom, Bool.and_eq_true, decide_eq_true_eq]
        exact ⟨h.1, ih h.2 (by omega)⟩

/-- A write keeps the canonical form. -/
theorem Memory.wf_write {m : Memory} (h : m.wf = true) (a : Nat) (b : Byte) : (m.write a b).wf = true :=
  Memory.wfFrom_write h (Nat.zero_le a)

/-- A write below the bound keeps every listed address below it. -/
theorem Memory.below_write {m : Memory} {bound : Nat} (h : m.below bound = true) {a : Nat} (ha : a < bound) (b : Byte) :
    (m.write a b).below bound = true := by
  induction m with
  | nil => by_cases hb : b = Config.unlisted <;> simp [Memory.write, Memory.below, hb, ha]
  | cons p m ih =>
    obtain ⟨k, c⟩ := p
    simp only [Memory.below, List.all_cons, Bool.and_eq_true, decide_eq_true_eq] at h ih ⊢
    have ih := ih h.2
    simp only [Memory.write]
    split
    · split <;> simp [h.1, h.2, ha]
    · split
      · split <;> simp [h.2, ha]
      · simp [h.1, ih]

theorem State.addr_lt (s : State) (a : Word32) (i : Nat) : s.addr a i < s.launch.space :=
  Nat.mod_lt _ (Nat.two_pow_pos _)

/-- Addresses depend on the launch only. -/
theorem State.addr_congr {s t : State} (h : t.launch = s.launch) (a : Word32) (i : Nat) : t.addr a i = s.addr a i := by
  simp [State.addr, h]

/-- Two of the `k` addresses from `a` on differ where the address space has at least `k` bytes. -/
theorem State.addr_ne {s : State} {a : Word32} {i j k : Nat} (hk : k ≤ s.launch.space) (hi : i < k) (hj : j < k) (h : i ≠ j) :
    s.addr a i ≠ s.addr a j := by
  intro he
  have h1 : (a.toNat + i) % s.launch.space = (a.toNat + j) % s.launch.space := he
  rcases Nat.lt_or_gt_of_ne h with hij | hij
  · have := (Nat.modEq_iff_dvd' (by omega : a.toNat + i ≤ a.toNat + j)).1 h1
    have := Nat.le_of_dvd (by omega) this
    omega
  · have := (Nat.modEq_iff_dvd' (by omega : a.toNat + j ≤ a.toNat + i)).1 h1.symm
    have := Nat.le_of_dvd (by omega) this
    omega

theorem State.storeLE_wf (s : State) (a : Word32) (i k v : Nat) {m : Memory} (h : m.wf = true) :
    (s.storeLE a i k v m).wf = true := by
  induction k generalizing i v m with
  | zero => exact h
  | succ k ih => exact ih _ _ (Memory.wf_write h _ _)

theorem State.storeLE_below (s : State) (a : Word32) (i k v : Nat) {m : Memory} (h : m.below s.launch.space = true) :
    (s.storeLE a i k v m).below s.launch.space = true := by
  induction k generalizing i v m with
  | zero => exact h
  | succ k ih => exact ih _ _ (Memory.below_write h (s.addr_lt a i) _)

/-- A store leaves every other address alone. -/
theorem State.storeLE_other (s : State) (a : Word32) (i k v : Nat) (m : Memory) {x : Nat}
    (h : ∀ j, i ≤ j → j < i + k → x ≠ s.addr a j) : Memory.read (s.storeLE a i k v m) x = Memory.read m x := by
  induction k generalizing i v m with
  | zero => rfl
  | succ k ih =>
    simp only [State.storeLE]
    rw [ih _ _ _ fun j h1 h2 => h j (by omega) (by omega)]
    exact Memory.read_write_other _ _ _ _ (h i (Nat.le_refl _) (by omega))

/-- A store leaves its bytes, least significant first. -/
theorem State.storeLE_byte (s : State) (a : Word32) (i k v : Nat) {m : Memory} (hm : m.wf = true)
    (hs : i + k ≤ s.launch.space) {j : Nat} (hj : j < k) :
    Memory.read (s.storeLE a i k v m) (s.addr a (i + j)) = BitVec.ofNat 8 (v / 256 ^ j) := by
  induction k generalizing i v m j with
  | zero => omega
  | succ k ih =>
    simp only [State.storeLE]
    cases j with
    | zero =>
      rw [State.storeLE_other _ _ _ _ _ _ fun j h1 h2 => State.addr_ne hs (by omega) (by omega) (by omega)]
      simp [Memory.read_write_same hm]
    | succ j =>
      have h := ih (i := i + 1) (v := v / 256) (Memory.wf_write hm (s.addr a i) (BitVec.ofNat 8 v)) (by omega)
        (show j < k by omega)
      rw [show i + (j + 1) = i + 1 + j by omega, h, Nat.div_div_eq_div_mul, ← Nat.pow_succ']

end Sys2Proof.Machine
end

