-- ==== Sys2Proof/Laws/Fetch.lean ====
section
/-! SUPPORT. Fetching, and placing a program: what the launch of `loadProgram` holds and that it keeps the canonical form. -/

namespace Sys2Proof.Machine

theorem State.placeFrom_wf (s : State) (a : Word32) (i : Nat) (bs : List Byte) {m : Memory} (h : m.wf = true) :
    (s.placeFrom a i bs m).wf = true := by
  induction bs generalizing i m with
  | nil => exact h
  | cons b bs ih => exact ih _ (Memory.wf_write h _ _)

theorem State.placeFrom_below (s : State) (a : Word32) (i : Nat) (bs : List Byte) {m : Memory}
    (h : m.below s.launch.space = true) : (s.placeFrom a i bs m).below s.launch.space = true := by
  induction bs generalizing i m with
  | nil => exact h
  | cons b bs ih => exact ih _ (Memory.below_write h (s.addr_lt a i) _)

/-- Placing bytes leaves every other address alone. -/
theorem State.placeFrom_other (s : State) (a : Word32) (i : Nat) (bs : List Byte) (m : Memory) {x : Nat}
    (h : ∀ j, i ≤ j → j < i + bs.length → x ≠ s.addr a j) : Memory.read (s.placeFrom a i bs m) x = Memory.read m x := by
  induction bs generalizing i m with
  | nil => rfl
  | cons b bs ih =>
    rw [List.length_cons] at h
    rw [State.placeFrom, ih _ _ fun j h1 h2 => h j (by omega) (by omega)]
    exact Memory.read_write_other _ _ _ _ (h i (Nat.le_refl _) (by omega))

/-- Placed bytes stand where they were placed. -/
theorem State.placeFrom_byte (s : State) (a : Word32) (i : Nat) (bs : List Byte) {m : Memory} (hm : m.wf = true)
    (hs : i + bs.length ≤ s.launch.space) {j : Nat} {b : Byte} (hb : bs[j]? = some b) :
    Memory.read (s.placeFrom a i bs m) (s.addr a (i + j)) = b := by
  induction bs generalizing i m j with
  | nil => simp at hb
  | cons c bs ih =>
    rw [List.length_cons] at hs
    rw [State.placeFrom]
    cases j with
    | zero =>
      rw [State.placeFrom_other _ _ _ _ _ fun j h1 h2 => State.addr_ne hs (by omega) (by omega) (by omega)]
      simp only [List.getElem?_cons_zero, Option.some.injEq] at hb
      simp [Memory.read_write_same hm, hb]
    | succ j =>
      simp only [List.getElem?_cons_succ] at hb
      have h := ih (i := i + 1) (Memory.wf_write hm (s.addr a i) c) (by omega) hb
      rw [show i + (j + 1) = i + 1 + j by omega, h]

/-- Loading a program keeps the canonical form. -/
theorem State.loadProgram_wf {s : State} (h : s.mem.wf = true) (a : Word32) (bs : List Byte) :
    (s.loadProgram a bs).mem.wf = true := State.placeFrom_wf s a 0 bs h

/-- A loaded program lies in TEXT. -/
theorem State.loadProgram_isText (s : State) (a : Word32) (bs : List Byte) {j : Nat} (hj : j < bs.length) :
    (s.loadProgram a bs).launch.isText (s.addr a j) = true := by
  have hr : (s.rangesFrom a bs.length).any (fun r => r.has (s.addr a j)) = true := by
    simp only [State.rangesFrom, List.any_map, List.any_eq_true, List.mem_range, Function.comp]
    exact ⟨j, hj, by simp [Range.has]⟩
  simp [State.loadProgram, Launch.isText, Launch.admits, List.any_append, hr]

/-- A fetch reads bytes that lie in TEXT. -/
theorem State.fetchFrom_of_isText (s : State) (i : Nat) (bs : List Byte)
    (h : ∀ j b, bs[j]? = some b → s.launch.isText (s.addr s.pc (i + j)) = true ∧ s.byteAt (s.addr s.pc (i + j)) = b)
    (k : Nat) : s.fetchFrom i (bs.length + k) = bs ++ s.fetchFrom (i + bs.length) k := by
  induction bs generalizing i with
  | nil => simp
  | cons b bs ih =>
    obtain ⟨h1, h2⟩ := h 0 b rfl
    rw [Nat.add_zero] at h1 h2
    have := ih (i + 1) fun j b' hb => by
      have := h (j + 1) b' (by simpa using hb)
      rwa [show i + (j + 1) = i + 1 + j by omega] at this
    rw [List.length_cons, show bs.length + 1 + k = (bs.length + k) + 1 by omega, State.fetchFrom, if_pos h1, h2, this,
      List.cons_append, show i + 1 + bs.length = i + (bs.length + 1) by omega]

/-- A load keeps TEXT within the admitted addresses (R242). -/
theorem State.loadProgram_textAdmitted {s : State} (h : s.launch.textAdmitted) (a : Word32) (bs : List Byte) :
    (s.loadProgram a bs).launch.textAdmitted := by
  intro x
  simp only [State.loadProgram, Launch.admits, List.any_append, Bool.or_eq_true]
  rintro (h1 | h1)
  · exact .inl h1
  · exact .inr (h x h1)

/-- A load keeps the parameters of the run well formed. -/
theorem State.loadProgram_launch_wf {s : State} (h : s.launch.wf = true) (a : Word32) (bs : List Byte) :
    (s.loadProgram a bs).launch.wf = true := by
  have hs : 0 < s.launch.space := Nat.pow_pos (by decide)
  simp only [Launch.wf, Bool.and_eq_true, decide_eq_true_eq, List.all_eq_true] at h ⊢
  simp only [State.loadProgram, State.rangesFrom, List.mem_append, List.mem_map, List.mem_range]
  obtain ⟨⟨h1, h2⟩, h3⟩ := h
  refine ⟨⟨h1, ?_⟩, ?_⟩
  · rintro x (⟨i, _, rfl⟩ | hx)
    · exact Nat.mod_lt _ hs
    · exact h2 x hx
  · rintro x (⟨i, _, rfl⟩ | hx)
    · exact Nat.mod_lt _ hs
    · exact h3 x hx

/-- The memory of the reset state is in canonical form. -/
theorem State.reset_mem_wf : State.reset.mem.wf = true := rfl

end Sys2Proof.Machine
end

