-- ==== Sys2Proof/Laws/Flags.lean ====
section
/-! SUPPORT. The flag functions and the operations that write F: their results and what their flags say (R30 to R33). -/

namespace Sys2Proof.Machine

/-- A state with other flags and another draw count. -/
def State.flagged (s : State) (f : Flags) (d : Nat) : State := { s with f := f, draws := d }

/-! ## The operations that write F -/

theorem addRes_eq {n : Nat} (a b : BitVec n) (c : Bool) : addRes a b c = a + b + BitVec.ofNat n c.toNat := by
  simp [addRes, BitVec.ofNat_add]

/-- ADD gives the sum and changes the flags and the draw count only. -/
theorem aluAdd_eq (n : Nat) (a b : BitVec n) (s : State) : ∃ u d,
    aluAdd n a b s = (a + b, s.flagged (addFlags a b false u s.f) d) := by
  refine ⟨(s.drawBitIf (n == 32)).1, (s.drawBitIf (n == 32)).2.draws, ?_⟩
  have h : addRes a b false = a + b := by simp [addRes, BitVec.ofNat_add]
  simp only [aluAdd, h]
  congr 1
  unfold State.drawBitIf
  split <;> rfl

/-- ADC gives the sum with the carry before and changes the flags and the draw count only. -/
theorem aluAdc_eq (n : Nat) (a b : BitVec n) (s : State) : ∃ u d,
    aluAdc n a b s = (a + b + BitVec.ofNat n s.f.c.toNat, s.flagged (addFlags a b s.f.c u s.f) d) := by
  refine ⟨(s.drawBitIf (n == 32)).1, (s.drawBitIf (n == 32)).2.draws, ?_⟩
  simp only [aluAdc]
  congr 1
  · exact addRes_eq a b s.f.c
  · unfold State.drawBitIf
    split <;> rfl

/-- AND gives the conjunction and changes the flags and the draw count only. -/
theorem aluAnd_eq (n : Nat) (a b : BitVec n) (s : State) : ∃ u d,
    aluAnd n a b s = (a &&& b, s.flagged (andFlags (a &&& b) u s.f) d) := by
  refine ⟨(s.drawBitIf (n == 32)).1, (s.drawBitIf (n == 32)).2.draws, ?_⟩
  simp only [aluAnd]
  congr 1
  unfold State.drawBitIf
  split <;> rfl

/-- A subtraction changes the flags and the draw count only. -/
theorem aluSub_eq (n : Nat) (a b : BitVec n) (s : State) : ∃ u d,
    aluSub n a b s = (subRes a b false, s.flagged (subFlags a b false u s.f) d) := by
  refine ⟨(s.drawBitIf (n == 32)).1, (s.drawBitIf (n == 32)).2.draws, ?_⟩
  simp only [aluSub]
  congr 1
  unfold State.drawBitIf
  split <;> rfl

theorem subRes_eq {n : Nat} (a b : BitVec n) : subRes a b false = a - b := by
  apply BitVec.eq_of_toInt_eq
  simp [subRes, BitVec.toInt_sub]
  rw [BitVec.toInt_eq_toNat_bmod a, BitVec.toInt_eq_toNat_bmod b]
  simp

/-! ## What the flag functions say -/

/-- `addFlags` sets the flags that R30 describes. -/
theorem addFlags_say (z : Size) (a b : BitVec z.bits) (ci u : Bool) (f : Flags) :
    AddFlagsSay z a b (a + b + BitVec.ofNat z.bits ci.toNat) ci f (addFlags a b ci u f) := by
  have hr := addRes_eq a b ci
  refine ⟨by simp [addFlags, hr], by simp [addFlags, hr], ?_, ?_, rfl, by simp [addFlags], rfl⟩
  · intro hz
    cases z <;> simp_all [addFlags, Size.bits]
  · have ha := a.toInt_lt
    have ha' := a.le_toInt
    have hb := b.toInt_lt
    have hb' := b.le_toInt
    have e : (a + b + BitVec.ofNat z.bits ci.toNat).toInt = (a.toInt + b.toInt + ci.toNat).bmod (2 ^ z.bits) := by
      rw [BitVec.toInt_add, BitVec.toInt_ofNat', Int.add_bmod_bmod, BitVec.toInt_add, Int.bmod_add_bmod]
    simp only [addFlags, e, signedOverflow, decide_eq_true_eq]
    have hc : (ci.toNat : Int) = 0 ∨ (ci.toNat : Int) = 1 := by cases ci <;> simp
    cases z <;> simp only [Size.bits] at * <;> norm_num at * <;> (rw [Int.bmod_def]; split <;> omega)

/-- `subFlags` sets the flags that R31 describes. -/
theorem subFlags_say (z : Size) (a b : BitVec z.bits) (u : Bool) (f : Flags) :
    SubFlagsSay z a b f (subFlags a b false u f) ∧ ((subFlags a b false u f).c = true ↔ a.toNat < b.toNat) := by
  have hr := subRes_eq a b
  refine ⟨⟨by simp [subFlags, hr], ?_, ?_, ?_, rfl, rfl⟩, by simp [subFlags]⟩
  · simp only [subFlags, hr, decide_eq_true_eq]
    exact sub_eq_zero
  · intro hz
    cases z <;> simp_all [subFlags, Size.bits]
  · have ha := a.toInt_lt
    have ha' := a.le_toInt
    have hb := b.toInt_lt
    have hb' := b.le_toInt
    have e : (a - b).toInt = (a.toInt - b.toInt).bmod (2 ^ z.bits) := by
      simp [BitVec.toInt_sub]
    simp only [subFlags, e, signedOverflow, decide_eq_true_eq]
    cases z <;> simp only [Size.bits] at * <;> norm_num at * <;> (rw [Int.bmod_def]; split <;> omega)

theorem countOnes_eq {n : Nat} (v : BitVec n) (k : Nat) :
    countOnes v k = ((List.range k).filter fun i => v.getLsbD i).length := by
  induction k with
  | zero => rfl
  | succ k ih =>
    rw [List.range_succ, List.filter_append, List.length_append, countOnes, ih]
    cases h : v.getLsbD k <;> simp [h]

/-- `andFlags` sets the flags that R32 describes. -/
theorem andFlags_say (z : Size) (v : BitVec z.bits) (u : Bool) (f : Flags) : AndFlagsSay z v f (andFlags v u f) := by
  refine ⟨rfl, by simp [andFlags], rfl, ?_, rfl, rfl, rfl⟩
  intro hz
  have : z.bits ≠ 32 := by cases z <;> simp_all [Size.bits]
  simp [andFlags, this, parityEven, countOnes_eq, onesCount]

theorem parityEven_iff {n : Nat} (v : BitVec n) : parityEven v = true ↔ onesCount v % 2 = 0 := by
  simp [parityEven, countOnes_eq, onesCount]

end Sys2Proof.Machine
end

