-- ==== Sys2Proof/Laws/Registers.lean ====
section
/-! SUPPORT. Registers: a register reads back what was written, and a write changes only the bytes it names (R21 to R24). -/

namespace Sys2Proof.Machine

/-- Every bit of a 32-bit register after a field is replaced. -/
theorem getLsbD_fieldPut {n : Nat} (x : Word32) (off : BitVec 2) (v : BitVec n) (i : Nat) :
    (fieldPut x off v).getLsbD i =
      if i < 32 ∧ 8 * off.toNat ≤ i ∧ i < 8 * off.toNat + n then v.getLsbD (i - 8 * off.toNat) else x.getLsbD i := by
  by_cases h1 : i < 32
  · by_cases h2 : 8 * off.toNat ≤ i
    · by_cases h3 : i < 8 * off.toNat + n
      · have h4 : i - 8 * off.toNat < n := by omega
        simp [fieldPut, h1, h2, h3, h4, Nat.not_lt.2 h2]
      · simp [fieldPut, h1, h2, h3, Nat.not_lt.2 h2, BitVec.getLsbD_of_ge _ _ (by omega : n ≤ i - 8 * off.toNat)]
    · simp [fieldPut, h1, h2, Nat.not_le.1 h2]
  · simp [h1, BitVec.getLsbD_of_ge _ _ (Nat.not_lt.1 h1)]

/-- A field reads back what was written to it. -/
theorem fieldGet_fieldPut {n : Nat} (x : Word32) (off : BitVec 2) (v : BitVec n) (h : 8 * off.toNat + n ≤ 32) :
    fieldGet n (fieldPut x off v) off = v := by
  apply BitVec.eq_of_getLsbD_eq
  intro i hi
  have h1 : 8 * off.toNat + i < 32 := by omega
  simp only [fieldGet, BitVec.getLsbD_extractLsb', hi, decide_true, Bool.true_and, getLsbD_fieldPut]
  rw [if_pos ⟨h1, by omega, by omega⟩, Nat.add_sub_cancel_left]

/-- A byte outside the field is kept. -/
theorem byte_fieldPut_other {n : Nat} (x : Word32) (off : BitVec 2) (v : BitVec n) (hn : n % 8 = 0) (j : Nat)
    (h : ¬ (off.toNat ≤ j ∧ j < off.toNat + n / 8)) :
    (fieldPut x off v).extractLsb' (8 * j) 8 = x.extractLsb' (8 * j) 8 := by
  apply BitVec.eq_of_getLsbD_eq
  intro i hi
  have h1 : ¬ (8 * j + i < 32 ∧ 8 * off.toNat ≤ 8 * j + i ∧ 8 * j + i < 8 * off.toNat + n) := by omega
  simp only [BitVec.getLsbD_extractLsb', getLsbD_fieldPut, if_neg h1]

/-- Writing back what a field holds changes nothing. -/
theorem fieldPut_fieldGet {n : Nat} (x : Word32) (off : BitVec 2) : fieldPut x off (fieldGet n x off) = x := by
  apply BitVec.eq_of_getLsbD_eq
  intro i hi
  rw [getLsbD_fieldPut]
  split
  · rename_i h
    have h1 : i - 8 * off.toNat < n := by omega
    simp [fieldGet, h1, Nat.add_sub_cancel' h.2.1]
  · rfl

/-- Two 32-bit registers with the same four bytes are equal. -/
theorem eq_of_bytes_eq {x y : Word32} (h : ∀ j : Fin 4, x.extractLsb' (8 * j.val) 8 = y.extractLsb' (8 * j.val) 8) :
    x = y := by
  apply BitVec.eq_of_getLsbD_eq
  intro i hi
  have hb := congrArg (fun b : BitVec 8 => b.getLsbD (i % 8)) (h ⟨i / 8, by omega⟩)
  have h1 : i % 8 < 8 := Nat.mod_lt _ (by decide)
  simpa [h1, Nat.div_add_mod] using hb

/-- The storage after a write of a register. -/
@[simp] theorem State.setLong_get (s : State) (r : LongReg) (v : Word32) (i : Fin 20) :
    (s.setLong r v).regs[i] = if s.slot r = i then v else s.regs[i] := by
  simp [Vector.getElem_set, Fin.ext_iff]

theorem State.slot_congr {s t : State} (h : t.rfp = s.rfp) (r : LongReg) : t.slot r = s.slot r := by
  simp [State.slot, h]

@[simp] theorem State.setLong_slot (s : State) (r r' : LongReg) (v : Word32) : (s.setLong r v).slot r' = s.slot r' := rfl

@[simp] theorem State.setF_slot (s : State) (g : Flags) (r : LongReg) : (s.setF g).slot r = s.slot r := rfl

@[simp] theorem State.jump_slot (s : State) (a : Word32) (r : LongReg) : (s.jump a).slot r = s.slot r := rfl

@[simp] theorem State.writeReg_slot {n : Nat} (s : State) (k : RegCode) (v : BitVec n) (r : LongReg) :
    (s.writeReg k v).slot r = s.slot r := rfl

@[simp] theorem State.setLong_same (s : State) (r : LongReg) (v : Word32) : (s.setLong r v).long r = v := by
  simp [State.long]

/-- A register with another storage is kept. -/
theorem State.setLong_other (s : State) (r r' : LongReg) (v : Word32) (h : s.slot r ≠ s.slot r') :
    (s.setLong r v).long r' = s.long r' := by
  show (s.setLong r v).regs[s.slot r'] = _
  rw [State.setLong_get, if_neg h]
  rfl

/-- `n` bits from the code's offset on lie inside its 32-bit register. -/
def codeFits (n : Nat) (k : RegCode) : Prop := 8 * k.off.toNat + n ≤ 32

theorem codeFits_of_aligned {k : RegCode} {z : Size} (h : k.aligned z = true) : codeFits z.bits k := by
  have h0 := k.off.isLt
  cases z <;> simp only [RegCode.aligned, Bool.or_eq_true, decide_eq_true_eq] at h <;>
    simp only [codeFits, Size.bits]
  · omega
  · rcases h with h | h <;> simp [h]
  · simp [h]

/-- The short codes name aligned registers (R22). -/
theorem shortCode_aligned (z : Size) (c : BitVec 3) : (shortCode z c).aligned z = true := by
  cases z <;> simp [shortCode, RegCode.aligned]

theorem selCode_aligned {z : Size} {r : RSel} (h : r.wf z = true) : (selCode z r).aligned z = true := by
  cases r with
  | short c => exact shortCode_aligned z c
  | ext k => exact h

/-- The code that names a dividend is aligned to twice the operation size (R141). -/
theorem dividend_short_aligned {z : SizeBW} {R : BitVec 3} (h : dividendCodeOk z R = true) :
    (shortCode z.size R).aligned z.double = true := by
  cases z
  · simp only [dividendCodeOk] at h
    simp [shortCode, SizeBW.size, RegCode.aligned, SizeBW.double, h]
  · simp [shortCode, SizeBW.size, RegCode.aligned, SizeBW.double]

theorem dividend_sel_aligned {z : SizeBW} {r : RSel} (h : r.dividendOk z = true) :
    (selCode z.size r).aligned z.double = true := by
  cases r with
  | short c => exact dividend_short_aligned h
  | ext k => exact h

theorem SizeBW.double_bits (z : SizeBW) : z.double.bits = z.bits + z.bits := by cases z <;> rfl

/-- A register reads back what was written to it (R7). -/
theorem State.readReg_writeReg {n : Nat} (s : State) (k : RegCode) (v : BitVec n) (h : codeFits n k) :
    (s.writeReg k v).readReg n k = v := by
  simp only [State.readReg, State.writeReg, State.setLong_same]
  exact fieldGet_fieldPut _ _ _ h

/-- A write changes only the bytes it names (R23). -/
theorem State.regByte_writeReg_other {n : Nat} (s : State) (k : RegCode) (v : BitVec n) (hn : n % 8 = 0) (i : Fin 20)
    (j : Fin 4) (h : ¬ s.inReg n k i j) : (s.writeReg k v).regByte i j = s.regByte i j := by
  simp only [State.regByte, State.writeReg, State.setLong_get]
  split
  · rename_i hi
    subst hi
    exact byte_fieldPut_other _ _ _ hn _ fun hj => h ⟨rfl, hj.1, hj.2⟩
  · rfl

theorem RegsKeptBut.of_writeReg {n : Nat} (s : State) (k : RegCode) (v : BitVec n) (hn : n % 8 = 0) :
    RegsKeptBut (s.inReg n k) s (s.writeReg k v) := fun i j h => State.regByte_writeReg_other s k v hn i j h

/-- Registers that hold the same bytes are the same registers. -/
theorem RegsKept.of_bytes {s t : State} (h : ∀ i j, t.regByte i j = s.regByte i j) : RegsKept s t :=
  fun i => eq_of_bytes_eq (h i)

theorem Size.bits_mod (z : Size) : z.bits % 8 = 0 := by cases z <;> rfl

theorem Size.bits_div (z : Size) : z.bits / 8 = z.bytes := by cases z <;> rfl

end Sys2Proof.Machine
end

