-- ==== Sys2Proof/Laws/Ops.lean ====
section
/-! SUPPORT. What each shared operation can do: if it answers a next state, then what is said here holds. -/

namespace Sys2Proof.Machine

/-! ## Outcomes -/

@[simp] theorem andThen_next {α β : Type} (a : α) (k : α → Result β) : andThen (.next a) k = k a := rfl

@[simp] theorem andThen_fault {α β : Type} (r : Fault) (k : α → Result β) : andThen (.fault r) k = .fault r := rfl

@[simp] theorem andThen_refused {α β : Type} (r : Refusal) (k : α → Result β) : andThen (.refused r) k = .refused r := rfl

/-- An operation followed by another completes exactly when both do. -/
theorem andThen_eq_next {α β : Type} {x : Result α} {k : α → Result β} {b : β} :
    andThen x k = .next b ↔ ∃ a, x = .next a ∧ k a = .next b := by
  cases x <;> simp

theorem finish_eq_next {len : Nat} {r : Result State} {t : State} :
    finish len r = .next t ↔ ∃ u, r = .next u ∧ t = u.advance len := by
  rw [finish, andThen_eq_next]
  simp [eq_comm]

@[simp] theorem finish_next (len : Nat) (t : State) : finish len (.next t) = .next (t.advance len) := rfl

/-! ## Memory -/

/-- A read of memory completes exactly where every address is admitted, with the little-endian value. -/
theorem memRead_eq_next {s : State} {n : Nat} {a : Word32} {v : BitVec n} :
    s.memRead n a = .next v ↔ s.admits a (n / 8) = true ∧ v = BitVec.ofNat n (s.loadLE a 0 (n / 8)) := by
  unfold State.memRead
  split
  · rename_i h
    simp only [h, true_and, Host.Outcome.next.injEq]
    exact eq_comm
  · rename_i h
    simp [h]

/-- A write of memory completes exactly where every address is admitted and none is in TEXT; it changes `mem` only. -/
theorem memWrite_eq_next {s t : State} {n : Nat} {a : Word32} {v : BitVec n} :
    s.memWrite a v = .next t ↔ s.writable a (n / 8) ∧ t = { s with mem := s.storeLE a 0 (n / 8) v.toNat s.mem } := by
  unfold State.memWrite State.writable
  split
  · rename_i h
    split
    · rename_i h2
      simp [h2]
    · rename_i h2
      simp only [h, true_and, Bool.not_eq_true] at h2 ⊢
      simp only [h2, true_and, Host.Outcome.next.injEq]
      exact eq_comm
  · rename_i h
    simp [h]

/-- `storeLE` depends on the launch and the address only. -/
theorem State.storeLE_congr {s t : State} (h : t.launch = s.launch) (a : Word32) (i k v : Nat) (m : Memory) :
    t.storeLE a i k v m = s.storeLE a i k v m := by
  induction k generalizing i v m with
  | zero => rfl
  | succ k ih => simp only [State.storeLE, State.addr_congr h, ih]

theorem State.admits_congr {s t : State} (h : t.launch = s.launch) (a : Word32) (k : Nat) : t.admits a k = s.admits a k := by
  simp [State.admits, State.addr_congr h, h]

theorem State.touchesText_congr {s t : State} (h : t.launch = s.launch) (a : Word32) (k : Nat) :
    t.touchesText a k = s.touchesText a k := by
  simp [State.touchesText, State.addr_congr h, h]

theorem State.loadLE_congr {s t : State} (h : t.launch = s.launch) (hm : t.mem = s.mem) (a : Word32) (i k : Nat) :
    t.loadLE a i k = s.loadLE a i k := by
  induction k generalizing i with
  | zero => rfl
  | succ k ih => simp only [State.loadLE, State.addr_congr h, ih, State.byteAt, hm]

/-- A read depends on the launch and memory only. -/
theorem State.memRead_congr {s t : State} (h : t.launch = s.launch) (hm : t.mem = s.mem) (n : Nat) (a : Word32) :
    t.memRead n a = s.memRead n a := by
  simp [State.memRead, State.admits_congr h, State.loadLE_congr h hm]

/-- The push completes exactly where the four bytes below XSP are writable. -/
theorem push32_eq_next {s t : State} {v : Word32} :
    s.push32 v = .next t ↔ s.writable (s.long rowXSP - 4#32) 4 ∧
      t = { s.setLong rowXSP (s.long rowXSP - 4#32) with
            mem := s.storeLE (s.long rowXSP - 4#32) 0 4 v.toNat s.mem } := by
  unfold State.push32
  rw [memWrite_eq_next]
  simp only [State.writable, Nat.reduceDiv, State.setLong_mem]
  rw [State.admits_congr (State.setLong_launch _ _ _), State.touchesText_congr (State.setLong_launch _ _ _),
    State.storeLE_congr (State.setLong_launch _ _ _)]

/-- A memory form completes exactly where nothing clashes and its body does. -/
theorem withMem_eq_next {m : Mem} {used : List RegCode} {s t : State} {body : Word32 → State → Result State} :
    withMem m used s body = .next t ↔
      (∀ k ∈ used, Mem.clashes s m k = false) ∧ ∃ u, body (Mem.ea s m) (Mem.before s m) = .next u ∧ t = Mem.after u m := by
  unfold withMem
  split
  · rename_i h
    simp only [List.any_eq_true] at h
    obtain ⟨k, hk, hc⟩ := h
    simp only [reduceCtorEq, false_iff, not_and, not_exists]
    intro hall
    simp [hall k hk] at hc
  · rename_i h
    simp only [List.any_eq_true, not_exists, not_and, Bool.not_eq_true] at h
    rw [andThen_eq_next]
    constructor
    · rintro ⟨u, hu, ht⟩
      exact ⟨h, u, hu, (Host.Outcome.next.inj ht).symm⟩
    · rintro ⟨_, u, hu, ht⟩
      exact ⟨u, hu, ht ▸ rfl⟩

/-! ## The bytes of a store and of a load -/

/-- The bytes of a value, least significant first (R51). -/
theorem byte_of_div {n : Nat} (v : BitVec n) (j : Nat) : BitVec.ofNat 8 (v.toNat / 256 ^ j) = v.extractLsb' (8 * j) 8 := by
  apply BitVec.eq_of_toNat_eq
  rw [BitVec.toNat_ofNat, BitVec.extractLsb'_toNat, Nat.shiftRight_eq_div_pow, Nat.pow_mul]

/-- A permitted store completes, changes `mem` only, and leaves the bytes of the value. -/
theorem memWrite_spec {s : State} {n : Nat} (a : Word32) (v : BitVec n) (hs : s.storeOk) (hw : s.writable a (n / 8))
    (hn : n / 8 ≤ 2 ^ 24) :
    ∃ m', s.memWrite a v = .next { s with mem := m' }
      ∧ (∀ j, j < n / 8 → Memory.read m' (s.addr a j) = v.extractLsb' (8 * j) 8)
      ∧ (∀ x, (∀ j, j < n / 8 → x ≠ s.addr a j) → Memory.read m' x = Memory.read s.mem x) := by
  refine ⟨s.storeLE a 0 (n / 8) v.toNat s.mem, memWrite_eq_next.2 ⟨hw, rfl⟩, ?_, ?_⟩
  · intro j hj
    have hsp : 0 + n / 8 ≤ s.launch.space := by
      have : 2 ^ 24 ≤ 2 ^ s.launch.addrBits := Nat.pow_le_pow_right (by decide) hs.2
      simp only [Launch.space]
      omega
    have := State.storeLE_byte s a 0 (n / 8) v.toNat hs.1 hsp hj
    rw [Nat.zero_add] at this
    rw [this, byte_of_div]
  · intro x hx
    exact State.storeLE_other _ _ _ _ _ _ fun j _ hj => hx j (by omega)

theorem Size.bytes_le (z : Size) : z.bits / 8 ≤ 2 ^ 24 := by cases z <;> simp [Size.bits]

end Sys2Proof.Machine
end

