-- ==== Sys2Proof/Laws/Operands.lean ====
section
/-! SUPPORT. What the shared operand shapes do: the frame of a written register, of a store and of a form that writes nothing, and
one lemma for each shape of R150. -/

namespace Sys2Proof.Machine

/-! ## The auto-modified register -/

theorem SystemKept.refl (s : State) : SystemKept s s := ⟨rfl, rfl, rfl, ⟨rfl, rfl, rfl, rfl, rfl⟩, rfl⟩

theorem slot_ne_of_not_clashes {s : State} {m : Mem} {k : RegCode} {r : LongReg} (h : Mem.clashes s m k = false)
    (hr : Mem.autoReg m = some r) : s.slot r ≠ s.slot k.row := by
  simpa [Mem.clashes, hr] using h

@[simp] theorem Mem.before_slot (s : State) (m : Mem) (r : LongReg) : (Mem.before s m).slot r = s.slot r := by cases m <;> rfl

@[simp] theorem Mem.after_slot (s : State) (m : Mem) (r : LongReg) : (Mem.after s m).slot r = s.slot r := by cases m <;> rfl

/-- A register with another storage is not touched by the auto-modification. -/
theorem Mem.before_long {s : State} {m : Mem} {r' : LongReg} (h : ∀ r, Mem.autoReg m = some r → s.slot r ≠ s.slot r') :
    (Mem.before s m).long r' = s.long r' := by
  cases m <;> try rfl
  exact State.setLong_other _ _ _ _ (h _ rfl)

theorem Mem.after_long {s : State} {m : Mem} {r' : LongReg} (h : ∀ r, Mem.autoReg m = some r → s.slot r ≠ s.slot r') :
    (Mem.after s m).long r' = s.long r' := by
  cases m <;> try rfl
  exact State.setLong_other _ _ _ _ (h _ rfl)

theorem Mem.before_readReg {s : State} {m : Mem} {k : RegCode} (n : Nat) (h : Mem.clashes s m k = false) :
    (Mem.before s m).readReg n k = s.readReg n k := by
  simp only [State.readReg]
  rw [Mem.before_long fun r hr => slot_ne_of_not_clashes h hr]

theorem Mem.after_readReg {s t : State} {m : Mem} {k : RegCode} (n : Nat) (h : Mem.clashes s m k = false) (ht : t.rfp = s.rfp) :
    (Mem.after t m).readReg n k = t.readReg n k := by
  simp only [State.readReg]
  rw [Mem.after_long fun r hr => by
    rw [State.slot_congr ht, State.slot_congr ht]; exact slot_ne_of_not_clashes h hr]

/-- A byte of a register with another storage is kept. -/
theorem State.regByte_setLong_other (s : State) (r : LongReg) (v : Word32) (i : Fin 20) (j : Fin 4) (h : i ≠ s.slot r) :
    (s.setLong r v).regByte i j = s.regByte i j := by
  simp only [State.regByte]
  rw [State.setLong_get, if_neg (Ne.symm h)]

theorem Mem.before_kept (s : State) (m : Mem) : RegsKeptBut (s.inAuto m) s (Mem.before s m) := by
  intro i j h
  cases m <;> try rfl
  exact State.regByte_setLong_other _ _ _ _ _ fun e => h ⟨_, rfl, e⟩

theorem Mem.after_kept (s : State) (m : Mem) : RegsKeptBut (s.inAuto m) s (Mem.after s m) := by
  intro i j h
  cases m <;> try rfl
  exact State.regByte_setLong_other _ _ _ _ _ fun e => h ⟨_, rfl, e⟩

/-! ## Frames: what a written register, a store or nothing leaves -/

/-- A body that keeps the auto-modified register leaves it moved by its step. -/
theorem AutoMoved.of_kept {s t u : State} {m : Mem}
    (hk : ∀ r, Mem.autoReg m = some r → t.long r = (Mem.before s m).long r) (hu : u.regs = (Mem.after t m).regs)
    (hur : u.rfp = t.rfp) :
    AutoMoved m s u := by
  have hul : ∀ r, u.long r = (Mem.after t m).long r := by
    intro r
    simp only [State.long, hu]
    congr 1
    rw [Mem.after_slot, State.slot_congr hur]
  cases m <;> try trivial
  · rename_i r st
    show u.long r = _
    rw [hul]
    show t.long r = _
    rw [hk r rfl]
    exact State.setLong_same _ _ _
  · rename_i r st
    show u.long r = _
    rw [hul]
    show (t.setLong r _).long r = _
    rw [State.setLong_same, hk r rfl]
    rfl

/-- New flags, one register written, pc moved on. -/
theorem WroteReg.of_flagged {n : Nat} (i : Instr) (k : RegCode) (v : BitVec n) (s : State) (f : Flags) (d : Nat)
    (hn : n % 8 = 0) (hk : codeFits n k) : WroteReg i k v s (((s.flagged f d).writeReg k v).advance i.len) := by
  refine ⟨?_, ?_, fun _ => rfl, ⟨rfl, rfl, rfl, ⟨rfl, rfl, rfl, rfl, rfl⟩, rfl⟩, rfl⟩
  · exact State.readReg_writeReg (s.flagged f d) k v hk
  · exact RegsKeptBut.of_writeReg (s.flagged f d) k v hn

/-- The same between pre-decrement and post-increment. -/
theorem WroteRegVia.of_flagged {n : Nat} (m : Mem) (i : Instr) (k : RegCode) (v : BitVec n) (s : State) (f : Flags) (d : Nat)
    (hn : n % 8 = 0) (hk : codeFits n k) (hc : NoClash s m [k]) :
    WroteRegVia m i k v s ((Mem.after (((Mem.before s m).flagged f d).writeReg k v) m).advance i.len) := by
  have hc := hc k (by simp)
  refine ⟨?_, ?_, ?_, ?_, ⟨?_, ?_, ?_, ⟨?_, ?_, ?_, ?_, ?_⟩, ?_⟩, ?_⟩
  · show (Mem.after (((Mem.before s m).flagged f d).writeReg k v) m).readReg n k = v
    rw [Mem.after_readReg (s := s) n hc (by simp [State.flagged])]
    exact State.readReg_writeReg _ _ _ hk
  · refine AutoMoved.of_kept (t := ((Mem.before s m).flagged f d).writeReg k v) ?_ rfl (by simp)
    intro r hr
    have h := slot_ne_of_not_clashes hc hr
    refine (State.setLong_other _ _ _ _ ?_).trans rfl
    show (Mem.before s m).slot k.row ≠ (Mem.before s m).slot r
    rw [Mem.before_slot, Mem.before_slot]
    exact Ne.symm h
  · intro x j h
    have h1 := fun e => h (.inl e)
    have h2 := fun e => h (.inr e)
    have e1 := Mem.before_kept s m x j h2
    have e2 := Mem.after_kept (((Mem.before s m).flagged f d).writeReg k v) m x j (by
      rintro ⟨r, hr, hx⟩
      apply h2
      refine ⟨r, hr, hx.trans ?_⟩
      exact Mem.before_slot s m r)
    have e3 := State.regByte_writeReg_other ((Mem.before s m).flagged f d) k v hn x j (by
      rintro ⟨a, b⟩
      apply h1
      refine ⟨a.trans ?_, b⟩
      exact Mem.before_slot s m k.row)
    exact e2.trans (e3.trans e1)
  · intro a
    show Memory.read (Mem.after _ m).mem a = Memory.read s.mem a
    simp [State.flagged]
  all_goals simp [State.flagged, MovedPast, State.nextPc]

/-- New flags, nothing written, pc moved on. -/
theorem WroteNothing.of_flagged (i : Instr) (s : State) (f : Flags) (d : Nat) : WroteNothing i s ((s.flagged f d).advance i.len) :=
  ⟨fun _ => rfl, fun _ => rfl, ⟨rfl, rfl, rfl, ⟨rfl, rfl, rfl, rfl, rfl⟩, rfl⟩, rfl⟩

/-- The same between pre-decrement and post-increment. -/
theorem WroteNothingVia.of_flagged (m : Mem) (i : Instr) (s : State) (f : Flags) (d : Nat) :
    WroteNothingVia m i s ((Mem.after ((Mem.before s m).flagged f d) m).advance i.len) := by
  refine ⟨?_, ?_, ?_, ⟨?_, ?_, ?_, ⟨?_, ?_, ?_, ?_, ?_⟩, ?_⟩, ?_⟩
  · exact AutoMoved.of_kept (t := (Mem.before s m).flagged f d) (fun _ _ => rfl) rfl (by simp)
  · intro x j h
    have e1 := Mem.before_kept s m x j h
    have e2 := Mem.after_kept ((Mem.before s m).flagged f d) m x j (by
      rintro ⟨r, hr, hx⟩
      exact h ⟨r, hr, hx.trans (Mem.before_slot s m r)⟩)
    exact e2.trans e1
  · intro a
    show Memory.read (Mem.after _ m).mem a = Memory.read s.mem a
    simp [State.flagged]
  all_goals simp [State.flagged, MovedPast, State.nextPc]

theorem flagged_before_writable {s : State} {m : Mem} {f : Flags} {d : Nat} {a : Word32} {k : Nat} (h : s.writable a k) :
    ((Mem.before s m).flagged f d).writable a k := by
  have hl : ((Mem.before s m).flagged f d).launch = s.launch := by simp [State.flagged]
  exact ⟨(State.admits_congr hl a k).trans h.1, (State.touchesText_congr hl a k).trans h.2⟩

theorem flagged_before_storeOk {s : State} {m : Mem} {f : Flags} {d : Nat} (h : s.storeOk) :
    ((Mem.before s m).flagged f d).storeOk := by
  simpa [State.storeOk, State.flagged] using h

/-- Store at the effective address after the flags, then the post-increment. -/
theorem wroteMem_spec {n : Nat} (m : Mem) (i : Instr) (v : BitVec n) (s : State) (f : Flags) (d : Nat) (hs : s.storeOk)
    (hw : s.writable (Mem.ea s m) (n / 8)) (hn : n / 8 ≤ 2 ^ 24) :
    ∃ u, ((Mem.before s m).flagged f d).memWrite (Mem.ea s m) v = .next u
      ∧ WroteMem m i v s ((Mem.after u m).advance i.len) ∧ u.f = f := by
  obtain ⟨m', h1, h2, h3⟩ := memWrite_spec (s := (Mem.before s m).flagged f d) (Mem.ea s m) v
    (flagged_before_storeOk hs) (flagged_before_writable hw) hn
  have hl : ((Mem.before s m).flagged f d).launch = s.launch := by simp [State.flagged]
  refine ⟨_, h1, ⟨?_, ?_, ?_, ?_, ⟨?_, ?_, ?_, ⟨?_, ?_, ?_, ?_, ?_⟩, ?_⟩, ?_⟩, rfl⟩
  · intro j hj
    show Memory.read (Mem.after _ m).mem _ = _
    rw [Mem.after_mem, ← State.addr_congr hl]
    exact h2 j hj
  · intro x hx
    show Memory.read (Mem.after _ m).mem _ = Memory.read s.mem _
    rw [Mem.after_mem, h3 x fun j hj => by rw [State.addr_congr hl]; exact hx j hj]
    simp [State.flagged]
  · refine AutoMoved.of_kept (t := { (Mem.before s m).flagged f d with mem := m' }) ?_ rfl (by simp)
    intro r hr
    rfl
  · intro x j h
    have e1 := Mem.before_kept s m x j h
    have e2 := Mem.after_kept { (Mem.before s m).flagged f d with mem := m' } m x j (by
      rintro ⟨r, hr, hx⟩
      exact h ⟨r, hr, hx.trans (Mem.before_slot s m r)⟩)
    exact e2.trans e1
  all_goals simp [State.flagged, MovedPast, State.nextPc]

/-! ## The shapes of R150 -/

theorem State.memRead_before (s : State) (m : Mem) (n : Nat) (a : Word32) : (Mem.before s m).memRead n a = s.memRead n a :=
  State.memRead_congr (by simp) (by simp) n a

/-- Shape `R,r` completes and writes the register. -/
theorem shapeRr_spec {alu : AluOp} {z : Size} {R : BitVec 3} {r : RSel} {s : State} {res : BitVec z.bits} {f : Flags} {d : Nat}
    {i : Instr}
    (ha : alu z.bits (s.readReg z.bits (shortCode z R)) (s.readReg z.bits (selCode z r)) s = (res, s.flagged f d)) :
    ∃ t, finish i.len (shapeRr alu z R r s) = .next t ∧ WroteReg i (shortCode z R) res s t ∧ t.f = f := by
  refine ⟨_, ?_, WroteReg.of_flagged i (shortCode z R) res s f d (Size.bits_mod z)
    (codeFits_of_aligned (shortCode_aligned z R)), rfl⟩
  simp only [shapeRr, ha, finish_next]

/-- Shape `r,#` completes and writes the register. -/
theorem shapeRi_spec {alu : AluOp} {z : Size} {r : RSel} {imm : Word32} {s : State} {res : BitVec z.bits} {f : Flags} {d : Nat}
    {i : Instr} (hr : r.wf z = true)
    (ha : alu z.bits (s.readReg z.bits (selCode z r)) (imm.setWidth z.bits) s = (res, s.flagged f d)) :
    ∃ t, finish i.len (shapeRi alu z r imm s) = .next t ∧ WroteReg i (selCode z r) res s t ∧ t.f = f := by
  refine ⟨_, ?_, WroteReg.of_flagged i (selCode z r) res s f d (Size.bits_mod z)
    (codeFits_of_aligned (selCode_aligned hr)), rfl⟩
  simp only [shapeRi, ha, finish_next]

/-- Shape `R,(mem)` completes where the operand can be read, and writes the register. -/
theorem shapeRm_spec {alu : AluOp} {z : Size} {R : BitVec 3} {m : Mem} {s : State} {b res : BitVec z.bits} {f : Flags} {d : Nat}
    {i : Instr} (hc : NoClash s m [shortCode z R]) (hb : s.memRead z.bits (Mem.ea s m) = .next b)
    (ha : alu z.bits (s.readReg z.bits (shortCode z R)) b (Mem.before s m) = (res, (Mem.before s m).flagged f d)) :
    ∃ t, finish i.len (shapeRm alu z R m s) = .next t ∧ WroteRegVia m i (shortCode z R) res s t ∧ t.f = f := by
  refine ⟨(Mem.after (((Mem.before s m).flagged f d).writeReg (shortCode z R) res) m).advance i.len, ?_,
    WroteRegVia.of_flagged m i _ res s f d (Size.bits_mod z) (codeFits_of_aligned (shortCode_aligned z R)) hc,
    by simp [State.flagged]⟩
  rw [finish_eq_next]
  refine ⟨_, withMem_eq_next.2 ⟨hc, ((Mem.before s m).flagged f d).writeReg (shortCode z R) res, ?_, rfl⟩, rfl⟩
  rw [State.memRead_before, hb, andThen_next, Mem.before_readReg _ (hc _ (by simp)), ha]

/-- Shape `(mem),R` completes where the operand can be read and written, and stores the result. -/
theorem shapeMr_spec {alu : AluOp} {z : Size} {R : BitVec 3} {m : Mem} {s : State} {a res : BitVec z.bits} {f : Flags} {d : Nat}
    {i : Instr} (hs : s.storeOk) (hc : NoClash s m [shortCode z R]) (hb : s.memRead z.bits (Mem.ea s m) = .next a)
    (hw : s.writable (Mem.ea s m) z.bytes)
    (ha : alu z.bits a (s.readReg z.bits (shortCode z R)) (Mem.before s m) = (res, (Mem.before s m).flagged f d)) :
    ∃ t, finish i.len (shapeMr alu z m R s) = .next t ∧ WroteMem m i res s t ∧ t.f = f := by
  obtain ⟨u, h1, h2, h3⟩ := wroteMem_spec m i res s f d hs (by rw [Size.bits_div]; exact hw) (Size.bytes_le z)
  refine ⟨(Mem.after u m).advance i.len, ?_, h2, by simp [h3]⟩
  rw [finish_eq_next]
  refine ⟨_, withMem_eq_next.2 ⟨hc, u, ?_, rfl⟩, rfl⟩
  rw [State.memRead_before, hb, andThen_next, Mem.before_readReg _ (hc _ (by simp)), ha]
  exact h1

/-- Shape `<W> (mem),#` completes where the operand can be read and written, and stores the result. -/
theorem shapeMi_spec {alu : AluOp} {z : Size} {imm : Word32} {m : Mem} {s : State} {a res : BitVec z.bits} {f : Flags} {d : Nat}
    {i : Instr} (hs : s.storeOk) (hb : s.memRead z.bits (Mem.ea s m) = .next a)
    (hw : s.writable (Mem.ea s m) z.bytes)
    (ha : alu z.bits a (imm.setWidth z.bits) (Mem.before s m) = (res, (Mem.before s m).flagged f d)) :
    ∃ t, finish i.len (shapeMi alu z m imm s) = .next t ∧ WroteMem m i res s t ∧ t.f = f := by
  obtain ⟨u, h1, h2, h3⟩ := wroteMem_spec m i res s f d hs (by rw [Size.bits_div]; exact hw) (Size.bytes_le z)
  refine ⟨(Mem.after u m).advance i.len, ?_, h2, by simp [h3]⟩
  rw [finish_eq_next]
  refine ⟨_, withMem_eq_next.2 ⟨by simp, u, ?_, rfl⟩, rfl⟩
  rw [State.memRead_before, hb, andThen_next, ha]
  exact h1

end Sys2Proof.Machine
end

