-- ==== Sys2Proof/Laws/Meanings.lean ====
section
/-! SUPPORT. What the operations behind single instruction groups do: division, bit operations, the compare step, calls. -/

namespace Sys2Proof.Machine

/-! ## DIV, DIVS -/

/-- A divide writes the dividend register, changes V only among the flags, and may draw; where there is a result, it is the value
written. -/
theorem putDivision_eq {n : Nat} (k : RegCode) (res : Option (BitVec (n + n))) (s : State) :
    ∃ v d, putDivision k res s = (s.flagged { s.f with v := res.isNone } d).writeReg k v ∧ (∀ w, res = some w → v = w) := by
  cases res with
  | some w => exact ⟨w, s.draws, rfl, by simp⟩
  | none => exact ⟨Config.freeValue (n + n) s.draws, s.draws + 1, rfl, by simp⟩

/-- Where the quotient fits, the result is the remainder above the quotient (R145). -/
theorem udiv_eq_some {n : Nat} {D : BitVec (n + n)} {d : BitVec n} (h0 : d.toNat ≠ 0) (h1 : D.toNat / d.toNat < 2 ^ n) :
    ∃ w, udiv D d = some w ∧ w.toNat = (D.toNat % d.toNat) * 2 ^ n + D.toNat / d.toNat := by
  refine ⟨_, if_neg (by omega), ?_⟩
  have h2 : D.toNat % d.toNat < 2 ^ n := lt_trans (Nat.mod_lt _ (Nat.pos_of_ne_zero h0)) d.isLt
  rw [BitVec.toNat_append, BitVec.toNat_ofNat, BitVec.toNat_ofNat, Nat.mod_eq_of_lt h1, Nat.mod_eq_of_lt h2,
    ← Nat.shiftLeft_add_eq_or_of_lt h1, Nat.shiftLeft_eq]

theorem SizeBW.bits_double_mod (z : SizeBW) : (z.bits + z.bits) % 8 = 0 := by cases z <;> rfl

theorem codeFits_dividend_short {z : SizeBW} {R : BitVec 3} (h : dividendCodeOk z R = true) :
    codeFits (z.bits + z.bits) (shortCode z.size R) := by
  have := codeFits_of_aligned (dividend_short_aligned h)
  rwa [SizeBW.double_bits] at this

theorem codeFits_dividend_sel {z : SizeBW} {r : RSel} (h : r.dividendOk z = true) :
    codeFits (z.bits + z.bits) (selCode z.size r) := by
  have := codeFits_of_aligned (dividend_sel_aligned h)
  rwa [SizeBW.double_bits] at this

/-! ## Bit operations -/

/-- ANDCF changes C only; where the value has the bit, C is the conjunction. -/
theorem andCarry_eq {n : Nat} (v : BitVec n) (k : Nat) (s : State) :
    ∃ f d, andCarry v k s = s.flagged f d ∧ SameButC s.f f ∧ (k < n → f.c = (s.f.c && v.getLsbD k)) := by
  unfold andCarry
  split
  · exact ⟨_, s.draws, rfl, rfl, fun _ => rfl⟩
  · rename_i h
    exact ⟨_, s.draws + 1, rfl, rfl, fun h' => absurd h' h⟩

/-- BIT sets the flags its page names; where the value has the bit, Z is the bit inverted. -/
theorem testBit_eq {n : Nat} (v : BitVec n) (k : Nat) (s : State) :
    ∃ f d, testBit v k s = s.flagged f d ∧ BitFlagsSay s.f f ∧ (k < n → f.z = !v.getLsbD k) := by
  unfold testBit bitOrFree
  by_cases h : k < n
  · simp only [h, if_true]
    exact ⟨_, s.draws + 2, rfl, rfl, fun _ => rfl⟩
  · simp only [h, if_false]
    exact ⟨_, s.draws + 3, rfl, rfl, fun h' => h'.elim⟩

/-- A search that finds a bit writes its number to A and clears V; one that finds none writes a free value and sets V. -/
theorem putSearch_eq (found : Option Nat) (s : State) :
    ∃ v d, putSearch found s = (s.flagged { s.f with v := found.isNone } d).writeReg (n := 8) codeA v
      ∧ ∀ i, found = some i → v = BitVec.ofNat 8 i := by
  cases found with
  | some i => exact ⟨BitVec.ofNat 8 i, s.draws, rfl, by simp⟩
  | none => exact ⟨Config.freeValue 8 s.draws, s.draws + 1, rfl, by simp⟩

/-! ## Two registers -/

/-- Two aligned registers of one size have one offset or do not overlap. -/
theorem offsets_apart {z : SizeBW} {k k' : RegCode} (h : k.aligned z.size = true) (h' : k'.aligned z.size = true) :
    k.off = k'.off ∨ k.off.toNat + z.bits / 8 ≤ k'.off.toNat ∨ k'.off.toNat + z.bits / 8 ≤ k.off.toNat := by
  obtain ⟨r, o⟩ := k
  obtain ⟨r', o'⟩ := k'
  cases z
  · show o = o' ∨ o.toNat + 1 ≤ o'.toNat ∨ o'.toNat + 1 ≤ o.toNat
    clear h h'
    revert o o'
    decide
  · change (decide (o = 0#2) || decide (o = 2#2)) = true at h
    change (decide (o' = 0#2) || decide (o' = 2#2)) = true at h'
    show o = o' ∨ o.toNat + 2 ≤ o'.toNat ∨ o'.toNat + 2 ≤ o.toNat
    clear r r'
    revert o o'
    decide

/-- A register that does not overlap the written one is kept. -/
theorem State.readReg_writeReg_apart (s : State) {n m : Nat} (k k' : RegCode) (v : BitVec n)
    (h : s.slot k.row ≠ s.slot k'.row ∨ 8 * k.off.toNat + n ≤ 8 * k'.off.toNat ∨ 8 * k'.off.toNat + m ≤ 8 * k.off.toNat) :
    (s.writeReg k v).readReg m k' = s.readReg m k' := by
  by_cases hs : s.slot k.row = s.slot k'.row
  · simp only [State.readReg, State.writeReg]
    have e : (s.setLong k.row (fieldPut (s.long k.row) k.off v)).long k'.row = fieldPut (s.long k.row) k.off v := by
      show (s.setLong _ _).regs[s.slot k'.row] = _
      rw [State.setLong_get, if_pos hs]
    have e' : s.long k'.row = s.long k.row := by simp only [State.long, hs]
    rw [e, e']
    apply BitVec.eq_of_getLsbD_eq
    intro i hi
    simp only [fieldGet, BitVec.getLsbD_extractLsb', getLsbD_fieldPut, hi]
    rw [if_neg]
    rintro ⟨a, b, c⟩
    rcases h with h | h | h
    · exact h hs
    · omega
    · omega
  · simp only [State.readReg, State.writeReg]
    rw [State.setLong_other _ _ _ _ hs]

/-! ## Compare and count -/

/-- A pointer other than XWA and XBC is another register than those of A and of BC. -/
theorem pointer_slot_ne (s : State) (R : BitVec 3) (h0 : R ≠ 0#3) (h1 : R ≠ 1#3) :
    s.slot (pointerReg R) ≠ s.slot codeA.row ∧ s.slot (pointerReg R) ≠ s.slot codeBC.row := by
  have key : ∀ (r R : BitVec 3), R ≠ 0#3 → R ≠ 1#3 →
      regSlot r (pointerReg R) ≠ regSlot r codeA.row ∧ regSlot r (pointerReg R) ≠ regSlot r codeBC.row := by decide
  exact key s.rfp R h0 h1

theorem counter_slot_ne (s : State) : s.slot codeBC.row ≠ s.slot codeA.row := by
  have key : ∀ r : BitVec 3, regSlot r codeBC.row ≠ regSlot r codeA.row := by decide
  exact key s.rfp

/-- A compare step completes exactly where its operand can be read. -/
theorem compareStep_eq_next {z : SizeBW} {R : BitVec 3} {up : Bool} {s t : State} :
    compareStep z R up s = .next t ↔
      ∃ m, s.memRead z.bits (s.long (pointerReg R)) = .next m ∧ t = compareStepDone z R up m s := by
  rw [compareStep, andThen_eq_next]
  simp [eq_comm]

/-- A compare step counts BC down. -/
theorem compareStepDone_counter (z : SizeBW) (R : BitVec 3) (up : Bool) (m : BitVec z.bits) (s : State) (h0 : R ≠ 0#3)
    (h1 : R ≠ 1#3) : (compareStepDone z R up m s).counter = s.counter - 1#16 := by
  have hb := (pointer_slot_ne s R h0 h1).2
  show ((s.setLong (pointerReg R) _).writeReg codeBC _).readReg 16 codeBC = _
  refine (State.readReg_writeReg _ _ _ (codeFits_of_aligned (k := codeBC) (z := .w) (by decide))).trans ?_
  simp only [State.counter, State.readReg]
  rw [State.setLong_other _ _ _ _ hb]

/-- A compare step moves the pointer. -/
theorem compareStepDone_pointer (z : SizeBW) (R : BitVec 3) (up : Bool) (m : BitVec z.bits) (s : State) (h0 : R ≠ 0#3)
    (h1 : R ≠ 1#3) : (compareStepDone z R up m s).long (pointerReg R) = stepPointer z up (s.long (pointerReg R)) := by
  have hb := (pointer_slot_ne s R h0 h1).2
  show ((s.setLong (pointerReg R) _).writeReg codeBC _).long (pointerReg R) = _
  rw [State.writeReg, State.setLong_other _ _ _ _ (by exact Ne.symm hb), State.setLong_same]

/-- A compare step keeps A (WA). -/
theorem compareStepDone_A (z : SizeBW) (R : BitVec 3) (up : Bool) (m : BitVec z.bits) (s : State) (h0 : R ≠ 0#3)
    (h1 : R ≠ 1#3) : (compareStepDone z R up m s).readReg z.bits codeA = s.readReg z.bits codeA := by
  have ha := (pointer_slot_ne s R h0 h1).1
  show ((s.setLong (pointerReg R) _).writeReg codeBC _).readReg _ codeA = _
  simp only [State.readReg, State.writeReg]
  rw [State.setLong_other _ _ _ _ (by exact counter_slot_ne s), State.setLong_other _ _ _ _ ha]

/-! ## Calls -/

/-- A call completes exactly where the four bytes below XSP are writable; it pushes the return address and goes to the target. -/
theorem call_eq_next {len : Nat} {target : Word32} {s t : State} :
    call len target s = .next t ↔ s.writable (s.long rowXSP - 4#32) 4 ∧
      t = State.jump { s.setLong rowXSP (s.long rowXSP - 4#32) with
            mem := s.storeLE (s.long rowXSP - 4#32) 0 4 (s.nextPc len).toNat s.mem } target := by
  rw [call, andThen_eq_next]
  constructor
  · rintro ⟨u, hu, ht⟩
    obtain ⟨hw, rfl⟩ := push32_eq_next.1 hu
    exact ⟨hw, (Host.Outcome.next.inj ht).symm⟩
  · rintro ⟨hw, rfl⟩
    exact ⟨_, push32_eq_next.2 ⟨hw, rfl⟩, rfl⟩

end Sys2Proof.Machine
end

