-- ==== Sys2Proof/Tests/Slice0.lean ====
section
/-! SUPPORT. Tests: the checks of WellFormed.lean, the decoding of every constructor from a word written out from the spec's
encoding, single steps on the spec's examples and vectors, and a witness for the hypotheses of every obligation. -/

namespace Sys2Proof.Tests

open Sys2Proof.Machine

/-! ## The checks of WellFormed.lean each refuse an ill-formed term -/

theorem test_wf_ei_seven : (Instr.ei 7#3).wf = false := by decide
theorem test_wf_word_code_odd : (Instr.cplR .w (.ext ⟨.cur 0#2, 1#2⟩)).wf = false := by decide
theorem test_wf_long_code_two : (Instr.addRR .l 0#3 (.ext ⟨.idx 0#2, 2#2⟩)).wf = false := by decide
theorem test_wf_dividend_short_even : (Instr.divRI .b (.short 2#3) 1#32).wf = false := by decide
theorem test_wf_dividend_ext_odd : (Instr.divsRI .b (.ext ⟨.idx 0#2, 1#2⟩) 1#32).wf = false := by decide
theorem test_wf_dividend_code_even : (Instr.divRR .b 0#3 (.short 2#3)).wf = false := by decide
theorem test_wf_dividend_code_even_memory : (Instr.divsRM .b 6#3 (.ind 4#3)).wf = false := by decide
theorem test_wf_immediate_too_wide : (Instr.addRI .b (.short 1#3) 0x100#32).wf = false := by decide
theorem test_wf_immediate_too_wide_memory : (Instr.cpMI .w (.ind 4#3) 0x10000#32).wf = false := by decide
theorem test_wf_index_code_odd : (Instr.addRM .b 1#3 (.regR16 (.idx 0#2) ⟨.cur 1#2, 1#2⟩)).wf = false := by decide
theorem test_wf_accepts_the_greatest_immediate : (Instr.addRI .b (.short 1#3) 0xFF#32).wf = true := by decide

/-! ## Every constructor, from its encoding in spec/opcode_table.json (R73 to R84; many are the spec's own example bytes) -/

theorem test_decode_ei : decode [0x06#8, 0x03#8] = .ok (.ei 3#3) [] := by decide
theorem test_decode_di : decode [0x06#8, 0x07#8] = .ok .di [] := by decide
theorem test_decode_decf : decode [0x0D#8] = .ok .decf [] := by decide
theorem test_decode_ccf : decode [0x12#8] = .ok .ccf [] := by decide
theorem test_decode_exFF : decode [0x16#8] = .ok .exFF [] := by decide
theorem test_decode_call16 : decode [0x1C#8, 0x00#8, 0x90#8] = .ok (.call16 0x9000#16) [] := by decide
theorem test_decode_call24 : decode [0x1D#8, 0x56#8, 0x34#8, 0x12#8] = .ok (.call24 0x123456#24) [] := by decide
theorem test_decode_calr : decode [0x1E#8, 0xFD#8, 0xFF#8] = .ok (.calr 0xFFFD#16) [] := by decide
theorem test_decode_cplR : decode [0xD8#8, 0x06#8] = .ok (.cplR .w (.short 0#3)) [] := by decide
theorem test_decode_divRI :
    decode [0xC7#8, 0xF0#8, 0x0A#8, 0x03#8] = .ok (.divRI .b (.ext ⟨.idx 0#2, 0#2⟩) 3#32) [] := by decide
theorem test_decode_divsRI : decode [0xD8#8, 0x0B#8, 0xFE#8, 0xFF#8] = .ok (.divsRI .w (.short 0#3) 0xFFFE#32) [] := by decide
theorem test_decode_bs1f : decode [0xDC#8, 0x0E#8] = .ok (.bs1f (.short 4#3)) [] := by decide
theorem test_decode_bs1b : decode [0xDC#8, 0x0F#8] = .ok (.bs1b (.short 4#3)) [] := by decide
theorem test_decode_daa : decode [0xC9#8, 0x10#8] = .ok (.daa (.short 1#3)) [] := by decide
theorem test_decode_extz : decode [0xEC#8, 0x12#8] = .ok (.extz .l (.short 4#3)) [] := by decide
theorem test_decode_exts : decode [0xDB#8, 0x13#8] = .ok (.exts .w (.short 3#3)) [] := by decide
theorem test_decode_djnz : decode [0xC8#8, 0x1C#8, 0xFB#8] = .ok (.djnz .b (.short 0#3) 0xFB#8) [] := by decide
theorem test_decode_andcfNR : decode [0xDC#8, 0x20#8, 0x0C#8] = .ok (.andcfNR .w 12#4 (.short 4#3)) [] := by decide
theorem test_decode_andcfAR : decode [0xD9#8, 0x28#8] = .ok (.andcfAR .w (.short 1#3)) [] := by decide
theorem test_decode_chgNR : decode [0xC9#8, 0x32#8, 0x05#8] = .ok (.chgNR .b 5#4 (.short 1#3)) [] := by decide
theorem test_decode_bitNR : decode [0xD9#8, 0x33#8, 0x0F#8] = .ok (.bitNR .w 15#4 (.short 1#3)) [] := by decide
theorem test_decode_divRR : decode [0xDD#8, 0x54#8] = .ok (.divRR .w 4#3 (.short 5#3)) [] := by decide
theorem test_decode_divsRR : decode [0xDD#8, 0x5C#8] = .ok (.divsRR .w 4#3 (.short 5#3)) [] := by decide
theorem test_decode_decNR : decode [0xDB#8, 0x6C#8] = .ok (.decNR .w 4#3 (.short 3#3)) [] := by decide
theorem test_decode_addRR : decode [0xDC#8, 0x83#8] = .ok (.addRR .w 3#3 (.short 4#3)) [] := by decide
theorem test_decode_adcRR : decode [0xDC#8, 0x93#8] = .ok (.adcRR .w 3#3 (.short 4#3)) [] := by decide
theorem test_decode_exRR : decode [0xCA#8, 0xB9#8] = .ok (.exRR .b 1#3 (.short 2#3)) [] := by decide
theorem test_decode_andRR : decode [0xDC#8, 0xC3#8] = .ok (.andRR .w 3#3 (.short 4#3)) [] := by decide
theorem test_decode_addRI : decode [0xC9#8, 0xC8#8, 0xFF#8] = .ok (.addRI .b (.short 1#3) 0xFF#32) [] := by decide
theorem test_decode_adcRI : decode [0xC9#8, 0xC9#8, 0x00#8] = .ok (.adcRI .b (.short 1#3) 0#32) [] := by decide
theorem test_decode_andRI :
    decode [0xE8#8, 0xCC#8, 0x78#8, 0x56#8, 0x34#8, 0x12#8] = .ok (.andRI .l (.short 0#3) 0x12345678#32) [] := by decide
theorem test_decode_cpRI :
    decode [0xE8#8, 0xCF#8, 0x00#8, 0x00#8, 0x00#8, 0x80#8] = .ok (.cpRI .l (.short 0#3) 0x80000000#32) [] := by decide
theorem test_decode_cpRN : decode [0xC9#8, 0xDD#8] = .ok (.cpRN .b (.short 1#3) 5#3) [] := by decide
theorem test_decode_cpRR : decode [0xDC#8, 0xF3#8] = .ok (.cpRR .w 3#3 (.short 4#3)) [] := by decide
theorem test_decode_cpi : decode [0x94#8, 0x14#8] = .ok (.cpi .w 4#3) [] := by decide
theorem test_decode_cpir : decode [0x84#8, 0x15#8] = .ok (.cpir .b 4#3) [] := by decide
theorem test_decode_cpd : decode [0x84#8, 0x16#8] = .ok (.cpd .b 4#3) [] := by decide
theorem test_decode_cpdr : decode [0x84#8, 0x17#8] = .ok (.cpdr .b 4#3) [] := by decide
theorem test_decode_exMR : decode [0xC1#8, 0x00#8, 0x01#8, 0x31#8] = .ok (.exMR .b (.abs16 0x0100#16) 1#3) [] := by decide
theorem test_decode_addMI :
    decode [0xD1#8, 0x00#8, 0x02#8, 0x38#8, 0x34#8, 0x12#8] = .ok (.addMI .w (.abs16 0x0200#16) 0x1234#32) [] := by decide
theorem test_decode_adcMI : decode [0xC0#8, 0x10#8, 0x39#8, 0x0F#8] = .ok (.adcMI .b (.abs8 0x10#8) 0x0F#32) [] := by decide
theorem test_decode_andMI : decode [0x94#8, 0x3C#8, 0x0F#8, 0xF0#8] = .ok (.andMI .w (.ind 4#3) 0xF00F#32) [] := by decide
theorem test_decode_cpMI : decode [0x94#8, 0x3F#8, 0x34#8, 0x12#8] = .ok (.cpMI .w (.ind 4#3) 0x1234#32) [] := by decide
theorem test_decode_divRM : decode [0x83#8, 0x53#8] = .ok (.divRM .b 3#3 (.ind 3#3)) [] := by decide
theorem test_decode_divsRM : decode [0x84#8, 0x5F#8] = .ok (.divsRM .b 7#3 (.ind 4#3)) [] := by decide
theorem test_decode_decNM : decode [0x94#8, 0x6A#8] = .ok (.decNM .w 2#3 (.ind 4#3)) [] := by decide
theorem test_decode_addRM :
    decode [0xC3#8, 0xF1#8, 0xFE#8, 0xFF#8, 0x81#8] = .ok (.addRM .b 1#3 (.regD16 (.idx 0#2) 0xFFFE#16)) [] := by decide
theorem test_decode_addMR : decode [0xC4#8, 0xF0#8, 0x89#8] = .ok (.addMR .b (.preDec (.idx 0#2) .by1) 1#3) [] := by decide
theorem test_decode_adcRM : decode [0x9C#8, 0x04#8, 0x90#8] = .ok (.adcRM .w 0#3 (.indD8 4#3 4#8)) [] := by decide
theorem test_decode_adcMR : decode [0xC3#8, 0xD4#8, 0x9F#8] = .ok (.adcMR .b (.reg (.prev 1#2)) 7#3) [] := by decide
theorem test_decode_andRM :
    decode [0xC3#8, 0x03#8, 0xF0#8, 0xE4#8, 0xC1#8] = .ok (.andRM .b 1#3 (.regR8 (.idx 0#2) ⟨.cur 1#2, 0#2⟩)) [] := by decide
theorem test_decode_andMR :
    decode [0xD3#8, 0x07#8, 0x14#8, 0xEA#8, 0xCB#8] = .ok (.andMR .w (.regR16 (.bank 1#2 1#2) ⟨.cur 2#2, 2#2⟩) 3#3) [] := by decide
theorem test_decode_cpRM : decode [0xE5#8, 0xF6#8, 0xF4#8] = .ok (.cpRM .l 4#3 (.postInc (.idx 1#2) .by4)) [] := by decide
theorem test_decode_cpMR :
    decode [0xC2#8, 0x56#8, 0x34#8, 0x12#8, 0xF9#8] = .ok (.cpMR .b (.abs24 0x123456#24) 1#3) [] := by decide
theorem test_decode_andcfAM : decode [0xB4#8, 0x28#8] = .ok (.andcfAM (.ind 4#3)) [] := by decide
theorem test_decode_andcfNM : decode [0xF1#8, 0x00#8, 0x01#8, 0x86#8] = .ok (.andcfNM 6#3 (.abs16 0x0100#16)) [] := by decide
theorem test_decode_chgNM : decode [0xF1#8, 0x00#8, 0x01#8, 0xC5#8] = .ok (.chgNM 5#3 (.abs16 0x0100#16)) [] := by decide
theorem test_decode_bitNM : decode [0xF1#8, 0x00#8, 0x01#8, 0xCD#8] = .ok (.bitNM 5#3 (.abs16 0x0100#16)) [] := by decide
theorem test_decode_callM : decode [0xF1#8, 0x00#8, 0x30#8, 0xEC#8] = .ok (.callM .nov (.abs16 0x3000#16)) [] := by decide

/-! ## Single steps: the source's examples and the spec's vectors (spec/95_test_vectors.md) -/

/-- The outcome is a next state that passes the check. -/
def isNext (r : Result State) (p : State → Bool) : Bool :=
  match r with
  | .next t => p t
  | .fault _ => false
  | .refused _ => false

/-- One step of a program of one instruction placed at pc. -/
def run (bytes : List Byte) (s : State) : Result State := step (s.loadProgram s.pc bytes)

/-- The register with an 8-bit code of R21. -/
def reg (k : Byte) : RegCode := ⟨(longRegOfCode6 (hi6 k)).getD (.bank 0#2 0#2), lo2 k⟩

/-- The state after reset with one register set. -/
def with8 (k v : Byte) (s : State) : State := s.writeReg (reg k) v

def with16 (k : Byte) (v : Word16) (s : State) : State := s.writeReg (reg k) v

def with32 (k : Byte) (v : Word32) (s : State) : State := s.writeReg (reg k) v

/-- A state with one byte of memory set. -/
def poke (a : Nat) (b : Byte) (s : State) : State := { s with mem := s.mem.write a b }

/-- The flags S Z H V N C in the source's order, as bits of a number. -/
def flags (v : BitVec 6) : Flags :=
  ⟨v.getLsbD 5, v.getLsbD 4, v.getLsbD 3, v.getLsbD 2, v.getLsbD 1, v.getLsbD 0, 0#2⟩

def base : State := State.reset

/-- EX F,F' (R100, example). -/
theorem test_step_exFF :
    isNext (run [0x16#8] { base with f := flags 0b100001#6, fAlt := flags 0b010110#6 })
      (fun t => t.f == flags 0b010110#6 && t.fAlt == flags 0b100001#6 && t.pc == 0x8001#32) = true := by decide

/-- EX A,B (the source's example). -/
theorem test_step_exRR :
    isNext (run [0xCA#8, 0xB9#8] (with8 0xE5#8 0x34#8 (with8 0xE0#8 0x12#8 base)))
      (fun t => t.readReg 8 (reg 0xE0#8) == 0x34#8 && t.readReg 8 (reg 0xE5#8) == 0x12#8) = true := by decide

/-- EX (100H),A (R102, example). -/
theorem test_step_exMR :
    isNext (run [0xC1#8, 0x00#8, 0x01#8, 0x31#8] (poke 0x100 0x34#8 (with8 0xE0#8 0x12#8 base)))
      (fun t => t.readReg 8 (reg 0xE0#8) == 0x34#8 && t.byteAt 0x100 == 0x12#8 && t.pc == 0x8004#32) = true := by decide

/-- CPI with the last byte equal to A (V10). -/
theorem test_step_cpi :
    isNext (run [0x84#8, 0x14#8] (poke 0x123456 0x33#8 (with16 0xE4#8 1#16 (with32 0xF0#8 0x123456#32
        (with8 0xE0#8 0x33#8 { base with f := flags 0b000001#6 })))))
      (fun t => t.readReg 32 (reg 0xF0#8) == 0x123457#32 && t.readReg 16 (reg 0xE4#8) == 0#16
        && t.f == flags 0b010011#6) = true := by decide

/-- CPIR to a match at the third byte (the source's example, with its counter). -/
theorem test_step_cpir :
    isNext (run [0x84#8, 0x15#8] (poke 0x123456 0x11#8 (poke 0x123457 0x22#8 (poke 0x123458 0x33#8 (with16 0xE4#8 0x200#16
        (with32 0xF0#8 0x123456#32 (with8 0xE0#8 0x33#8 base)))))))
      (fun t => t.readReg 32 (reg 0xF0#8) == 0x123459#32 && t.readReg 16 (reg 0xE4#8) == 0x1FD#16
        && t.f == flags 0b010110#6) = true := by decide

/-- CPD (V12). -/
theorem test_step_cpd :
    isNext (run [0x84#8, 0x16#8] (poke 0x123456 0x01#8 (with16 0xE4#8 0x200#16 (with32 0xF0#8 0x123456#32
        (with8 0xE0#8 0x10#8 base)))))
      (fun t => t.readReg 32 (reg 0xF0#8) == 0x123455#32 && t.f == flags 0b001110#6) = true := by decide

/-- CPDR to the end of its count (the source's example, A read as 55H by C10). -/
theorem test_step_cpdr :
    isNext (run [0x84#8, 0x17#8] (poke 0x123456 0x11#8 (poke 0x123455 0x22#8 (poke 0x123454 0x33#8 (with16 0xE4#8 3#16
        (with32 0xF0#8 0x123456#32 (with8 0xE0#8 0x55#8 { base with f := flags 0b000001#6 })))))))
      (fun t => t.readReg 32 (reg 0xF0#8) == 0x123453#32 && t.readReg 16 (reg 0xE4#8) == 0#16
        && t.f == flags 0b000011#6) = true := by decide

/-- ADD HL,IX (the source's example). -/
theorem test_step_addRR :
    isNext (run [0xDC#8, 0x83#8] (with16 0xEC#8 0x2000#16 (with16 0xF0#8 0x3456#16 { base with f := flags 0b111111#6 })))
      (fun t => t.readReg 16 (reg 0xEC#8) == 0x5456#16 && t.f == flags 0b000000#6) = true := by decide

/-- ADD A,FFH carries out (V20). -/
theorem test_step_addRI_wraps :
    isNext (run [0xC9#8, 0xC8#8, 0xFF#8] (with8 0xE0#8 1#8 base))
      (fun t => t.readReg 8 (reg 0xE0#8) == 0#8 && t.f == flags 0b011001#6 && t.pc == 0x8003#32) = true := by decide

/-- ADD A,(XIX+r8) with a negative index (V26). -/
theorem test_step_addRM_negative_index :
    isNext (run [0xC3#8, 0x03#8, 0xF0#8, 0xE4#8, 0x81#8] (poke 0x100 5#8 (with8 0xE4#8 0xFE#8 (with32 0xF0#8 0x102#32
        (with8 0xE0#8 1#8 base)))))
      (fun t => t.readReg 8 (reg 0xE0#8) == 6#8 && t.pc == 0x8005#32) = true := by decide

/-- ADD (-XIX),A (V28). -/
theorem test_step_addMR_predecrement :
    isNext (run [0xC4#8, 0xF0#8, 0x89#8] (poke 0x100 5#8 (with32 0xF0#8 0x101#32 (with8 0xE0#8 1#8 base))))
      (fun t => t.readReg 32 (reg 0xF0#8) == 0x100#32 && t.byteAt 0x100 == 6#8) = true := by decide

/-- ADDW (200H),1234H: the low byte lies lower (V23). -/
theorem test_step_addMI :
    isNext (run [0xD1#8, 0x00#8, 0x02#8, 0x38#8, 0x34#8, 0x12#8] (poke 0x201 0x0F#8 base))
      (fun t => t.byteAt 0x200 == 0x34#8 && t.byteAt 0x201 == 0x21#8 && t.f == flags 0b000000#6) = true := by decide

/-- ADC HL,IX with C = 1 (the source's example). -/
theorem test_step_adcRR :
    isNext (run [0xDC#8, 0x93#8] (with16 0xEC#8 0x2000#16 (with16 0xF0#8 0x3456#16 { base with f := flags 0b000001#6 })))
      (fun t => t.readReg 16 (reg 0xEC#8) == 0x5457#16 && t.f == flags 0b000000#6) = true := by decide

/-- ADC (XDE),L overflows (V33). -/
theorem test_step_adcMR :
    isNext (run [0x82#8, 0x9F#8] (poke 0x400 0x7F#8 (with32 0xE8#8 0x400#32 { base with f := flags 0b000001#6 })))
      (fun t => t.byteAt 0x400 == 0x80#8 && t.f == flags 0b101100#6) = true := by decide

/-- CP HL,IX of equal values (the source's example). -/
theorem test_step_cpRR :
    isNext (run [0xDC#8, 0xF3#8] (with16 0xEC#8 0x1234#16 (with16 0xF0#8 0x1234#16 base)))
      (fun t => t.readReg 16 (reg 0xEC#8) == 0x1234#16 && t.f == flags 0b010010#6) = true := by decide

/-- CP (XHL),A: the memory operand is the minuend (V38). -/
theorem test_step_cpMR :
    isNext (run [0x83#8, 0xF9#8] (poke 0x100 0x80#8 (with32 0xEC#8 0x100#32 (with8 0xE0#8 1#8 base))))
      (fun t => t.byteAt 0x100 == 0x80#8 && t.f == flags 0b001110#6) = true := by decide

/-- DEC 1,A from 0 keeps C (V40). -/
theorem test_step_decNR_byte :
    isNext (run [0xC9#8, 0x69#8] { base with f := flags 0b000001#6 })
      (fun t => t.readReg 8 (reg 0xE0#8) == 0xFF#8 && t.f == flags 0b101011#6) = true := by decide

/-- DEC 4,HL changes no flag (the source's example and note). -/
theorem test_step_decNR_word :
    isNext (run [0xDB#8, 0x6C#8] (with16 0xEC#8 0x5678#16 { base with f := flags 0b101011#6 }))
      (fun t => t.readReg 16 (reg 0xEC#8) == 0x5674#16 && t.f == flags 0b101011#6) = true := by decide

/-- DECW 2,(XIX) sets flags (V43). -/
theorem test_step_decNM :
    isNext (run [0x94#8, 0x6A#8] (poke 0x100 1#8 (with32 0xF0#8 0x100#32 base)))
      (fun t => t.byteAt 0x100 == 0xFF#8 && t.byteAt 0x101 == 0xFF#8 && t.f == flags 0b101010#6) = true := by decide

/-- EXTZ HL (the source's example): QHL is kept. -/
theorem test_step_extz :
    isNext (run [0xDB#8, 0x12#8] (with32 0xEC#8 0x11116789#32 base))
      (fun t => t.readReg 32 (reg 0xEC#8) == 0x11110089#32) = true := by decide

/-- EXTS XWA (R139, example). -/
theorem test_step_exts :
    isNext (run [0xE8#8, 0x13#8] (with32 0xE0#8 0x8000#32 base))
      (fun t => t.readReg 32 (reg 0xE0#8) == 0xFFFF8000#32) = true := by decide

/-- DAA A after 59H + 13H (the source's example). -/
theorem test_step_daa :
    isNext (run [0xC9#8, 0x10#8] (with8 0xE0#8 0x6C#8 base))
      (fun t => t.readReg 8 (reg 0xE0#8) == 0x72#8 && t.f == flags 0b001100#6) = true := by decide

/-- DAA A off its table runs and keeps N (V50). -/
theorem test_step_daa_off_table :
    isNext (run [0xC9#8, 0x10#8] (with8 0xE0#8 0x0F#8 { base with f := flags 0b001000#6 }))
      (fun t => t.pc == 0x8002#32 && t.f.n == false) = true := by decide

/-- DAA A after a BCD difference with both borrows, 10H - 21H = EFH: the row that adds 9AH (R140). -/
theorem test_step_daa_subtract :
    isNext (run [0xC9#8, 0x10#8] (with8 0xE0#8 0xEF#8 { base with f := flags 0b001011#6 }))
      (fun t => t.readReg 8 (reg 0xE0#8) == 0x89#8 && t.f.c && t.f.n) = true := by decide

/-- CP A,(XIY+) with step code 01 moves XIY by 2 and CP A,(-XIY) with step code 10 by 4, at Byte all the same (R76). -/
theorem test_step_step_codes :
    isNext (run [0xC5#8, 0xF5#8, 0xF1#8] (with32 0xF4#8 0x200#32 base)) (fun t => t.readReg 32 (reg 0xF4#8) == 0x202#32) = true
    ∧ isNext (run [0xC4#8, 0xF6#8, 0xF1#8] (with32 0xF4#8 0x200#32 base)) (fun t => t.readReg 32 (reg 0xF4#8) == 0x1FC#32) = true := by
  decide

/-- An instruction that runs out of TEXT is stuck (R61). -/
theorem test_step_out_of_text : run [0xC9#8, 0xC8#8] base = .fault .fetchOutsideText := rfl

/-- DIV XIX,IY (the source's example). -/
theorem test_step_divRR :
    isNext (run [0xDD#8, 0x54#8] (with32 0xF0#8 0x12345678#32 (with16 0xF4#8 0x89AB#16 { base with f := flags 0b111111#6 })))
      (fun t => t.readReg 32 (reg 0xF0#8) == 0x0FDA21DA#32 && t.f == flags 0b111011#6) = true := by decide

/-- DIV WA,0 sets V and goes on (V53). -/
theorem test_step_divRI_by_zero :
    isNext (run [0xC9#8, 0x0A#8, 0x00#8] (with16 0xE0#8 0x1234#16 base))
      (fun t => t.pc == 0x8003#32 && t.f == flags 0b000100#6) = true := by decide

/-- DIVS XIX,IY (the source's example, by C1). -/
theorem test_step_divsRR :
    isNext (run [0xDD#8, 0x5C#8] (with32 0xF0#8 0x12345678#32 (with16 0xF4#8 0x89AB#16 base)))
      (fun t => t.readReg 32 (reg 0xF0#8) == 0x16EED89E#32 && t.f == flags 0b000000#6) = true := by decide

/-- DIVS WA,B with -7 / -2: the remainder has the dividend's sign (V60). -/
theorem test_step_divsRR_signs :
    isNext (run [0xCA#8, 0x59#8] (with16 0xE0#8 0xFFF9#16 (with8 0xE5#8 0xFE#8 base)))
      (fun t => t.readReg 16 (reg 0xE0#8) == 0xFF03#16 && !t.f.v) = true := by decide

/-- AND HL,IX (the source's example). -/
theorem test_step_andRR :
    isNext (run [0xDC#8, 0xC3#8] (with16 0xEC#8 0x7350#16 (with16 0xF0#8 0x3456#16 { base with f := flags 0b111111#6 })))
      (fun t => t.readReg 16 (reg 0xEC#8) == 0x3050#16 && t.f == flags 0b001100#6) = true := by decide

/-- CPL WA (the source's example): QWA and the other flags are kept. -/
theorem test_step_cplR :
    isNext (run [0xD8#8, 0x06#8] (with32 0xE0#8 0x77771234#32 { base with f := flags 0b110101#6 }))
      (fun t => t.readReg 32 (reg 0xE0#8) == 0x7777EDCB#32 && t.f == flags 0b111111#6) = true := by decide

/-- ANDCF 6,(100H) (the source's example). -/
theorem test_step_andcfNM :
    isNext (run [0xF1#8, 0x00#8, 0x01#8, 0x86#8] (poke 0x100 0x40#8 { base with f := flags 0b101011#6 }))
      (fun t => t.f == flags 0b101011#6 && t.byteAt 0x100 == 0x40#8) = true := by decide

/-- ANDCF A,BC with a 0 bit (R181). -/
theorem test_step_andcfAR :
    isNext (run [0xD9#8, 0x28#8] (with8 0xE0#8 0x1F#8 (with16 0xE4#8 0x7FFF#16 { base with f := flags 0b000001#6 })))
      (fun t => t.f == flags 0b000000#6) = true := by decide

/-- CCF (R184): S, Z and V are kept. -/
theorem test_step_ccf :
    isNext (run [0x12#8] { base with f := flags 0b110110#6 })
      (fun t => t.f.s && t.f.z && t.f.v && !t.f.n && t.f.c) = true := by decide

/-- BIT 5,(100H) of a 1 bit (the source's example). -/
theorem test_step_bitNM :
    isNext (run [0xF1#8, 0x00#8, 0x01#8, 0xCD#8] (poke 0x100 0x20#8 { base with f := flags 0b110111#6 }))
      (fun t => !t.f.z && t.f.h && !t.f.n && t.f.c) = true := by decide

/-- CHG 5,(100H) (the source's example). -/
theorem test_step_chgNM :
    isNext (run [0xF1#8, 0x00#8, 0x01#8, 0xC5#8] (poke 0x100 0x27#8 { base with f := flags 0b101011#6 }))
      (fun t => t.byteAt 0x100 == 0x07#8 && t.f == flags 0b101011#6) = true := by decide

/-- BS1F A,IX (the source's example). -/
theorem test_step_bs1f :
    isNext (run [0xDC#8, 0x0E#8] (with16 0xF0#8 0x1200#16 { base with f := flags 0b111111#6 }))
      (fun t => t.readReg 8 (reg 0xE0#8) == 0x09#8 && t.f == flags 0b111011#6) = true := by decide

/-- BS1B A,IX (the source's example). -/
theorem test_step_bs1b :
    isNext (run [0xDC#8, 0x0F#8] (with16 0xF0#8 0x1200#16 { base with f := flags 0b111111#6 }))
      (fun t => t.readReg 8 (reg 0xE0#8) == 0x0C#8 && t.f == flags 0b111011#6) = true := by decide

/-- BS1F A,IX of zero sets V and goes on (R189). -/
theorem test_step_bs1f_zero :
    isNext (run [0xDC#8, 0x0E#8] base) (fun t => t.f == flags 0b000100#6 && t.pc == 0x8002#32) = true := by decide

/-- EI 3 (R200, example). -/
theorem test_step_ei : isNext (run [0x06#8, 0x03#8] base) (fun t => t.iffLevel == 3#3) = true := by decide

/-- DI from level 2 (R201, example). -/
theorem test_step_di :
    isNext (run [0x06#8, 0x07#8] { base with iffLevel := 2#3 }) (fun t => t.iffLevel == 7#3) = true := by decide

/-- DECF from 2 (the source's example). -/
theorem test_step_decf : isNext (run [0x0D#8] { base with rfp := 2#3 }) (fun t => t.rfp == 1#3) = true := by decide

/-- DECF from 0 (R202, wrap example). -/
theorem test_step_decf_wraps : isNext (run [0x0D#8] base) (fun t => t.rfp == 3#3) = true := by decide

/-- CALL 9000H at 8000H with XSP = 100H (the source's example; the bytes by R63). -/
theorem test_step_call16 :
    isNext (run [0x1C#8, 0x00#8, 0x90#8] (with32 0xFC#8 0x100#32 base))
      (fun t => t.pc == 0x9000#32 && t.readReg 32 (reg 0xFC#8) == 0xFC#32 && t.byteAt 0xFC == 0x03#8
        && t.byteAt 0xFD == 0x80#8 && t.byteAt 0xFE == 0#8 && t.byteAt 0xFF == 0#8) = true := by decide

/-- CALR $ is relative to the next instruction (R214). -/
theorem test_step_calr :
    isNext (run [0x1E#8, 0xFD#8, 0xFF#8] (with32 0xFC#8 0x100#32 base))
      (fun t => t.pc == 0x8000#32 && t.byteAt 0xFC == 0x03#8) = true := by decide

/-- CALL NOV,3000H with V = 1 does not jump (R212). -/
theorem test_step_callM_false :
    isNext (run [0xF1#8, 0x00#8, 0x30#8, 0xEC#8] { base with f := flags 0b000100#6 })
      (fun t => t.pc == 0x8004#32 && t.readReg 32 (reg 0xFC#8) == 0#32) = true := by decide

/-- CALL NOV,3000H with V = 0 jumps to the address itself (R212). -/
theorem test_step_callM_true :
    isNext (run [0xF1#8, 0x00#8, 0x30#8, 0xEC#8] (with32 0xFC#8 0x100#32 base))
      (fun t => t.pc == 0x3000#32 && t.byteAt 0xFC == 0x04#8) = true := by decide

/-- DJNZ W from 3 jumps back (the source's example). -/
theorem test_step_djnz :
    isNext (run [0xC8#8, 0x1C#8, 0xFB#8] (with8 0xE1#8 3#8 { base with f := flags 0b111111#6 }))
      (fun t => t.readReg 8 (reg 0xE1#8) == 2#8 && t.pc == 0x7FFE#32 && t.f == flags 0b111111#6) = true := by decide

/-- DJNZ W from 1 falls through (R215). -/
theorem test_step_djnz_end :
    isNext (run [0xC8#8, 0x1C#8, 0xFB#8] (with8 0xE1#8 1#8 base)) (fun t => t.pc == 0x8003#32) = true := by decide

/-! ## Witnesses: states and operands that meet the hypotheses of each obligation -/

theorem witness_DecodeOfEncodeIsTheInstruction :
    (Instr.addMI .w (.regR16 (.idx 3#2) ⟨.prev 3#2, 2#2⟩) 0xFFFF#32).wf = true ∧ (Instr.ei 6#3).wf = true := by decide

theorem witness_DecodedBytesAreTheEncoding :
    decode [0xD1#8, 0x00#8, 0x02#8, 0x38#8, 0x34#8, 0x12#8, 0xFF#8]
      = .ok (.addMI .w (.abs16 0x0200#16) 0x1234#32) [0xFF#8] := by decide

theorem witness_FirstBytesOutsideTheMapAreRefused :
    (∀ b ∈ [0x00#8, 0x05#8, 0x07#8, 0x1F#8, 0x7F#8],
      b.toNat < 0x80 ∧ b ∉ [0x06#8, 0x0D#8, 0x12#8, 0x16#8, 0x1C#8, 0x1D#8, 0x1E#8])
    ∧ 0xF7#8 ∈ [0xC6#8, 0xD6#8, 0xE6#8, 0xF6#8, 0xF7#8] ∧ 0xF8 ≤ (0xF8#8).toNat ∧ 0xF8 ≤ (0xFF#8).toNat := by decide

theorem witness_ReservedFieldsAreRefused :
    (∀ k ∈ [0x40#8, 0xCF#8], 0x40 ≤ k.toNat ∧ k.toNat < 0xD0) ∧ (0x41#8).toNat % 4 < 2
    ∧ ((0x3F#8).toNat < 0x40 ∧ (0x3F#8).toNat % Size.w.bytes ≠ 0) ∧ (0xD0 ≤ (0xD2#8).toNat ∧ (0xD2#8).toNat % Size.l.bytes ≠ 0)
    ∧ ((0x3F#8).toNat % 4 ≠ 0 ∧ (0xD1#8).toNat % 2 ≠ 0)
    ∧ (∀ k ∈ [0x02#8, 0x06#8, 0x0B#8], 2 ≤ k.toNat % 4 ∧ k ≠ 0x03#8 ∧ k ≠ 0x07#8)
    ∧ (RSel.wf SizeBW.w.size (.ext ⟨.idx 3#2, 2#2⟩) = true ∧ 0x33#8 ∈ [0x20#8, 0x32#8, 0x33#8] ∧ 16 ≤ (0x10#8).toNat)
    ∧ 8 ≤ (0x08#8).toNat
    ∧ (0b01011#5 ∈ [0b01010#5, 0b01011#5] ∧ 6#3 ∈ [0#3, 2#3, 4#3, 6#3] ∧ Mem.wf (.regR16 (.idx 0#2) ⟨.cur 1#2, 2#2⟩) = true)
    ∧ (0x0B#8 ∈ [0x0A#8, 0x0B#8] ∧ (0xD1#8).toNat % (2 * SizeBW.b.size.bytes) ≠ 0
      ∧ (0x3E#8).toNat % (2 * SizeBW.w.size.bytes) ≠ 0) := by decide

theorem witness_SizesMarkedXAreRefused :
    (RSel.wf .l (.ext ⟨.prev 3#2, 0#2⟩) = true ∧ RSel.wf .l (.short 7#3) = true ∧ RSel.wf .w (.ext ⟨.idx 3#2, 2#2⟩) = true)
    ∧ 0b01010#5 ++ 7#3 ∈ [0x06#8, 0x0A#8, 0x0B#8, 0x1C#8, 0x20#8, 0x28#8, 0x32#8, 0x33#8, 0b01010#5 ++ 7#3, 0b01011#5 ++ 7#3,
      0b10111#5 ++ 7#3, 0b11011#5 ++ 7#3]
    ∧ (Size.b ≠ .w ∧ Size.l ≠ .w ∧ 0x0F#8 ∈ [0x0E#8, 0x0F#8]) ∧ (Size.w ≠ .b ∧ Size.l ≠ .b) ∧ 0x13#8 ∈ [0x12#8, 0x13#8]
    ∧ (Mem.wf (.regR16 (.idx 0#2) ⟨.cur 1#2, 2#2⟩) = true
      ∧ 0x3F#8 ∈ [0b00110#5 ++ 0#3, 0x38#8, 0x39#8, 0x3C#8, 0x3F#8, 0b01010#5 ++ 0#3, 0b01011#5 ++ 0#3, 0b01101#5 ++ 0#3])
    ∧ 0x17#8 ∈ [0x14#8, 0x15#8, 0x16#8, 0x17#8] := by decide

/-- A machine whose program is CCF. -/
def atCcf : State := base.loadProgram base.pc [0x12#8]

theorem witness_StepRunsTheDecodedInstruction : atCcf.atHalt = false ∧ decode atCcf.fetch = .ok .ccf [] := by decide

theorem witness_StepRunsTheInstructionInText :
    Instr.ccf.wf = true ∧ atCcf.launch.haltPc ≠ some atCcf.pc
    ∧ ∀ (j : Nat) (b : Byte), (encode .ccf)[j]? = some b →
      atCcf.launch.isText (atCcf.addr atCcf.pc j) = true ∧ atCcf.byteAt (atCcf.addr atCcf.pc j) = b := by
  refine ⟨by decide, by decide, fun j b h => ?_⟩
  cases j with
  | zero =>
    simp only [encode, List.getElem?_cons_zero, Option.some.injEq] at h
    subst h
    decide
  | succ j => simp [encode] at h

theorem witness_StepStopsAtTheEndAndOutsideText :
    (let s := { base with launch := { base.launch with haltPc := some base.pc } }; s.launch.haltPc = some s.pc)
    ∧ base.launch.haltPc ≠ some base.pc ∧ base.launch.isText (base.addr base.pc 0) = false
    ∧ (let s := base.loadProgram base.pc [0xC9#8, 0xC8#8]
      let i := Instr.addRI .b (.short 1#3) 5#32
      i.wf = true ∧ s.launch.haltPc ≠ some s.pc ∧ 2 < (encode i).length ∧ (encode i).take 2 = [0xC9#8, 0xC8#8]
      ∧ (∀ k < 2, s.launch.isText (s.addr s.pc k) = true ∧ some (s.byteAt (s.addr s.pc k)) = (encode i)[k]?)
      ∧ s.launch.isText (s.addr s.pc 2) = false) := by decide

/-- The premises about a state to load a program into: the state after reset meets them, with no address of TEXT. -/
theorem base_launch : base.Inv ∧ base.launch.textAdmitted := by
  refine ⟨?_, fun a h => by simp [base, State.reset, Launch.reset] at h⟩
  unfold State.Inv State.memOk State.rfpOk
  decide

/-- A loaded CCF, with HALT_PC right after it, is a well-formed launch. -/
theorem witness_LaunchOfAProgramIsWellFormed :
    base.Inv ∧ base.launch.textAdmitted ∧ [0x12#8] ≠ []
    ∧ ({ atCcf with launch := { atCcf.launch with haltPc := some 0x8001#32 } } : State).WellFormedLaunch [0x8000#32] := by
  refine ⟨base_launch.1, base_launch.2, by decide, ?_, ?_, by decide, by decide, ?_⟩
  · unfold State.Inv State.memOk State.rfpOk
    decide
  · intro a h
    simp only [Launch.admits, List.any_eq_true] at h ⊢
    obtain ⟨r, hr, ha⟩ := h
    have : ∀ r ∈ atCcf.launch.text, r ∈ atCcf.launch.admitted := by decide
    exact ⟨r, this r hr, ha⟩
  · intro h hh
    cases hh
    decide

theorem base_storeOk : base.storeOk := by
  unfold State.storeOk
  decide

theorem witness_PlacedWordIsTheNextInstruction : base.storeOk ∧ (16 = 8 ∨ 16 = 16) := ⟨base_storeOk, by decide⟩

theorem witness_EveryStepKeepsTheInvariant : atCcf.Inv ∧ ∃ t, step atCcf = .next t := by
  refine ⟨?_, ?_⟩
  · unfold State.Inv State.memOk State.rfpOk
    decide
  · rw [show step atCcf = exec .ccf atCcf from rfl]
    exact ⟨_, rfl⟩

theorem witness_EveryStepKeepsTheProgramText :
    (∃ t, step atCcf = .next t) ∧ atCcf.launch.isText 0x8000 = true :=
  ⟨witness_EveryStepKeepsTheInvariant.2, by decide⟩

theorem witness_SystemFieldsChangeOnlyByTheirInstructions :
    ∃ t, exec .ccf base = .next t ∧ (∀ n, Instr.ccf ≠ .ei n) ∧ Instr.ccf ≠ .di ∧ Instr.ccf ≠ .decf ∧ Instr.ccf ≠ .exFF :=
  ⟨_, rfl, by simp, by simp, by simp, by simp⟩

theorem witness_OnlyCallsAndDjnzWritePcWithATarget :
    ∃ t, exec .ccf base = .next t ∧ (∀ a, Instr.ccf ≠ .call16 a) ∧ (∀ a, Instr.ccf ≠ .call24 a) ∧ (∀ c m, Instr.ccf ≠ .callM c m)
      ∧ (∀ d, Instr.ccf ≠ .calr d) ∧ ∀ z r d, Instr.ccf ≠ .djnz z r d :=
  ⟨_, rfl, by simp, by simp, by simp, by simp, by simp⟩

theorem witness_InstructionsWithoutFlagEffectKeepF :
    (∃ t, exec (.decNR .l 0#3 (.short 0#3)) base = .next t) ∧ ∃ t, exec (.extz .w (.short 0#3)) base = .next t :=
  ⟨⟨_, rfl⟩, ⟨_, rfl⟩⟩

theorem witness_RegisterWriteChangesOnlyItsBytes :
    RegCode.aligned ⟨.prev 3#2, 3#2⟩ .b = true ∧ RegCode.aligned ⟨.bank 3#2 3#2, 2#2⟩ .w = true
    ∧ RegCode.aligned ⟨.idx 3#2, 0#2⟩ .l = true := by decide

theorem witness_ConditionCodesMeanTheirTable :
    callMode (.abs16 0x3000#16) = true ∧ base.f.holds (condOfCode 0x0#4) = false ∧ base.f.holds (condOfCode 0x7#4) = false := by
  decide

/-- Four bytes at the top of the address space may be written; they wrap to address 0. -/
theorem witness_MemoryReadsBackWhatWasWritten : base.storeOk ∧ base.writable 0x00FFFFFE#32 Size.l.bytes := by
  refine ⟨base_storeOk, ?_⟩
  unfold State.writable
  decide

/-- A machine that admits the first 256 addresses, the last sixteen of them TEXT. -/
def small : State := { base with launch := { base.launch with admitted := [⟨0, 0x100⟩], text := [⟨0xF0, 0x10⟩] } }

theorem witness_MemoryAccessStopsWhereTheLaunchSaysSo :
    (∃ i, i < Size.w.bytes ∧ small.launch.admits (small.addr 0xFF#32 i) = false)
    ∧ (∀ i, i < Size.w.bytes → small.launch.admits (small.addr 0xEF#32 i) = true)
    ∧ ∃ i, i < Size.w.bytes ∧ small.launch.isText (small.addr 0xEF#32 i) = true := by
  refine ⟨⟨1, by decide, by decide⟩, by decide, 1, by decide, by decide⟩

/-- A register operand in every position that needs a well-formed one. -/
theorem witness_register : RSel.wf .w (.ext ⟨.prev 0#2, 2#2⟩) = true ∧ RSel.wf .l (.short 7#3) = true := by decide

/-- A memory operand with a post-increment that clashes with nothing, can be read and can be written, at every size. -/
theorem witness_memory (z : Size) (k : RegCode) (h : Mem.clashes base (.postInc (.idx 2#2) .by4) k = false) :
    base.storeOk ∧ NoClash base (.postInc (.idx 2#2) .by4) [k]
    ∧ base.memRead z.bits (Mem.ea base (.postInc (.idx 2#2) .by4)) = .next 0#z.bits
    ∧ base.writable (Mem.ea base (.postInc (.idx 2#2) .by4)) z.bytes := by
  refine ⟨base_storeOk, fun k' hk => ?_, memRead_eq_next.2 ?_, ?_⟩
  · rw [List.mem_singleton.1 hk]
    exact h
  · cases z <;> decide
  · unfold State.writable
    cases z <;> decide

theorem witness_AddToARegister : RSel.wf .l (.short 7#3) = true
    ∧ NoClash base (.postInc (.idx 2#2) .by4) [shortCode .l 7#3]
    ∧ base.memRead 32 (Mem.ea base (.postInc (.idx 2#2) .by4)) = .next 0#32 :=
  ⟨by decide, (witness_memory .l _ (by decide)).2.1, (witness_memory .l ⟨.cur 0#2, 0#2⟩ (by decide)).2.2.1⟩

theorem witness_AddToMemory : base.storeOk ∧ NoClash base (.postInc (.idx 2#2) .by4) [shortCode .l 7#3]
    ∧ base.memRead 32 (Mem.ea base (.postInc (.idx 2#2) .by4)) = .next 0#32
    ∧ base.writable (Mem.ea base (.postInc (.idx 2#2) .by4)) Size.l.bytes := witness_memory .l _ (by decide)

theorem witness_AdcToARegister : RSel.wf .b (.short 7#3) = true
    ∧ NoClash base (.postInc (.idx 2#2) .by4) [shortCode .b 7#3]
    ∧ base.memRead 8 (Mem.ea base (.postInc (.idx 2#2) .by4)) = .next 0#8 :=
  ⟨by decide, (witness_memory .b _ (by decide)).2.1, (witness_memory .b ⟨.cur 0#2, 0#2⟩ (by decide)).2.2.1⟩

theorem witness_AdcToMemory : base.storeOk ∧ NoClash base (.postInc (.idx 2#2) .by4) [shortCode .w 7#3]
    ∧ base.memRead 16 (Mem.ea base (.postInc (.idx 2#2) .by4)) = .next 0#16
    ∧ base.writable (Mem.ea base (.postInc (.idx 2#2) .by4)) Size.w.bytes := witness_memory .w _ (by decide)

theorem witness_AndToARegister : RSel.wf .w (.ext ⟨.prev 0#2, 2#2⟩) = true
    ∧ NoClash base (.postInc (.idx 2#2) .by4) [shortCode .w 5#3]
    ∧ base.memRead 16 (Mem.ea base (.postInc (.idx 2#2) .by4)) = .next 0#16 :=
  ⟨by decide, (witness_memory .w _ (by decide)).2.1, (witness_memory .w ⟨.cur 0#2, 0#2⟩ (by decide)).2.2.1⟩

theorem witness_AndToMemory : base.storeOk ∧ NoClash base (.postInc (.idx 2#2) .by4) [shortCode .b 0#3]
    ∧ base.memRead 8 (Mem.ea base (.postInc (.idx 2#2) .by4)) = .next 0#8
    ∧ base.writable (Mem.ea base (.postInc (.idx 2#2) .by4)) Size.b.bytes := witness_memory .b _ (by decide)

theorem witness_CompareMemoryWritesOnlyFlags : NoClash base (.postInc (.idx 2#2) .by4) [shortCode .l 4#3]
    ∧ base.memRead 32 (Mem.ea base (.postInc (.idx 2#2) .by4)) = .next 0#32 :=
  ⟨(witness_memory .l _ (by decide)).2.1, (witness_memory .l ⟨.cur 0#2, 0#2⟩ (by decide)).2.2.1⟩

theorem witness_DecrementRegister : RSel.wf .b (.short 0#3) = true ∧ RSel.wf .l (.ext ⟨.bank 3#2 3#2, 0#2⟩) = true := by decide

theorem witness_DecrementMemory : base.storeOk
    ∧ base.memRead 16 (Mem.ea base (.postInc (.idx 2#2) .by4)) = .next 0#16
    ∧ base.writable (Mem.ea base (.postInc (.idx 2#2) .by4)) Size.w.bytes :=
  ⟨base_storeOk, (witness_memory .w ⟨.cur 0#2, 0#2⟩ (by decide)).2.2⟩

theorem witness_ExtendFillsTheUpperHalf :
    RSel.wf SizeWL.w.size (.ext ⟨.idx 0#2, 2#2⟩) = true ∧ RSel.wf SizeWL.l.size (.short 0#3) = true := by decide

theorem witness_DaaRowsAreDisjoint :
    ⟨true, true, 0x6, 0xF, true, 0x6, 0xF, 0x9A#8, true⟩ ∈ daaTable
    ∧ DaaRow.matches ⟨true, true, 0x6, 0xF, true, 0x6, 0xF, 0x9A#8, true⟩ (flags 0b001011#6) 0x66#8 = true := by decide

theorem witness_DecimalAdjust :
    (⟨false, false, 0x9, 0xF, false, 0xA, 0xF, 0x66#8, true⟩ ∈ daaTable
      ∧ DaaRow.matches ⟨false, false, 0x9, 0xF, false, 0xA, 0xF, 0x66#8, true⟩ (with8 0xE0#8 0x9A#8 base).f
        ((with8 0xE0#8 0x9A#8 base).readReg 8 (selCode .b (.short 1#3))) = true)
    ∧ ∀ row ∈ daaTable, row.matches { base with f := flags 0b001000#6 }.f
        ((with8 0xE0#8 0x04#8 { base with f := flags 0b001000#6 }).readReg 8 (selCode .b (.short 1#3))) = false := by decide

theorem witness_DaaAdjustsADecimalDifference :
    let s := with8 0xE0#8 0xEE#8 { base with f := flags 0b001011#6 }
    s.readReg 8 (selCode .b (.short 1#3)) = bcd 10 - bcd 21 - BitVec.ofNat 8 true.toNat ∧ s.f.n = true
    ∧ (s.f.c = true ↔ 10 < 21 + true.toNat) ∧ (s.f.h = true ↔ 10 % 10 < 21 % 10 + true.toNat) := by decide

theorem witness_AddThenDaaAddsInDecimal :
    (with8 0xE0#8 0x99#8 base).readReg 8 (selCode .b (.short 1#3)) = bcd 99 ∧ 99 < 100 := by decide

/-- XIX = 12345678H and IY = 89ABH (the source's example), the same divisor in memory at 100H. -/
def dividing : State :=
  poke 0x100 0xAB#8 (poke 0x101 0x89#8 (with32 0xF4#8 0x000089AB#32 (with32 0xF0#8 0x12345678#32 (with32 0xEC#8 0x100#32 base))))

theorem dividing_reads : dividing.memRead 16 (Mem.ea dividing (.ind 3#3)) = .next 0x89AB#16 := memRead_eq_next.2 (by decide)

theorem witness_UnsignedDivide :
    dividendCodeOk .w 4#3 = true ∧ RSel.dividendOk .w (.short 4#3) = true ∧ NoClash dividing (.ind 3#3) [shortCode .w 4#3]
    ∧ dividing.memRead 16 (Mem.ea dividing (.ind 3#3)) = .next 0x89AB#16
    ∧ UnsignedFits (n := 16) (dividing.readReg 32 (shortCode .w 4#3)) 0x89AB#16
    ∧ dividing.readReg 16 (selCode .w (.short 5#3)) = 0x89AB#16 := by
  refine ⟨by decide, by decide, ?_, dividing_reads, ?_, by decide⟩
  · unfold NoClash
    decide
  · unfold UnsignedFits
    decide

theorem witness_SignedDivide :
    dividendCodeOk .w 4#3 = true ∧ RSel.dividendOk .w (.short 4#3) = true ∧ NoClash dividing (.ind 3#3) [shortCode .w 4#3]
    ∧ dividing.memRead 16 (Mem.ea dividing (.ind 3#3)) = .next 0x89AB#16
    ∧ SignedFits (n := 16) (dividing.readReg 32 (shortCode .w 4#3)) 0x89AB#16
    ∧ dividing.readReg 16 (selCode .w (.short 5#3)) = 0x89AB#16 := by
  refine ⟨by decide, by decide, ?_, dividing_reads, ?_, by decide⟩
  · unfold NoClash
    decide
  · unfold SignedFits
    decide

theorem witness_DivisionErrorsSetVAndGoOn :
    dividendCodeOk .b 1#3 = true ∧ RSel.dividendOk .b (.ext ⟨.idx 0#2, 0#2⟩) = true
    ∧ NoClash base (.postInc (.idx 2#2) .by4) [shortCode .b 1#3]
    ∧ base.memRead 8 (Mem.ea base (.postInc (.idx 2#2) .by4)) = .next 0#8
    ∧ ¬ UnsignedFits (n := 8) (base.readReg 16 (shortCode .b 1#3)) 0#8
    ∧ ¬ SignedFits (n := 8) (base.readReg 16 (shortCode .b 1#3)) 0#8
    ∧ ¬ SignedFits (n := 8) 0xC000#16 0x80#8 := by
  refine ⟨by decide, by decide, (witness_memory .b _ (by decide)).2.1, (witness_memory .b ⟨.cur 0#2, 0#2⟩ (by decide)).2.2.1, ?_⟩
  unfold UnsignedFits SignedFits
  decide

theorem witness_ComplementRegister :
    RSel.wf SizeBW.b.size (.ext ⟨.prev 0#2, 3#2⟩) = true ∧ RSel.wf SizeBW.w.size (.short 7#3) = true
    ∧ RSel.wf .l (.ext ⟨.prev 0#2, 0#2⟩) = true := by decide

theorem witness_AndCarryWithABit :
    NoClash base (.postInc (.idx 2#2) .by4) [codeA] ∧ base.memRead 8 (Mem.ea base (.postInc (.idx 2#2) .by4)) = .next 0#8
    ∧ (7#4).toNat < SizeBW.b.bits ∧ (15#4).toNat < SizeBW.w.bits ∧ (base.readReg 8 codeA).toNat % 16 < 8 :=
  ⟨(witness_memory .b _ (by decide)).2.1, (witness_memory .b codeA (by decide)).2.2.1, by decide, by decide, by decide⟩

theorem witness_TestABit :
    base.memRead 8 (Mem.ea base (.postInc (.idx 2#2) .by4)) = .next 0#8 ∧ (7#4).toNat < SizeBW.b.bits
    ∧ (15#4).toNat < SizeBW.w.bits := ⟨(witness_memory .b codeA (by decide)).2.2.1, by decide, by decide⟩

theorem witness_InvertABit :
    (RSel.wf SizeBW.b.size (.short 7#3) = true ∧ (7#4).toNat < SizeBW.b.bits) ∧ 8 ≤ (8#4).toNat
    ∧ base.storeOk ∧ base.memRead 8 (Mem.ea base (.postInc (.idx 2#2) .by4)) = .next 0#8
    ∧ base.writable (Mem.ea base (.postInc (.idx 2#2) .by4)) 1 :=
  ⟨by decide, by decide, base_storeOk, (witness_memory .b codeA (by decide)).2.2⟩

theorem witness_SearchForABit :
    RSel.wf .w (.short 4#3) = true
    ∧ (let v := (with16 0xF0#8 0x1200#16 base).readReg 16 (selCode .w (.short 4#3))
      v.getLsbD 9 = true ∧ (∀ j, j < 9 → v.getLsbD j = false) ∧ v.getLsbD 12 = true
      ∧ ∀ j, j < 16 → 12 < j → v.getLsbD j = false)
    ∧ base.readReg 16 (selCode .w (.short 4#3)) = 0#16 := by decide

theorem witness_ExchangeRegisters :
    RSel.wf SizeBW.w.size (.ext ⟨.idx 0#2, 2#2⟩) = true ∧ RSel.wf .l (.ext ⟨.prev 0#2, 0#2⟩) = true
    ∧ base.slot (shortCode .w 1#3).row = base.slot (selCode .w (.short 1#3)).row
    ∧ (shortCode .w 1#3).off = (selCode .w (.short 1#3)).off := by decide

theorem witness_ExchangeMemoryAndRegister : base.storeOk ∧ NoClash base (.postInc (.idx 2#2) .by4) [shortCode .w 1#3]
    ∧ base.memRead 16 (Mem.ea base (.postInc (.idx 2#2) .by4)) = .next 0#16
    ∧ base.writable (Mem.ea base (.postInc (.idx 2#2) .by4)) Size.w.bytes := witness_memory .w _ (by decide)

theorem witness_CompareOnceAndCount :
    2#3 ≠ 0#3 ∧ 2#3 ≠ 1#3 ∧ base.memRead 16 (base.long (pointerReg 2#3)) = .next 0#16 := by
  refine ⟨by decide, by decide, memRead_eq_next.2 ?_⟩
  decide

/-- BC = 2, A = 5 and XIX = 100H: the bytes there are 1 and 2, so the count ends the repeat. -/
def counting : State := poke 0x100 1#8 (poke 0x101 2#8 (with16 0xE4#8 2#16 (with8 0xE0#8 5#8 (with32 0xF0#8 0x100#32 base))))

theorem counting_reads (j : Nat) (h : j < 2) :
    counting.memRead 8 (pointerAfter .b true (counting.long (pointerReg 4#3)) j) = .next (BitVec.ofNat 8 (j + 1)) := by
  apply memRead_eq_next.2
  rcases j with _ | _ | j
  · decide
  · decide
  · omega

theorem witness_CompareRepeatedAndCount :
    (4#3 ≠ 0#3 ∧ 4#3 ≠ 1#3 ∧ 1 ≤ 2 ∧ counting.readReg 16 codeBC = 2#16
      ∧ (∀ j, j < 2 → counting.memRead 8 (pointerAfter .b true (counting.long (pointerReg 4#3)) j)
        = .next (BitVec.ofNat 8 (j + 1)))
      ∧ (∀ j, j + 1 < 2 → BitVec.ofNat 8 (j + 1) ≠ counting.readReg 8 codeA))
    ∧ base.readReg 16 codeBC = 0#16
    ∧ base.memRead 8 (pointerAfter .b false (base.long (pointerReg 4#3)) 0) = .next (base.readReg 8 codeA) := by
  refine ⟨⟨by decide, by decide, by decide, by decide, counting_reads, fun j h => ?_⟩, by decide, memRead_eq_next.2 (by decide)⟩
  obtain rfl : j = 0 := by omega
  decide

theorem witness_DecfMovesToTheBankBelow : base.rfpOk ∧ { base with rfp := 3#3 }.rfpOk := by
  unfold State.rfpOk
  decide

theorem witness_CallsPushAndJump : base.storeOk ∧ base.writable (base.long rowXSP - 4#32) 4 := by
  refine ⟨base_storeOk, ?_⟩
  unfold State.writable
  decide

theorem witness_CallMemoryModeIsConditional :
    callMode (.regR16 (.idx 2#2) ⟨.cur 0#2, 2#2⟩) = true ∧ base.f.holds .nov = true ∧ base.f.holds .ov = false
    ∧ base.storeOk ∧ base.writable (base.long rowXSP - 4#32) 4 :=
  ⟨by decide, by decide, by decide, witness_CallsPushAndJump⟩

theorem witness_DecrementAndJump :
    RSel.wf SizeBW.b.size (.short 2#3) = true ∧ RSel.wf SizeBW.w.size (.ext ⟨.bank 2#2 1#2, 2#2⟩) = true := by decide

theorem witness_UnorderedOverlapsAreRefused :
    (1#3 = 0#3 ∨ 1#3 = 1#3)
    ∧ Mem.ind 7#3 ∈ [Mem.ind 7#3, .reg (.idx 3#2)]
    ∧ (Mem.preDec (.bank 0#2 1#2) .by1 = .preDec (.bank 0#2 1#2) .by1
      ∧ base.slot (.bank 0#2 1#2) = base.slot (shortCode .w 1#3).row)
    ∧ base.slot (.cur 0#2) = base.slot codeA.row := by decide

end Sys2Proof.Tests
end

/-! PROOF. The condition codes (spec/30_encoding.md rule R80): what each compound condition says of the flags, the negation eight codes
on, and the code's place in CALL [cc,]mem. -/

namespace Sys2Proof.Machine

/-! ## What a condition says of the flags -/

theorem holds_ge_iff (f : Flags) : f.holds .ge = true ↔ f.s = f.v := by
  simp [Flags.holds]

theorem holds_lt_iff (f : Flags) : f.holds .lt = true ↔ f.s ≠ f.v := by
  simp [Flags.holds]

theorem holds_gt_iff (f : Flags) : f.holds .gt = true ↔ f.z = false ∧ f.s = f.v := by
  simp [Flags.holds]

theorem holds_le_iff (f : Flags) : f.holds .le = true ↔ f.z = true ∨ f.s ≠ f.v := by
  simp [Flags.holds]

theorem holds_ugt_iff (f : Flags) : f.holds .ugt = true ↔ f.c = false ∧ f.z = false := by
  simp [Flags.holds]

theorem holds_ule_iff (f : Flags) : f.holds .ule = true ↔ f.c = true ∨ f.z = true := by
  simp [Flags.holds]

/-! ## The negation eight codes on -/

/-- No two codes name one condition, so every code is the code of the condition it names. -/
theorem code_condOfCode (c : BitVec 4) : (condOfCode c).code = c := by
  revert c; decide

/-- The eight lower conditions have their negations eight codes above; from the upper eight, adding 8 wraps round to the condition
that they negate. -/
theorem holds_code_add_eight (f : Flags) (k : Cond) : f.holds (condOfCode (k.code + 8#4)) = !f.holds k := by
  cases k with
  | never | lt | le | ule | ov | mi | zero | carry => rfl
  | always | ge | gt | ugt | nov | pl | nz | nc => exact (Bool.not_not _).symm

theorem holds_condOfCode_add_eight (f : Flags) (c : BitVec 4) :
    f.holds (condOfCode (c + 8#4)) = !f.holds (condOfCode c) := by
  have h := holds_code_add_eight f (condOfCode c)
  rwa [code_condOfCode] at h

/-! ## The condition of CALL [cc,]mem -/

theorem sizeOfCode_dstMark : sizeOfCode dstMark = none := rfl

/-- No other destination form has an op byte with the upper half E (R84). -/
theorem decodeDstOp_call (m : Mem) (c : BitVec 4) (bs : List Byte) :
    decodeDstOp m (0xE#4 ++ c) bs = .ok (.callM (condOfCode c) m) bs := by
  have others : ∀ c : BitVec 4, (0xE#4 ++ c : Byte) ≠ 0x28#8 ∧ hi5 (0xE#4 ++ c) ≠ 0b10000#5 ∧ hi5 (0xE#4 ++ c) ≠ 0b11000#5
      ∧ hi5 (0xE#4 ++ c) ≠ 0b11001#5 := by decide
  obtain ⟨andcfA, andcfN, chg, bit⟩ := others c
  rw [decodeDstOp, if_neg andcfA, if_neg andcfN, if_neg chg, if_neg bit, if_pos (hi4_append _ _), lo4_append]

/-- The op byte of CALL [cc,]mem after the bytes of any memory mode. -/
theorem decode_callM {m : Mem} (h : m.wf = true) (c : BitVec 4) (bs : List Byte) :
    decode (m.bytes dstMark ++ (0xE#4 ++ c) :: bs) = .ok (.callM (condOfCode c) m) bs := by
  rw [decode_memBytes dstMark h, sizeOfCode_dstMark]
  exact decodeDstOp_call m c bs

theorem bytes_ind_dstMark (R : BitVec 3) : (Mem.ind R).bytes dstMark = [0b10110#5 ++ R] := by
  revert R; decide

/-- A call whose condition does not hold goes to the next instruction and writes nothing else (R212). -/
theorem exec_callM_of_not_holds {c : Cond} {m : Mem} {s : State} (hm : callMode m = true) (hc : s.f.holds c = false) :
    exec (.callM c m) s = .next (s.advance (m.len + 1)) := by
  show execCallM c m s = _
  simp [execCallM, hm, hc]

/-- Settles O21: the table through what each condition says of the flags, the place of the code through `decode_callM`. -/
theorem conditionCodesMeanTheirTable : Obligations.ConditionCodesMeanTheirTable := by
  unfold Obligations.ConditionCodesMeanTheirTable
  intro f
  have clear (b : Bool) : (!b) = true ↔ b = false := by simp
  have place (c : BitVec 4) (R : BitVec 3) :
      decode [0b10110#5 ++ R, 0xE#4 ++ c] = .ok (.callM (condOfCode c) (.ind R)) [] := by
    have h := decode_callM (m := .ind R) rfl c []
    rwa [bytes_ind_dstMark] at h
  exact ⟨rfl, rfl, Iff.rfl, clear f.z, Iff.rfl, clear f.c, clear f.s, Iff.rfl, Iff.rfl, clear f.v,
    holds_ge_iff f, holds_lt_iff f, holds_gt_iff f, holds_le_iff f, holds_ugt_iff f, holds_ule_iff f,
    holds_condOfCode_add_eight f, place, fun c m s hm hc => exec_callM_of_not_holds hm hc⟩

end Sys2Proof.Machine

/-! PROOF. The exchange of the two flag bytes (spec/40_exchange.md rule R100). -/

namespace Sys2Proof.Machine

/-! ## Keeping what has the same storage -/

theorem RegsKept.of_regs_eq {s t : State} (h : t.regs = s.regs) : RegsKept s t := fun i => by rw [h]

theorem MemKept.of_mem_eq {s t : State} (h : t.mem = s.mem) : MemKept s t := fun a => by rw [State.byteAt, State.byteAt, h]

theorem MovedPast.of_pc_eq_nextPc {i : Instr} {s t : State} (h : t.pc = s.nextPc i.len) : MovedPast i s t := h

/-! ## The state with F and F' exchanged -/

/-- F and F' exchanged as whole bytes, the two unnamed bits included. -/
def State.swapFlags (s : State) : State := { s with f := s.fAlt, fAlt := s.f }

@[simp] theorem State.swapFlags_regs (s : State) : s.swapFlags.regs = s.regs := rfl
@[simp] theorem State.swapFlags_iffLevel (s : State) : s.swapFlags.iffLevel = s.iffLevel := rfl
@[simp] theorem State.swapFlags_rfp (s : State) : s.swapFlags.rfp = s.rfp := rfl
@[simp] theorem State.swapFlags_f (s : State) : s.swapFlags.f = s.fAlt := rfl
@[simp] theorem State.swapFlags_fAlt (s : State) : s.swapFlags.fAlt = s.f := rfl
@[simp] theorem State.swapFlags_mem (s : State) : s.swapFlags.mem = s.mem := rfl
@[simp] theorem State.swapFlags_launch (s : State) : s.swapFlags.launch = s.launch := rfl
@[simp] theorem State.swapFlags_nextPc (s : State) (len : Nat) : s.swapFlags.nextPc len = s.nextPc len := rfl

theorem State.swapFlags_controlRegsKept (s : State) : ControlRegsKept s s.swapFlags := ⟨rfl, rfl, rfl, rfl, rfl⟩

/-! ## EX F,F' -/

/-- EX F,F' completes from every state, and all that it does is to exchange the bytes and move pc on. -/
theorem exec_exFF (s : State) : exec .exFF s = .next (s.swapFlags.advance Instr.exFF.len) := rfl

/-- Executing it again from where it ended restores both registers. -/
theorem exec_exFF_twice (s : State) :
    ∃ u, exec .exFF (s.swapFlags.advance Instr.exFF.len) = .next u ∧ u.f = s.f ∧ u.fAlt = s.fAlt :=
  ⟨_, exec_exFF _, by simp, by simp⟩

/-- Settles O49: the one state that `exec_exFF` gives, field by field, and `exec_exFF_twice` for the second execution. -/
theorem exchangeFlagBytes : Obligations.ExchangeFlagBytes := by
  unfold Obligations.ExchangeFlagBytes
  refine ⟨rfl, fun s => ⟨s.swapFlags.advance Instr.exFF.len, exec_exFF s, ?_⟩⟩
  have regs : RegsKept s (s.swapFlags.advance Instr.exFF.len) := .of_regs_eq (by simp)
  have mem : MemKept s (s.swapFlags.advance Instr.exFF.len) := .of_mem_eq (by simp)
  have control : ControlRegsKept s (s.swapFlags.advance Instr.exFF.len) := s.swapFlags_controlRegsKept
  have moved : MovedPast .exFF s (s.swapFlags.advance Instr.exFF.len) := .of_pc_eq_nextPc (by simp)
  exact ⟨by simp, by simp, regs, mem, by simp, by simp, control, by simp, moved, exec_exFF_twice s⟩

end Sys2Proof.Machine

/-! PROOF. DEC of a register (spec/42_arithmetic.md rule R136). -/

namespace Sys2Proof.Machine

/-! ## The number and the flags of a decrement -/

/-- The model's number and the statement's are one value: 000 stands for 8 in both (R79). -/
theorem ofNat_decAmount (w : Nat) (n : BitVec 3) : BitVec.ofNat w (decAmount n) = decNumber w n := by
  by_cases h : n = 0#3 <;> simp [decAmount, decNumber, h]

theorem decFlags_c {n : Nat} (a num : BitVec n) (f : Flags) : (decFlags a num f).c = f.c := rfl

/-- The flags of a decrement are those of the subtraction but for C, of which `SubFlagsSay` does not speak. -/
theorem decFlags_say (z : Size) (a num : BitVec z.bits) (f : Flags) : SubFlagsSay z a num f (decFlags a num f) :=
  (subFlags_say z a num false f).1

/-- F after DEC #3,r: it changes at Byte only (R136). -/
def decRegFlags (z : Size) (a num : BitVec z.bits) (f : Flags) : Flags := if z = .b then decFlags a num f else f

theorem decRegFlags_of_byte {z : Size} (h : z = .b) (a num : BitVec z.bits) (f : Flags) :
    decRegFlags z a num f = decFlags a num f := if_pos h

theorem decRegFlags_of_ne_byte {z : Size} (h : z ≠ .b) (a num : BitVec z.bits) (f : Flags) : decRegFlags z a num f = f :=
  if_neg h

/-! ## DEC #3,r -/

/-- DEC #3,r completes from every state: it sets F, writes the difference to the register and moves pc on. -/
theorem exec_decNR (z : Size) (n : BitVec 3) (r : RSel) (s : State) :
    let a := s.readReg z.bits (selCode z r)
    let num := decNumber z.bits n
    exec (.decNR z n r) s = .next (((s.flagged (decRegFlags z a num s.f) s.draws).writeReg (selCode z r) (a - num)).advance
      (Instr.decNR z n r).len) := by
  intro a num
  show execDecNR z n r s = _
  simp only [execDecNR, ofNat_decAmount, subRes_eq, finish_next]
  by_cases h : z = .b
  · rw [if_pos h, decRegFlags_of_byte h]
    rfl
  · rw [if_neg h, decRegFlags_of_ne_byte h]
    rfl

/-- Settles O33: the state that `exec_decNR` gives, with its frame from `WroteReg.of_flagged` and its flags by the size. -/
theorem decrementRegister : Obligations.DecrementRegister := by
  unfold Obligations.DecrementRegister
  intro z n r s hr a
  have wrote := WroteReg.of_flagged (.decNR z n r) (selCode z r) (a - decNumber z.bits n) s
    (decRegFlags z a (decNumber z.bits n) s.f) s.draws (Size.bits_mod z) (codeFits_of_aligned (selCode_aligned hr))
  refine ⟨rfl, _, exec_decNR z n r s, wrote, fun byte => ?_, fun other => decRegFlags_of_ne_byte other _ _ _⟩
  show SubFlagsSay z a _ s.f (decRegFlags z a _ s.f) ∧ (decRegFlags z a _ s.f).c = s.f.c
  rw [decRegFlags_of_byte byte]
  exact ⟨decFlags_say z a _ s.f, decFlags_c a _ s.f⟩

end Sys2Proof.Machine

/-! PROOF. CCF (spec/44_bit.md rule R184). -/

namespace Sys2Proof.Machine

/-- F after CCF: C inverted, N cleared, and in H the free bit `u` (R184). -/
def ccfFlags (u : Bool) (f : Flags) : Flags := { f with c := !f.c, h := u, n := false }

/-- What R184 says of F leaves only H open. -/
theorem ccfFlags_eq (u : Bool) (f : Flags) : ccfFlags u f = { f with c := !f.c, n := false, h := (ccfFlags u f).h } := rfl

/-- CCF completes from every state: it draws one bit for H, sets F and moves pc on. -/
theorem exec_ccf (s : State) :
    exec .ccf s = .next ((s.flagged (ccfFlags s.drawBit.1 s.f) (s.draws + 1)).advance Instr.ccf.len) := rfl

/-- Settles O45: the state that `exec_ccf` gives, with its frame from `WroteNothing.of_flagged`. -/
theorem complementCarry : Obligations.ComplementCarry := by
  unfold Obligations.ComplementCarry
  refine ⟨rfl, fun s => ⟨_, exec_ccf s, ?frame, ?flags⟩⟩
  case frame => exact WroteNothing.of_flagged .ccf s _ _
  case flags => exact ccfFlags_eq s.drawBit.1 s.f

end Sys2Proof.Machine

/-! PROOF. Decoding an encoding gives the instruction back (spec/30_encoding.md rules R81 to R84): the bytes before the op byte by
`decode_regBytes` and `decode_memBytes`, the op byte by the table of its class. -/

namespace Sys2Proof.Machine

/-- An op byte with an operand field is none of the op bytes with another upper field. The side condition is a closed fact. -/
theorem append_eq_false_of_hi5 {h : BitVec 5} {b : Byte} (hb : hi5 b ≠ h) (R : BitVec 3) : ((h ++ R : Byte) = b) = False :=
  eq_false (append_ne_of_hi5 rfl hb)

theorem onDividend_of_ok {z : SizeBW} {r : RSel} (h : r.dividendOk z = true) (d : Decoded) : onDividend z r d = d := if_pos h

theorem onDividendCode_of_ok {z : SizeBW} {R : BitVec 3} (h : dividendCodeOk z R = true) (d : Decoded) :
    onDividendCode z R d = d := if_pos h

theorem onOnly_same (z : Size) (d : Decoded) : onOnly z z d = d := if_pos rfl

/-! ## First bytes without a field of registers (R81) -/

/-- A first byte with bit 7 clear opens a fixed form. -/
theorem decode_fixed {b : Byte} (h : b.getLsbD 7 = false) (bs : List Byte) : decode (b :: bs) = decodeFixed b bs := if_pos h

/-- EI's second byte holds its number; 7 is left out, since these bytes are read as DI (R201). -/
theorem decodeFixed_ei {n : BitVec 3} (h : n ≠ 7#3) (rest : List Byte) :
    decodeFixed 0x06#8 ((0b00000#5 ++ n) :: rest) = .ok (.ei n) rest := by
  simp only [decodeFixed, withByte, hi5_append, lo3_append, if_true, if_neg h]

/-! ## The classes, once the bytes before the op byte are read -/

/-- The op byte of a form with a register operand, and what follows it. -/
theorem decode_encode_reg {z : Size} {r : RSel} {i : Instr} {op : Byte} {tail : List Byte}
    (he : encode i = r.bytes z ++ op :: tail) (hr : r.wf z = true) (rest : List Byte) :
    decode (encode i ++ rest) = decodeRegOp z r op (tail ++ rest) := by
  rw [he, List.append_assoc, List.cons_append, decode_regBytes hr]

/-- The op byte of a source form with a memory mode, and what follows it. -/
theorem decode_encode_src {z : Size} {m : Mem} {i : Instr} {op : Byte} {tail : List Byte}
    (he : encode i = m.bytes z.code ++ op :: tail) (hm : m.wf = true) (rest : List Byte) :
    decode (encode i ++ rest) = decodeSrcOp z m op (tail ++ rest) := by
  rw [he, List.append_assoc, List.cons_append, decode_memBytes _ hm, sizeOfCode_code]

/-- The op byte of a destination form with a memory mode. -/
theorem decode_encode_dst {m : Mem} {i : Instr} {op : Byte} (he : encode i = m.bytes dstMark ++ [op]) (hm : m.wf = true)
    (rest : List Byte) : decode (encode i ++ rest) = decodeDstOp m op rest := by
  rw [he, List.append_assoc, List.singleton_append, decode_memBytes _ hm, sizeOfCode_dstMark]

/-- Every well-formed instruction is read back from its encoding, whatever follows it. -/
theorem decode_encode {i : Instr} (h : i.wf = true) (rest : List Byte) : decode (encode i ++ rest) = .ok i rest := by
  cases i with
  -- fixed forms
  | ei n => exact (decode_fixed rfl _).trans (decodeFixed_ei (of_decide_eq_true h) rest)
  | di | decf | ccf | exFF => exact decode_fixed rfl _
  | call16 a => exact (decode_fixed rfl _).trans (withTwo_bytes2 a rest fun v bs => .ok (.call16 v) bs)
  | calr d => exact (decode_fixed rfl _).trans (withTwo_bytes2 d rest fun v bs => .ok (.calr v) bs)
  | call24 a => exact (decode_fixed rfl _).trans (withThree_bytes3 a rest fun v bs => .ok (.call24 v) bs)
  -- a register and an op byte
  | cplR z r | andcfAR z r =>
    rw [decode_encode_reg rfl h]
    simp (disch := decide) only [decodeRegOp, if_pos, if_neg, onBW_size, List.nil_append]
  | extz z r | exts z r =>
    rw [decode_encode_reg rfl h]
    simp (disch := decide) only [decodeRegOp, if_pos, if_neg, onWL_size, List.nil_append]
  | bs1f r | bs1b r =>
    rw [decode_encode_reg rfl h]
    simp (disch := decide) only [decodeRegOp, if_pos, if_neg, onOnly_same, List.nil_append]
  | daa r =>
    have hb : r.wf .b = true := by cases r <;> rfl
    rw [decode_encode_reg rfl hb]
    simp (disch := decide) only [decodeRegOp, if_pos, if_neg, onOnly_same, List.nil_append]
  -- a register, an op byte, and a byte
  | djnz z r d =>
    rw [decode_encode_reg rfl h]
    simp (disch := decide) only [decodeRegOp, if_pos, if_neg, onBW_size, withByte, List.singleton_append]
  | andcfNR z n r | chgNR z n r | bitNR z n r =>
    rw [decode_encode_reg rfl h]
    simp (disch := decide) only [decodeRegOp, if_pos, if_neg, onBW_size, List.singleton_append, withNum4_append]
  -- a register and an immediate
  | addRI z r imm | adcRI z r imm | andRI z r imm | cpRI z r imm =>
    obtain ⟨hr, himm⟩ := Bool.and_eq_true_iff.1 h
    rw [decode_encode_reg rfl hr]
    simp (disch := decide) only [decodeRegOp, if_pos, if_neg, withImm_immBytes himm]
  | divRI z r imm | divsRI z r imm =>
    obtain ⟨hr, himm⟩ := Bool.and_eq_true_iff.1 h
    rw [decode_encode_reg rfl (RSel.wf_of_dividendOk hr)]
    simp (disch := decide) only [decodeRegOp, if_pos, if_neg, onBW_size, onDividend_of_ok hr, withImm_immBytes himm]
  -- a register and an op byte with a field
  | divRR z R r | divsRR z R r =>
    obtain ⟨hR, hr⟩ := Bool.and_eq_true_iff.1 h
    rw [decode_encode_reg rfl hr]
    simp (disch := decide) only [decodeRegOp, append_eq_false_of_hi5, hi5_append, lo3_append, if_pos, if_neg, onBW_size,
      onDividendCode_of_ok hR, List.nil_append]
  | exRR z R r | cpRN z r R =>
    rw [decode_encode_reg rfl h]
    simp (disch := decide) only [decodeRegOp, append_eq_false_of_hi5, hi5_append, lo3_append, if_pos, if_neg, onBW_size,
      List.nil_append]
  | decNR z R r | addRR z R r | adcRR z R r | andRR z R r | cpRR z R r =>
    rw [decode_encode_reg rfl h]
    simp (disch := decide) only [decodeRegOp, append_eq_false_of_hi5, hi5_append, lo3_append, if_pos, if_neg, List.nil_append]
  -- source forms
  | cpi z R | cpir z R | cpd z R | cpdr z R =>
    rw [decode_encode_src (m := .ind R) rfl rfl]
    simp (disch := decide) only [decodeSrcOp, if_pos, if_neg, onPointer, onBW_size, List.nil_append]
  | addMI z m imm | adcMI z m imm | andMI z m imm | cpMI z m imm =>
    obtain ⟨hm, himm⟩ := Bool.and_eq_true_iff.1 h
    rw [decode_encode_src rfl hm]
    simp (disch := decide) only [decodeSrcOp, if_pos, if_neg, onBW_size, withImm_immBytes himm]
  | divRM z R m | divsRM z R m =>
    obtain ⟨hR, hm⟩ := Bool.and_eq_true_iff.1 h
    rw [decode_encode_src rfl hm]
    simp (disch := decide) only [decodeSrcOp, append_eq_false_of_hi5, hi5_append, lo3_append, if_pos, if_neg, onBW_size,
      onDividendCode_of_ok hR, List.nil_append]
  | exMR z m R | decNM z R m =>
    rw [decode_encode_src rfl h]
    simp (disch := decide) only [decodeSrcOp, append_eq_false_of_hi5, hi5_append, lo3_append, if_pos, if_neg, onBW_size,
      List.nil_append]
  | addRM z R m | adcRM z R m | andRM z R m | cpRM z R m | addMR z m R | adcMR z m R | andMR z m R | cpMR z m R =>
    rw [decode_encode_src rfl h]
    simp (disch := decide) only [decodeSrcOp, append_eq_false_of_hi5, hi5_append, lo3_append, if_pos, if_neg, List.nil_append]
  -- destination forms
  | andcfAM m =>
    rw [decode_encode_dst rfl h]
    simp only [decodeDstOp, if_true]
  | andcfNM n m | chgNM n m | bitNM n m =>
    rw [decode_encode_dst rfl h]
    simp (disch := decide) only [decodeDstOp, append_eq_false_of_hi5, hi5_append, lo3_append, if_pos, if_neg]
  | callM c m =>
    rw [decode_encode_dst rfl h, decodeDstOp_call, condOfCode_code]

/-- Settles O2: `decode_encode`. -/
theorem decodeOfEncodeIsTheInstruction : Obligations.DecodeOfEncodeIsTheInstruction := by
  unfold Obligations.DecodeOfEncodeIsTheInstruction
  exact fun i rest h => decode_encode h rest

end Sys2Proof.Machine

/-! PROOF. What decodes is well formed and the bytes taken are its encoding (spec/30_encoding.md rules R81 to R84): the property passes
through each parser, so that the opcode map is walked once, row by row. -/

namespace Sys2Proof.Machine

/-! ## Bytes and codes are put together again from their fields -/

theorem append_of_hi5 {b : Byte} {h : BitVec 5} (hb : hi5 b = h) : h ++ lo3 b = b := by
  subst hb; revert b; decide

theorem append_of_hi4 {b : Byte} {h : BitVec 4} (hb : hi4 b = h) : h ++ lo4 b = b := by
  subst hb; revert b; decide

theorem append_of_lo2 {b : Byte} {l : BitVec 2} (hb : lo2 b = l) : hi6 b ++ l = b := by
  subst hb; revert b; decide

theorem code6_of_longRegOfCode6 {c : BitVec 6} {r : LongReg} (h : longRegOfCode6 c = some r) : r.code6 = c := by
  have key : ∀ c : BitVec 6, ∀ r ∈ longRegOfCode6 c, r.code6 = c := by decide
  exact key c r h

theorem code_of_stepOfCode {c : BitVec 2} {st : StepCode} (h : stepOfCode c = some st) : st.code = c := by
  have key : ∀ c : BitVec 2, ∀ st ∈ stepOfCode c, st.code = c := by decide
  exact key c st h

theorem code_of_sizeOfCode {c : BitVec 2} {z : Size} (h : sizeOfCode c = some z) : z.code = c := by
  have key : ∀ c : BitVec 2, ∀ z ∈ sizeOfCode c, z.code = c := by decide
  exact key c z h

theorem eq_dstMark_of_sizeOfCode {c : BitVec 2} (h : sizeOfCode c = none) : c = dstMark := by
  revert c; decide

/-- The bytes above the lowest one. -/
theorem extractLsb'_append_high {w : Nat} (x : BitVec w) (y : Byte) (i : Nat) :
    (x ++ y).extractLsb' (8 + i) 8 = x.extractLsb' i 8 := by
  rw [BitVec.extractLsb'_append_eq_of_le (by omega), Nat.add_sub_cancel_left]

theorem bytes2_append (b1 b0 : Byte) : bytes2 (b1 ++ b0) = [b0, b1] := by
  have h0 : (b1 ++ b0).extractLsb' 0 8 = b0 := BitVec.extractLsb'_append_eq_right
  have h1 : (b1 ++ b0).extractLsb' 8 8 = b1 := BitVec.extractLsb'_append_eq_left
  rw [bytes2, h0, h1]

theorem bytes3_append (b2 b1 b0 : Byte) : bytes3 (b2 ++ b1 ++ b0) = [b0, b1, b2] := by
  have h0 : (b2 ++ b1 ++ b0).extractLsb' 0 8 = b0 := BitVec.extractLsb'_append_eq_right
  have h1 : (b2 ++ b1 ++ b0).extractLsb' 8 8 = b1 :=
    (extractLsb'_append_high _ _ 0).trans BitVec.extractLsb'_append_eq_right
  have h2 : (b2 ++ b1 ++ b0).extractLsb' 16 8 = b2 :=
    (extractLsb'_append_high _ _ 8).trans BitVec.extractLsb'_append_eq_left
  rw [bytes3, h0, h1, h2]

theorem bytes4_append (b3 b2 b1 b0 : Byte) : bytes4 (b3 ++ b2 ++ b1 ++ b0) = [b0, b1, b2, b3] := by
  have h0 : (b3 ++ b2 ++ b1 ++ b0).extractLsb' 0 8 = b0 := BitVec.extractLsb'_append_eq_right
  have h1 : (b3 ++ b2 ++ b1 ++ b0).extractLsb' 8 8 = b1 :=
    (extractLsb'_append_high _ _ 0).trans BitVec.extractLsb'_append_eq_right
  have h2 : (b3 ++ b2 ++ b1 ++ b0).extractLsb' 16 8 = b2 :=
    (extractLsb'_append_high _ _ 8).trans ((extractLsb'_append_high _ _ 0).trans BitVec.extractLsb'_append_eq_right)
  have h3 : (b3 ++ b2 ++ b1 ++ b0).extractLsb' 24 8 = b3 :=
    (extractLsb'_append_high _ _ 16).trans ((extractLsb'_append_high _ _ 8).trans BitVec.extractLsb'_append_eq_left)
  rw [bytes4, h0, h1, h2, h3]

/-- The low bits of a long word that came from a value of `n` bits. -/
theorem immFits_setWidth {z : Size} (v : BitVec z.bits) : immFits z (v.setWidth 32) = true := by
  rw [immFits, decide_eq_true_eq, BitVec.toNat_setWidth]
  exact lt_of_le_of_lt (Nat.mod_le _ _) v.isLt

/-! ## The property, and how it passes through the parsers -/

/-- If the answer `d` is an instruction, it is well formed and `all` is its encoding followed by the rest. -/
def SoundAnswer (all : List Byte) (d : Decoded) : Prop :=
  ∀ i rest, d = .ok i rest → i.wf = true ∧ all = encode i ++ rest

theorem SoundAnswer.ok {all : List Byte} {i : Instr} {rest : List Byte} (hw : i.wf = true) (he : all = encode i ++ rest) :
    SoundAnswer all (.ok i rest) := by
  rintro _ _ ⟨⟩
  exact ⟨hw, he⟩

theorem SoundAnswer.truncated (all : List Byte) : SoundAnswer all .truncated := by
  intro i rest h
  cases h

theorem SoundAnswer.refuse (all : List Byte) (why : BadEncoding) : SoundAnswer all (.refuse why) := by
  intro i rest h
  cases h

/-- A row of the map and the rows after it. -/
theorem SoundAnswer.row {all : List Byte} {c : Prop} [Decidable c] {d e : Decoded} (hd : c → SoundAnswer all d)
    (he : SoundAnswer all e) : SoundAnswer all (if c then d else e) := by
  split
  · exact hd ‹c›
  · exact he

theorem SoundAnswer.onBW {all : List Byte} {z : Size} {k : SizeBW → Decoded}
    (h : ∀ z' : SizeBW, z = z'.size → SoundAnswer all (k z')) : SoundAnswer all (onBW z k) := by
  cases z
  · exact h .b rfl
  · exact h .w rfl
  · exact .refuse _ _

theorem SoundAnswer.onWL {all : List Byte} {z : Size} {k : SizeWL → Decoded}
    (h : ∀ z' : SizeWL, z = z'.size → SoundAnswer all (k z')) : SoundAnswer all (onWL z k) := by
  cases z
  · exact .refuse _ _
  · exact h .w rfl
  · exact h .l rfl

theorem SoundAnswer.onOnly {all : List Byte} {want z : Size} {d : Decoded} (h : z = want → SoundAnswer all d) :
    SoundAnswer all (onOnly want z d) := .row h (.refuse _ _)

theorem SoundAnswer.onDividendCode {all : List Byte} {z : SizeBW} {R : BitVec 3} {d : Decoded}
    (h : dividendCodeOk z R = true → SoundAnswer all d) : SoundAnswer all (onDividendCode z R d) := .row h (.refuse _ _)

theorem SoundAnswer.onDividend {all : List Byte} {z : SizeBW} {r : RSel} {d : Decoded}
    (h : r.dividendOk z = true → SoundAnswer all d) : SoundAnswer all (onDividend z r d) := by
  refine .row h ?_
  cases r <;> exact .refuse _ _

theorem SoundAnswer.onPointer {all : List Byte} {m : Mem} {k : BitVec 3 → Decoded}
    (h : ∀ R, m = .ind R → SoundAnswer all (k R)) : SoundAnswer all (onPointer m k) := by
  unfold Sys2Proof.onPointer
  split
  · exact h _ rfl
  · exact .refuse _ _

theorem SoundAnswer.withByte {all bs : List Byte} {k : Byte → List Byte → Decoded}
    (h : ∀ b bs', bs = b :: bs' → SoundAnswer all (k b bs')) : SoundAnswer all (withByte bs k) := by
  cases bs with
  | nil => exact .truncated _
  | cons b bs => exact h b bs rfl

theorem SoundAnswer.withTwo {all bs : List Byte} {k : BitVec 16 → List Byte → Decoded}
    (h : ∀ v bs', bs = bytes2 v ++ bs' → SoundAnswer all (k v bs')) : SoundAnswer all (withTwo bs k) := by
  refine .withByte fun b0 bs0 h0 => .withByte fun b1 bs1 h1 => h _ _ ?_
  rw [bytes2_append, h0, h1]
  rfl

theorem SoundAnswer.withThree {all bs : List Byte} {k : BitVec 24 → List Byte → Decoded}
    (h : ∀ v bs', bs = bytes3 v ++ bs' → SoundAnswer all (k v bs')) : SoundAnswer all (withThree bs k) := by
  refine .withByte fun b0 bs0 h0 => .withByte fun b1 bs1 h1 => .withByte fun b2 bs2 h2 => h _ _ ?_
  rw [bytes3_append, h0, h1, h2]
  rfl

theorem SoundAnswer.withFour {all bs : List Byte} {k : BitVec 32 → List Byte → Decoded}
    (h : ∀ v bs', bs = bytes4 v ++ bs' → SoundAnswer all (k v bs')) : SoundAnswer all (withFour bs k) := by
  refine .withByte fun b0 bs0 h0 => .withByte fun b1 bs1 h1 => .withByte fun b2 bs2 h2 => .withByte fun b3 bs3 h3 => h _ _ ?_
  rw [bytes4_append, h0, h1, h2, h3]
  rfl

theorem SoundAnswer.withImm {all bs : List Byte} {z : Size} {k : Word32 → List Byte → Decoded}
    (h : ∀ v bs', immFits z v = true → bs = immBytes z v ++ bs' → SoundAnswer all (k v bs')) :
    SoundAnswer all (withImm z bs k) := by
  cases z <;> rw [Sys2Proof.withImm]
  case b =>
    refine SoundAnswer.withByte fun v bs' hv => h _ _ (immFits_setWidth (z := .b) v) ?_
    simpa [immBytes] using hv
  case w =>
    refine SoundAnswer.withTwo fun v bs' hv => h _ _ (immFits_setWidth (z := .w) v) ?_
    simpa [immBytes] using hv
  case l => exact SoundAnswer.withFour fun v bs' hv => h _ _ (decide_eq_true v.isLt) hv

theorem SoundAnswer.withNum4 {all bs : List Byte} {k : BitVec 4 → List Byte → Decoded}
    (h : ∀ n bs', bs = (0x0#4 ++ n) :: bs' → SoundAnswer all (k n bs')) : SoundAnswer all (withNum4 bs k) := by
  refine .withByte fun b bs' hb => .row (fun h0 => h _ _ ?_) (.refuse _ _)
  rw [append_of_hi4 h0, hb]

theorem SoundAnswer.withRow {all : List Byte} {c : BitVec 6} {k : LongReg → Decoded}
    (h : ∀ r, r.code6 = c → SoundAnswer all (k r)) : SoundAnswer all (withRow c k) := by
  unfold Sys2Proof.withRow
  split
  · exact h _ (code6_of_longRegOfCode6 ‹_›)
  · exact .refuse _ _

theorem SoundAnswer.withRegCode {all bs : List Byte} {z : Size} {k : RegCode → List Byte → Decoded}
    (h : ∀ c bs', c.aligned z = true → bs = c.toByte :: bs' → SoundAnswer all (k c bs')) :
    SoundAnswer all (withRegCode z bs k) := by
  refine .withByte fun b bs' hb => .withRow fun r hr => .row (fun ha => h _ _ ha ?_) (.refuse _ _)
  rw [RegCode.toByte, hr, append_of_lo2 rfl, hb]

theorem SoundAnswer.withLongReg {all bs : List Byte} {k : LongReg → List Byte → Decoded}
    (h : ∀ r bs', bs = r.toByte :: bs' → SoundAnswer all (k r bs')) : SoundAnswer all (withLongReg bs k) := by
  refine .withRegCode fun c bs' ha hb => h _ _ ?_
  have h0 : c.off = 0#2 := of_decide_eq_true ha
  rw [hb, RegCode.toByte, h0, LongReg.toByte]

theorem SoundAnswer.withStepped {all bs : List Byte} {k : LongReg → StepCode → List Byte → Decoded}
    (h : ∀ r st bs', bs = (r.code6 ++ st.code) :: bs' → SoundAnswer all (k r st bs')) : SoundAnswer all (withStepped bs k) := by
  refine .withByte fun b bs' hb => .withRow fun r hr => ?_
  split
  · rename_i st hst
    refine h _ _ _ ?_
    rw [hr, append_of_lo2 (code_of_stepOfCode hst).symm, hb]
  · exact .refuse _ _

/-! ## Memory modes -/

/-- The modes of the code 0011 (R74): the mode's bytes after its first one. -/
theorem SoundAnswer.withRegMode {all bs : List Byte} {xx : BitVec 2} {k : Mem → List Byte → Decoded}
    (h : ∀ m bs', m.wf = true → (0b11#2 ++ xx ++ 0x3#4) :: bs = m.bytes xx ++ bs' → SoundAnswer all (k m bs')) :
    SoundAnswer all (withRegMode bs k) := by
  refine .withByte fun b bs0 hb => .row (fun e => ?reg) <| .row (fun e => ?regD16) <| .row (fun e => ?regR8) <|
    .row (fun e => ?regR16) (.refuse _ _)
  case reg =>
    refine .withRow fun r hr => h (.reg r) _ rfl ?_
    rw [hb, Mem.bytes, hr, append_of_lo2 e]
    rfl
  case regD16 =>
    refine .withRow fun r hr => .withTwo fun d bs1 h1 => h (.regD16 r d) _ rfl ?_
    rw [hb, h1, Mem.bytes, hr, append_of_lo2 e]
    rfl
  case regR8 =>
    refine .withLongReg fun r bs1 h1 => .withRegCode fun c bs2 ha h2 => h (.regR8 r c) _ rfl ?_
    rw [hb, h1, h2, e]
    rfl
  case regR16 =>
    refine .withLongReg fun r bs1 h1 => .withRegCode fun c bs2 ha h2 => h (.regR16 r c) _ ha ?_
    rw [hb, h1, h2, e]
    rfl

/-- The first byte of a mode with bit 6 clear, from its fields. -/
theorem memFirst_low_of_fields {b : Byte} (h7 : b.getLsbD 7 = true) (h6 : b.getLsbD 6 = false) :
    (b.getLsbD 3 = false → b = 0b10#2 ++ sizeField b ++ 0b0#1 ++ lo3 b)
      ∧ (b.getLsbD 3 = true → b = 0b10#2 ++ sizeField b ++ 0b1#1 ++ lo3 b) := by
  revert b; decide

/-- The first byte of a mode with bit 6 set, from its fields. -/
theorem memFirst_high_of_fields {b : Byte} {l : BitVec 4} (h7 : b.getLsbD 7 = true) (h6 : b.getLsbD 6 = true) (hl : lo4 b = l) :
    b = 0b11#2 ++ sizeField b ++ l := by
  subst hl; revert b; decide

/-- The bytes of a memory mode from its first byte `b` on (R74). -/
theorem SoundAnswer.withMode {all bs : List Byte} {b : Byte} {k : Mem → List Byte → Decoded} (h7 : b.getLsbD 7 = true)
    (h : ∀ m bs', m.wf = true → b :: bs = m.bytes (sizeField b) ++ bs' → SoundAnswer all (k m bs')) :
    SoundAnswer all (withMode b bs k) := by
  unfold Sys2Proof.withMode
  split
  case isTrue h6 =>
    obtain ⟨clear, set⟩ := memFirst_low_of_fields h7 h6
    split
    case isTrue h3 =>
      refine h (.ind (lo3 b)) _ rfl ?_
      rw [Mem.bytes, ← clear h3]
      rfl
    case isFalse h3 =>
      refine .withByte fun d bs0 h0 => h (.indD8 (lo3 b) d) _ rfl ?_
      rw [Mem.bytes, ← set (by simpa using h3), h0]
      rfl
  case isFalse h6 =>
    have first {l : BitVec 4} (hl : lo4 b = l) := memFirst_high_of_fields h7 (by simpa using h6) hl
    refine .row (fun e => ?abs8) <| .row (fun e => ?abs16) <| .row (fun e => ?abs24) <| .row (fun e => ?regMode) <|
      .row (fun e => ?preDec) <| .row (fun e => ?postInc) (.refuse _ _)
    case abs8 =>
      refine .withByte fun a bs0 h0 => h (.abs8 a) _ rfl ?_
      rw [Mem.bytes, ← first e, h0]
      rfl
    case abs16 =>
      refine .withTwo fun a bs0 h0 => h (.abs16 a) _ rfl ?_
      rw [Mem.bytes, ← first e, h0]
      rfl
    case abs24 =>
      refine .withThree fun a bs0 h0 => h (.abs24 a) _ rfl ?_
      rw [Mem.bytes, ← first e, h0]
      rfl
    case regMode => exact .withRegMode fun m bs' hm hb => h m bs' hm (by rw [← hb, ← first e])
    case preDec =>
      refine .withStepped fun r st bs0 h0 => h (.preDec r st) _ rfl ?_
      rw [Mem.bytes, ← first e, h0]
      rfl
    case postInc =>
      refine .withStepped fun r st bs0 h0 => h (.postInc r st) _ rfl ?_
      rw [Mem.bytes, ← first e, h0]
      rfl

/-! ## The opcode map -/

/-- The rows of R82. -/
theorem decodeRegOp_sound {z : Size} {r : RSel} (hr : r.wf z = true) (op : Byte) (bs : List Byte) :
    SoundAnswer (r.bytes z ++ op :: bs) (decodeRegOp z r op bs) := by
  unfold decodeRegOp
  refine .row (fun e => ?cplR) <| .row (fun e => ?divRI) <| .row (fun e => ?divsRI) <| .row (fun e => ?bs1f) <|
    .row (fun e => ?bs1b) <| .row (fun e => ?daa) <| .row (fun e => ?extz) <| .row (fun e => ?exts) <| .row (fun e => ?djnz) <|
    .row (fun e => ?andcfNR) <| .row (fun e => ?andcfAR) <| .row (fun e => ?chgNR) <| .row (fun e => ?bitNR) <|
    .row (fun e => ?divRR) <| .row (fun e => ?divsRR) <| .row (fun e => ?decNR) <| .row (fun e => ?addRR) <|
    .row (fun e => ?adcRR) <| .row (fun e => ?exRR) <| .row (fun e => ?andRR) <| .row (fun e => ?addRI) <|
    .row (fun e => ?adcRI) <| .row (fun e => ?andRI) <| .row (fun e => ?cpRI) <| .row (fun e => ?cpRN) <|
    .row (fun e => ?cpRR) (.refuse _ _)
  case cplR | andcfAR =>
    subst e
    refine .onBW fun z' hz => .ok (by subst hz; exact hr) ?_
    simp [encode, hz]
  case divRI | divsRI =>
    subst e
    refine .onBW fun z' hz => .onDividend fun hd => .withImm fun v bs' hv hb => .ok (Bool.and_eq_true_iff.2 ⟨hd, hv⟩) ?_
    simp [encode, hz, hb]
  case bs1f | bs1b =>
    subst e
    refine .onOnly fun hz => .ok (by subst hz; exact hr) ?_
    simp [encode, hz]
  case daa =>
    subst e
    refine .onOnly fun hz => .ok rfl ?_
    simp [encode, hz]
  case extz | exts =>
    subst e
    refine .onWL fun z' hz => .ok (by subst hz; exact hr) ?_
    simp [encode, hz]
  case djnz =>
    subst e
    refine .onBW fun z' hz => .withByte fun d bs' hb => .ok (by subst hz; exact hr) ?_
    simp [encode, hz, hb]
  case andcfNR | chgNR | bitNR =>
    subst e
    refine .onBW fun z' hz => .withNum4 fun n bs' hb => .ok (by subst hz; exact hr) ?_
    simp [encode, hz, hb]
  case divRR | divsRR =>
    refine .onBW fun z' hz => .onDividendCode fun hd => .ok (Bool.and_eq_true_iff.2 ⟨hd, by subst hz; exact hr⟩) ?_
    simp [encode, hz, append_of_hi5 e]
  case decNR | addRR | adcRR | andRR | cpRR =>
    refine .ok hr ?_
    simp [encode, append_of_hi5 e]
  case exRR | cpRN =>
    refine .onBW fun z' hz => .ok (by subst hz; exact hr) ?_
    simp [encode, hz, append_of_hi5 e]
  case addRI | adcRI | andRI | cpRI =>
    subst e
    refine .withImm fun v bs' hv hb => .ok (Bool.and_eq_true_iff.2 ⟨hr, hv⟩) ?_
    simp [encode, hb]

/-- The rows of R83. -/
theorem decodeSrcOp_sound {m : Mem} (hm : m.wf = true) (z : Size) (op : Byte) (bs : List Byte) :
    SoundAnswer (m.bytes z.code ++ op :: bs) (decodeSrcOp z m op bs) := by
  unfold decodeSrcOp
  refine .row (fun e => ?cpi) <| .row (fun e => ?cpir) <| .row (fun e => ?cpd) <| .row (fun e => ?cpdr) <|
    .row (fun e => ?exMR) <| .row (fun e => ?addMI) <| .row (fun e => ?adcMI) <| .row (fun e => ?andMI) <|
    .row (fun e => ?cpMI) <| .row (fun e => ?divRM) <| .row (fun e => ?divsRM) <| .row (fun e => ?decNM) <|
    .row (fun e => ?addRM) <| .row (fun e => ?addMR) <| .row (fun e => ?adcRM) <| .row (fun e => ?adcMR) <|
    .row (fun e => ?andRM) <| .row (fun e => ?andMR) <| .row (fun e => ?cpRM) <| .row (fun e => ?cpMR) (.refuse _ _)
  case cpi | cpir | cpd | cpdr =>
    subst e
    refine .onPointer fun R hR => .onBW fun z' hz => .ok rfl ?_
    simp [encode, hz, hR]
  case exMR | decNM =>
    refine .onBW fun z' hz => .ok hm ?_
    simp [encode, hz, append_of_hi5 e]
  case addMI | adcMI | andMI | cpMI =>
    subst e
    refine .onBW fun z' hz => .withImm fun v bs' hv hb => .ok (Bool.and_eq_true_iff.2 ⟨hm, hv⟩) ?_
    simp [encode, hz, hb]
  case divRM | divsRM =>
    refine .onBW fun z' hz => .onDividendCode fun hd => .ok (Bool.and_eq_true_iff.2 ⟨hd, hm⟩) ?_
    simp [encode, hz, append_of_hi5 e]
  case addRM | addMR | adcRM | adcMR | andRM | andMR | cpRM | cpMR =>
    refine .ok hm ?_
    simp [encode, append_of_hi5 e]

/-- The rows of R84. -/
theorem decodeDstOp_sound {m : Mem} (hm : m.wf = true) (op : Byte) (bs : List Byte) :
    SoundAnswer (m.bytes dstMark ++ op :: bs) (decodeDstOp m op bs) := by
  unfold decodeDstOp
  refine .row (fun e => ?andcfAM) <| .row (fun e => ?andcfNM) <| .row (fun e => ?chgNM) <| .row (fun e => ?bitNM) <|
    .row (fun e => ?callM) (.refuse _ _)
  case andcfAM =>
    subst e
    refine .ok hm ?_
    simp [encode]
  case andcfNM | chgNM | bitNM =>
    refine .ok hm ?_
    simp [encode, append_of_hi5 e]
  case callM =>
    refine .ok hm ?_
    simp [encode, code_condOfCode, append_of_hi4 e]

/-- The rows of R81 with bit 7 clear. -/
theorem decodeFixed_sound (b : Byte) (bs : List Byte) : SoundAnswer (b :: bs) (decodeFixed b bs) := by
  unfold decodeFixed
  refine .row (fun e => ?level) <| .row (fun e => ?decf) <| .row (fun e => ?ccf) <| .row (fun e => ?exFF) <|
    .row (fun e => ?call16) <| .row (fun e => ?call24) <| .row (fun e => ?calr) (.refuse _ _)
  case level =>
    subst e
    refine .withByte fun n bs' hb => .row (fun h0 => ?_) (.refuse _ _)
    have hn := append_of_hi5 h0
    split
    case isTrue h7 =>
      rw [h7] at hn
      exact .ok rfl (by rw [hb, ← hn]; rfl)
    case isFalse h7 => exact .ok (decide_eq_true h7) (by rw [hb, encode, hn]; rfl)
  case decf | ccf | exFF =>
    subst e
    exact .ok rfl rfl
  case call16 | calr =>
    subst e
    exact .withTwo fun v bs' hb => .ok rfl (by rw [hb]; rfl)
  case call24 =>
    subst e
    exact .withThree fun v bs' hb => .ok rfl (by rw [hb]; rfl)

/-- The first byte of a register form, from its fields (R73). -/
theorem regFirst_of_fields {b : Byte} (h7 : b.getLsbD 7 = true) (hp : isRegPrefix b = true) :
    (b.getLsbD 3 = true → b = 0b11#2 ++ sizeField b ++ 0b1#1 ++ lo3 b)
      ∧ (b.getLsbD 3 = false → b = 0b11#2 ++ sizeField b ++ 0b0111#4) := by
  revert b; decide

theorem decodeRegForm_sound {z : Size} {b : Byte} (h7 : b.getLsbD 7 = true) (hp : isRegPrefix b = true)
    (hz : sizeOfCode (sizeField b) = some z) (bs : List Byte) : SoundAnswer (b :: bs) (decodeRegForm z b bs) := by
  obtain ⟨short, ext⟩ := regFirst_of_fields h7 hp
  rw [← code_of_sizeOfCode hz] at short ext
  unfold decodeRegForm
  split
  case isTrue h3 =>
    refine .withByte fun op bs0 h0 => ?_
    have h := decodeRegOp_sound (z := z) (r := .short (lo3 b)) rfl op bs0
    rwa [RSel.bytes, ← short h3, List.singleton_append, ← h0] at h
  case isFalse h3 =>
    refine .withRegCode fun c bs0 ha h0 => .withByte fun op bs1 h1 => ?_
    have h := decodeRegOp_sound (r := .ext c) ha op bs1
    rwa [RSel.bytes, ← ext (by simpa using h3), List.cons_append, List.singleton_append, ← h1, ← h0] at h

/-- What decodes is well formed, and the bytes taken are its encoding. -/
theorem decode_sound (bs : List Byte) : SoundAnswer bs (decode bs) := by
  unfold decode
  refine .withByte fun b bs0 hb => ?_
  subst hb
  split
  · exact decodeFixed_sound b bs0
  rename_i h7
  have h7 : b.getLsbD 7 = true := by simpa using h7
  split
  case isTrue hp =>
    split
    · exact decodeRegForm_sound h7 hp ‹_› bs0
    · exact .refuse _ _
  case isFalse =>
    refine .withMode h7 fun m bs1 hm h1 => .withByte fun op bs2 h2 => ?_
    rw [h1, h2]
    split
    · rename_i z hz
      rw [← code_of_sizeOfCode hz]
      exact decodeSrcOp_sound hm z op bs2
    · rename_i hz
      rw [eq_dstMark_of_sizeOfCode hz]
      exact decodeDstOp_sound hm op bs2

/-- Settles O3: `decode_sound`. -/
theorem decodedBytesAreTheEncoding : Obligations.DecodedBytesAreTheEncoding := by
  unfold Obligations.DecodedBytesAreTheEncoding
  exact fun bs i rest h => decode_sound bs i rest h

end Sys2Proof.Machine

/-! PROOF. What every step keeps (spec/10_state.md sections 3 and 5, spec/20_memory.md sections 1 and 4). `Quiet` says what the body of
an instruction may do; the operations that the bodies are built from pass it on, so `exec` is walked once, in `exec_quiet`. -/

namespace Sys2Proof.Machine

/-! ## A quiet change of state -/

/-- Registers, F, the draw count and memory outside TEXT may differ, and nothing else. -/
structure Quiet (s t : State) : Prop where
  system : SystemKept s t
  pc : t.pc = s.pc
  memOk : s.memOk → t.memOk
  text : ∀ a, s.launch.isText a = true → t.byteAt a = s.byteAt a

namespace Quiet

variable {s t : State}

theorem refl (s : State) : Quiet s s := ⟨.refl s, rfl, id, fun _ _ => rfl⟩

theorem setF (h : Quiet s t) (f : Flags) : Quiet s (t.setF f) := ⟨h.system, h.pc, h.memOk, h.text⟩

theorem flagged (h : Quiet s t) (f : Flags) (d : Nat) : Quiet s (t.flagged f d) := ⟨h.system, h.pc, h.memOk, h.text⟩

theorem setLong (h : Quiet s t) (r : LongReg) (v : Word32) : Quiet s (t.setLong r v) := ⟨h.system, h.pc, h.memOk, h.text⟩

theorem writeReg {n : Nat} (h : Quiet s t) (k : RegCode) (v : BitVec n) : Quiet s (t.writeReg k v) := h.setLong _ _

theorem before (h : Quiet s t) (m : Mem) : Quiet s (Mem.before t m) := by
  cases m with
  | preDec r st => exact h.setLong r _
  | _ => exact h

theorem after (h : Quiet s t) (m : Mem) : Quiet s (Mem.after t m) := by
  cases m with
  | postInc r st => exact h.setLong r _
  | _ => exact h

end Quiet

/-- An address of TEXT is none of the addresses of a permitted store. -/
theorem ne_addr_of_isText {s : State} {a : Word32} {k x : Nat} (hw : s.writable a k) (hx : s.launch.isText x = true) :
    ∀ j < k, x ≠ s.addr a j := by
  rintro j hj rfl
  have hno : s.launch.isText (s.addr a j) ≠ true := List.any_eq_false.1 hw.2 j (List.mem_range.2 hj)
  exact hno hx

/-- A permitted store keeps the canonical form and TEXT. -/
theorem Quiet.store {s t : State} (h : Quiet s t) {a : Word32} {k : Nat} (hw : t.writable a k) (v : Nat) :
    Quiet s { t with mem := t.storeLE a 0 k v t.mem } := by
  have launch : t.launch = s.launch := h.system.2.2.2.2
  refine ⟨h.system, h.pc, fun ok => ?_, fun x hx => ?_⟩
  · obtain ⟨wf, below⟩ := h.memOk ok
    exact ⟨t.storeLE_wf a 0 k v wf, t.storeLE_below a 0 k v below⟩
  · have outside := ne_addr_of_isText hw (launch ▸ hx)
    exact (t.storeLE_other a 0 k v t.mem fun j _ hj => outside j (by omega)).trans (h.text x hx)

/-! ## What holds of the next state, if there is one -/

/-- If the outcome is a next state, `P` holds of it. -/
def Post {α : Type} (P : α → Prop) (r : Result α) : Prop := ∀ u, r = .next u → P u

namespace Post

variable {α β : Type} {P : α → Prop} {Q : β → Prop}

theorem next {u : α} (h : P u) : Post P (.next u) := by
  rintro _ ⟨⟩
  exact h

theorem refused (r : Refusal) : Post P (.refused r) := by
  intro u h
  cases h

theorem andThen {x : Result α} {k : α → Result β} (h : Post P x) (hk : ∀ a, P a → Post Q (k a)) : Post Q (andThen x k) := by
  intro u hu
  obtain ⟨a, ha, hb⟩ := andThen_eq_next.1 hu
  exact hk a (h a ha) u hb

/-- What is read from memory needs no premise. -/
theorem read {x : Result α} {k : α → Result β} (hk : ∀ a, Post Q (k a)) : Post Q (Machine.andThen x k) :=
  andThen (P := fun _ => True) (fun _ _ => trivial) fun a _ => hk a

theorem memWrite {s t : State} {n : Nat} {a : Word32} {v : BitVec n} (h : Quiet s t) : Post (Quiet s) (t.memWrite a v) := by
  intro u hu
  obtain ⟨hw, rfl⟩ := memWrite_eq_next.1 hu
  exact h.store hw _

theorem withMem {s : State} {m : Mem} {used : List RegCode} {body : Word32 → State → Result State}
    (h : ∀ ea t, Quiet s t → Post (Quiet s) (body ea t)) : Post (Quiet s) (withMem m used s body) := by
  intro u hu
  obtain ⟨_, t, ht, rfl⟩ := withMem_eq_next.1 hu
  exact (h _ _ ((Quiet.refl s).before m) t ht).after m

end Post

/-! ## The operations behind the instructions are quiet -/

/-- An operation that writes F is quiet. -/
def QuietAlu (alu : AluOp) : Prop := ∀ n a b s, Quiet s (alu n a b s).2

theorem quietAlu_add : QuietAlu aluAdd := fun n a b s => by
  obtain ⟨u, d, h⟩ := aluAdd_eq n a b s
  exact h ▸ (Quiet.refl s).flagged _ d

theorem quietAlu_adc : QuietAlu aluAdc := fun n a b s => by
  obtain ⟨u, d, h⟩ := aluAdc_eq n a b s
  exact h ▸ (Quiet.refl s).flagged _ d

theorem quietAlu_and : QuietAlu aluAnd := fun n a b s => by
  obtain ⟨u, d, h⟩ := aluAnd_eq n a b s
  exact h ▸ (Quiet.refl s).flagged _ d

theorem quietAlu_sub : QuietAlu aluSub := fun n a b s => by
  obtain ⟨u, d, h⟩ := aluSub_eq n a b s
  exact h ▸ (Quiet.refl s).flagged _ d

theorem Quiet.trans {s t u : State} (h : Quiet s t) (h' : Quiet t u) : Quiet s u := by
  obtain ⟨⟨iff, rfp, fAlt, ⟨dmas, dmad, dmac, dmam, intnest⟩, launch⟩, pc, memOk, text⟩ := h
  obtain ⟨⟨iff', rfp', fAlt', ⟨dmas', dmad', dmac', dmam', intnest'⟩, launch'⟩, pc', memOk', text'⟩ := h'
  refine ⟨⟨iff'.trans iff, rfp'.trans rfp, fAlt'.trans fAlt, ⟨dmas'.trans dmas, dmad'.trans dmad, dmac'.trans dmac,
    dmam'.trans dmam, intnest'.trans intnest⟩, launch'.trans launch⟩, pc'.trans pc, memOk' ∘ memOk, fun a ha => ?_⟩
  exact (text' a (launch ▸ ha)).trans (text a ha)

theorem Quiet.alu {s t : State} {alu : AluOp} (ha : QuietAlu alu) (h : Quiet s t) {n : Nat} (a b : BitVec n) :
    Quiet s (alu n a b t).2 := h.trans (ha n a b t)

theorem shapeRr_quiet {alu : AluOp} (ha : QuietAlu alu) (z : Size) (R : BitVec 3) (r : RSel) (s : State) :
    Post (Quiet s) (shapeRr alu z R r s) := .next (((Quiet.refl s).alu ha _ _).writeReg _ _)

theorem shapeRi_quiet {alu : AluOp} (ha : QuietAlu alu) (z : Size) (r : RSel) (imm : Word32) (s : State) :
    Post (Quiet s) (shapeRi alu z r imm s) := .next (((Quiet.refl s).alu ha _ _).writeReg _ _)

theorem shapeRm_quiet {alu : AluOp} (ha : QuietAlu alu) (z : Size) (R : BitVec 3) (m : Mem) (s : State) :
    Post (Quiet s) (shapeRm alu z R m s) := .withMem fun _ _ h => .read fun _ => .next ((h.alu ha _ _).writeReg _ _)

theorem shapeMr_quiet {alu : AluOp} (ha : QuietAlu alu) (z : Size) (m : Mem) (R : BitVec 3) (s : State) :
    Post (Quiet s) (shapeMr alu z m R s) := .withMem fun _ _ h => .read fun _ => .memWrite (h.alu ha _ _)

theorem shapeMi_quiet {alu : AluOp} (ha : QuietAlu alu) (z : Size) (m : Mem) (imm : Word32) (s : State) :
    Post (Quiet s) (shapeMi alu z m imm s) := .withMem fun _ _ h => .read fun _ => .memWrite (h.alu ha _ _)

theorem compareRr_quiet (z : Size) (R : BitVec 3) (r : RSel) (s : State) : Post (Quiet s) (compareRr z R r s) :=
  .next ((Quiet.refl s).alu quietAlu_sub _ _)

theorem compareRi_quiet (z : Size) (r : RSel) (imm : Word32) (s : State) : Post (Quiet s) (compareRi z r imm s) :=
  .next ((Quiet.refl s).alu quietAlu_sub _ _)

theorem compareRm_quiet (z : Size) (R : BitVec 3) (m : Mem) (s : State) : Post (Quiet s) (compareRm z R m s) :=
  .withMem fun _ _ h => .read fun _ => .next (h.alu quietAlu_sub _ _)

theorem compareMr_quiet (z : Size) (m : Mem) (R : BitVec 3) (s : State) : Post (Quiet s) (compareMr z m R s) :=
  .withMem fun _ _ h => .read fun _ => .next (h.alu quietAlu_sub _ _)

theorem compareMi_quiet (z : Size) (m : Mem) (imm : Word32) (s : State) : Post (Quiet s) (compareMi z m imm s) :=
  .withMem fun _ _ h => .read fun _ => .next (h.alu quietAlu_sub _ _)

theorem Quiet.putDivision {s t : State} {n : Nat} (h : Quiet s t) (k : RegCode) (res : Option (BitVec (n + n))) :
    Quiet s (putDivision k res t) := by
  obtain ⟨v, d, e, _⟩ := putDivision_eq k res t
  exact e ▸ (h.flagged _ d).writeReg k v

theorem Quiet.putSearch {s t : State} (h : Quiet s t) (found : Option Nat) : Quiet s (putSearch found t) := by
  obtain ⟨v, d, e, _⟩ := putSearch_eq found t
  exact e ▸ (h.flagged _ d).writeReg codeA v

theorem Quiet.andCarry {s t : State} {n : Nat} (h : Quiet s t) (v : BitVec n) (k : Nat) : Quiet s (andCarry v k t) := by
  obtain ⟨f, d, e, _⟩ := andCarry_eq v k t
  exact e ▸ h.flagged f d

theorem Quiet.testBit {s t : State} {n : Nat} (h : Quiet s t) (v : BitVec n) (k : Nat) : Quiet s (testBit v k t) := by
  obtain ⟨f, d, e, _⟩ := testBit_eq v k t
  exact e ▸ h.flagged f d

theorem State.drawBit_eq_flagged (s : State) : s.drawBit.2 = s.flagged s.f (s.draws + 1) := rfl

theorem State.drawValue_eq_flagged (s : State) (w : Nat) : (s.drawValue w).2 = s.flagged s.f (s.draws + 1) := rfl

@[simp] theorem State.flagged_flagged (s : State) (f g : Flags) (c d : Nat) : (s.flagged f c).flagged g d = s.flagged g d := rfl

/-- Flags set after a register is written are set before it. -/
theorem State.setF_writeReg_flagged {n : Nat} (s : State) (f g : Flags) (d : Nat) (k : RegCode) (v : BitVec n) :
    ((s.flagged f d).writeReg k v).setF g = (s.flagged g d).writeReg k v := rfl

/-- DAA off its table writes a free value to the register and changes F and the draw count. -/
theorem daaFree_eq (k : RegCode) (s : State) : ∃ (v : Byte) (f : Flags) (d : Nat),
    daaFree k s = (s.flagged f d).writeReg k v ∧ f.n = s.f.n ∧ f.rest = s.f.rest := by
  simp only [daaFree, State.drawBit_eq_flagged, State.drawValue_eq_flagged, State.flagged_flagged, State.setF_writeReg_flagged]
  exact ⟨_, _, _, rfl, rfl, rfl⟩

/-- DAA by a row writes the adjusted byte to the register and changes F and perhaps the draw count. -/
theorem daaAdjust_eq (k : RegCode) (row : DaaRow) (d : Byte) (s : State) : ∃ (u : Bool) (n : Nat),
    ((s.drawBitIf s.f.n).2.writeReg k (d + row.added)).setF (daaFlags row d (s.drawBitIf s.f.n).1 s.f)
      = (s.flagged (daaFlags row d u s.f) n).writeReg k (d + row.added) := by
  cases h : s.f.n
  · exact ⟨_, s.draws, rfl⟩
  · exact ⟨_, s.draws + 1, rfl⟩

theorem compareStep_quiet {s t : State} (h : Quiet s t) (z : SizeBW) (R : BitVec 3) (up : Bool) :
    Post (Quiet s) (compareStep z R up t) := .read fun _ => .next (((h.setLong _ _).writeReg _ _).setF _)

theorem compareRepeat_quiet (z : SizeBW) (R : BitVec 3) (up : Bool) (k : Nat) {s t : State} (h : Quiet s t) :
    Post (Quiet s) (compareRepeat z R up k t) := by
  induction k generalizing t with
  | zero => exact .next h
  | succ k ih =>
    refine .andThen (compareStep_quiet h z R up) fun u hu => ?_
    split
    · exact .next hu
    · exact ih hu

theorem push32_quiet (s : State) (v : Word32) : Post (Quiet s) (s.push32 v) := .memWrite ((Quiet.refl s).setLong _ _)

/-! ## Instructions -/

/-- The instructions that change a system field (R200 to R202, R100). -/
def setsSystemField : Instr → Bool
  | .ei _ | .di | .decf | .exFF => true
  | _ => false

/-- The instructions that write pc with a target (R210 to R215). -/
def writesTarget : Instr → Bool
  | .call16 _ | .call24 _ | .calr _ | .callM _ _ | .djnz _ _ _ => true
  | _ => false

/-- A quiet change and then a new pc, which is the next instruction's address unless the instruction writes a target. -/
def QuietThenJump (i : Instr) (s t : State) : Prop :=
  ∃ u a, Quiet s u ∧ t = u.jump a ∧ (writesTarget i = false → a = s.nextPc i.len)

theorem QuietThenJump.advance {i : Instr} {s u : State} (h : Quiet s u) : QuietThenJump i s (u.advance i.len) :=
  ⟨u, u.nextPc i.len, h, rfl, fun _ => congrArg (· + BitVec.ofNat 32 i.len) h.pc⟩

/-- An instruction with a quiet body that ends at the next instruction. -/
theorem QuietThenJump.finish {i : Instr} {s : State} {r : Result State} (h : Post (Quiet s) r) :
    Post (QuietThenJump i s) (finish i.len r) := h.andThen fun _ hu => .next (.advance hu)

theorem QuietThenJump.target {i : Instr} {s u : State} (h : Quiet s u) (hi : writesTarget i = true) (a : Word32) :
    QuietThenJump i s (u.jump a) := ⟨u, a, h, rfl, fun hn => by rw [hi] at hn; cases hn⟩

theorem QuietThenJump.call {i : Instr} {s : State} (hi : writesTarget i = true) (len : Nat) (a : Word32) :
    Post (QuietThenJump i s) (call len a s) := (push32_quiet s _).andThen fun _ hu => .next (.target hu hi a)

theorem onFreePointer_post {P : State → Prop} {R : BitVec 3} {r : Result State} (h : Post P r) : Post P (onFreePointer R r) := by
  unfold onFreePointer
  split
  · exact .refused _
  · exact h

/-- Every instruction but EI, DI, DECF and EX F,F' changes the state quietly and then sets pc. -/
theorem exec_quiet {i : Instr} (hi : setsSystemField i = false) (s : State) : Post (QuietThenJump i s) (exec i s) := by
  have self := Quiet.refl s
  cases i with
  | ei _ | di | decf | exFF => cases hi
  | ccf => exact .next (.advance (self.flagged _ _))
  -- calls and DJNZ
  | call16 a | call24 a | calr d => exact .call rfl _ _
  | callM c m =>
    show Post _ (execCallM c m s)
    unfold execCallM
    split
    · split
      · exact .call rfl _ _
      · exact .next (.target self rfl _)
    · exact .refused _
  | djnz z r d =>
    refine .next ?_
    split <;> exact .target (self.writeReg _ _) rfl _
  -- the shapes of R150
  | addRR z R r => exact .finish (shapeRr_quiet quietAlu_add z R r s)
  | adcRR z R r => exact .finish (shapeRr_quiet quietAlu_adc z R r s)
  | andRR z R r => exact .finish (shapeRr_quiet quietAlu_and z R r s)
  | addRI z r imm => exact .finish (shapeRi_quiet quietAlu_add z r imm s)
  | adcRI z r imm => exact .finish (shapeRi_quiet quietAlu_adc z r imm s)
  | andRI z r imm => exact .finish (shapeRi_quiet quietAlu_and z r imm s)
  | addRM z R m => exact .finish (shapeRm_quiet quietAlu_add z R m s)
  | adcRM z R m => exact .finish (shapeRm_quiet quietAlu_adc z R m s)
  | andRM z R m => exact .finish (shapeRm_quiet quietAlu_and z R m s)
  | addMR z m R => exact .finish (shapeMr_quiet quietAlu_add z m R s)
  | adcMR z m R => exact .finish (shapeMr_quiet quietAlu_adc z m R s)
  | andMR z m R => exact .finish (shapeMr_quiet quietAlu_and z m R s)
  | addMI z m imm => exact .finish (shapeMi_quiet quietAlu_add z.size m imm s)
  | adcMI z m imm => exact .finish (shapeMi_quiet quietAlu_adc z.size m imm s)
  | andMI z m imm => exact .finish (shapeMi_quiet quietAlu_and z.size m imm s)
  -- CP
  | cpRR z R r => exact .finish (compareRr_quiet z R r s)
  | cpRI z r imm => exact .finish (compareRi_quiet z r imm s)
  | cpRN z r n => exact .finish (compareRi_quiet z.size r _ s)
  | cpRM z R m => exact .finish (compareRm_quiet z R m s)
  | cpMR z m R => exact .finish (compareMr_quiet z m R s)
  | cpMI z m imm => exact .finish (compareMi_quiet z.size m imm s)
  -- one register, or two
  | cplR z r => exact .next (.advance ((self.writeReg _ _).setF _))
  | extz z r | exts z r => exact .next (.advance (self.writeReg _ _))
  | exRR z R r => exact .next (.advance ((self.writeReg _ _).writeReg _ _))
  | decNR z n r =>
    rw [exec_decNR]
    exact .next (.advance ((self.flagged _ _).writeReg _ _))
  | daa r =>
    refine .finish (.next ?_)
    split
    · rename_i row _
      obtain ⟨u, n, e⟩ := daaAdjust_eq (selCode .b r) row (s.readReg 8 (selCode .b r)) s
      exact e ▸ (self.flagged _ n).writeReg _ _
    · obtain ⟨v, f, d, e, _⟩ := daaFree_eq (selCode .b r) s
      exact e ▸ (self.flagged f d).writeReg _ v
  | divRR z R r | divsRR z R r => exact .next (.advance (self.putDivision _ _))
  | divRI z r imm | divsRI z r imm => exact .next (.advance (self.putDivision _ _))
  | bs1f r | bs1b r => exact .next (.advance (self.putSearch _))
  | andcfNR z n r => exact .next (.advance (self.andCarry _ _))
  | andcfAR z r => exact .next (.advance (self.andCarry _ _))
  | bitNR z n r => exact .next (.advance (self.testBit _ _))
  | chgNR z n r =>
    show Post _ (execChgNR z n r s)
    unfold execChgNR
    split
    · exact .next (.advance (self.writeReg _ _))
    · exact .refused _
  -- memory
  | decNM z n m => exact .finish (.withMem fun _ _ h => .read fun _ => .memWrite (h.setF _))
  | chgNM n m => exact .finish (.withMem fun _ _ h => .read fun _ => .memWrite h)
  | exMR z m R =>
    exact .finish (.withMem fun _ _ h => .read fun _ => (Post.memWrite h).andThen fun _ hu =>
      .next (hu.writeReg _ _))
  | divRM z R m | divsRM z R m =>
    exact .finish (.withMem fun _ _ h => .read fun _ => .next (h.putDivision _ _))
  | andcfNM n m => exact .finish (.withMem fun _ _ h => .read fun _ => .next (h.andCarry _ _))
  | andcfAM m => exact .finish (.withMem fun _ _ h => .read fun _ => .next (h.andCarry _ _))
  | bitNM n m => exact .finish (.withMem fun _ _ h => .read fun _ => .next (h.testBit _ _))
  -- compare and count
  | cpi z R | cpd z R => exact onFreePointer_post (.finish (compareStep_quiet self z R _))
  | cpir z R | cpdr z R => exact onFreePointer_post (.finish (compareRepeat_quiet z R _ _ self))

/-- A next state of a step is one of the execution of some instruction. -/
theorem exists_exec_of_step {s t : State} (h : step s = .next t) : ∃ i, exec i s = .next t := by
  unfold step at h
  split at h
  · cases h
  · unfold runDecoded at h
    split at h
    · exact ⟨_, h⟩
    · cases h
    · cases h

/-! ## The statements about every step -/

/-- An instruction changes no system field but its own: EI and DI the level, DECF the bank, EX F,F' the second flag byte. -/
theorem exec_systemFields {i : Instr} {s t : State} (h : exec i s = .next t) :
    ((∀ n, i ≠ .ei n) → i ≠ .di → t.iffLevel = s.iffLevel) ∧ (i ≠ .decf → t.rfp = s.rfp) ∧ (i ≠ .exFF → t.fAlt = s.fAlt)
      ∧ ControlRegsKept s t ∧ t.launch = s.launch := by
  have control : ControlRegsKept s s := (SystemKept.refl s).2.2.2.1
  cases hi : setsSystemField i
  case false =>
    obtain ⟨u, a, ⟨⟨iff, rfp, fAlt, control, launch⟩, _⟩, rfl, _⟩ := exec_quiet hi s t h
    exact ⟨fun _ _ => iff, fun _ => rfp, fun _ => fAlt, control, launch⟩
  case true =>
    cases i with
    | ei n =>
      cases h
      exact ⟨fun hn _ => absurd rfl (hn n), fun _ => rfl, fun _ => rfl, control, rfl⟩
    | di =>
      cases h
      exact ⟨fun _ hd => absurd rfl hd, fun _ => rfl, fun _ => rfl, control, rfl⟩
    | decf =>
      cases h
      exact ⟨fun _ _ => rfl, fun hd => absurd rfl hd, fun _ => rfl, control, rfl⟩
    | exFF =>
      cases h
      exact ⟨fun _ _ => rfl, fun _ => rfl, fun hx => absurd rfl hx, control, rfl⟩
    | _ => cases hi

/-- An instruction that sets a system field keeps memory. -/
theorem mem_of_setsSystemField {i : Instr} {s t : State} (hi : setsSystemField i = true) (h : exec i s = .next t) :
    t.mem = s.mem := by
  cases i with
  | ei _ | di | decf | exFF =>
    cases h
    rfl
  | _ => cases hi

theorem exec_memOk {i : Instr} {s t : State} (h : exec i s = .next t) (ok : s.memOk) : t.memOk := by
  cases hi : setsSystemField i
  case false =>
    obtain ⟨u, a, quiet, rfl, _⟩ := exec_quiet hi s t h
    exact quiet.memOk ok
  case true =>
    obtain ⟨_, _, _, _, launch⟩ := exec_systemFields h
    unfold State.memOk
    rwa [mem_of_setsSystemField hi h, launch]

/-- The bank number DECF writes has bit 2 clear, whatever it was (R202). -/
theorem decRfp_bit_two (rfp : BitVec 3) : (decRfp rfp).getLsbD 2 = false := by
  revert rfp; decide

theorem exec_rfpOk {i : Instr} {s t : State} (h : exec i s = .next t) (ok : s.rfpOk) : t.rfpOk := by
  by_cases hi : i = .decf
  · subst hi
    cases h
    exact decRfp_bit_two s.rfp
  · unfold State.rfpOk
    rwa [(exec_systemFields h).2.1 hi]

/-- Settles O13: memory by `exec_memOk`, RFP by `exec_rfpOk`, and the parameters do not change. -/
theorem everyStepKeepsTheInvariant : Obligations.EveryStepKeepsTheInvariant := by
  unfold Obligations.EveryStepKeepsTheInvariant
  rintro s t ⟨mem, rfp, launch⟩ h
  obtain ⟨i, h⟩ := exists_exec_of_step h
  obtain ⟨_, _, _, _, same⟩ := exec_systemFields h
  exact ⟨exec_memOk h mem, exec_rfpOk h rfp, same ▸ launch⟩

/-- Settles O15: a quiet change keeps TEXT, and the other instructions keep all of memory. -/
theorem everyStepKeepsTheProgramText : Obligations.EveryStepKeepsTheProgramText := by
  unfold Obligations.EveryStepKeepsTheProgramText
  intro s t h a ha
  obtain ⟨i, h⟩ := exists_exec_of_step h
  cases hi : setsSystemField i
  case false =>
    obtain ⟨u, pc, quiet, rfl, _⟩ := exec_quiet hi s t h
    exact quiet.text a ha
  case true => exact MemKept.of_mem_eq (mem_of_setsSystemField hi h) a

/-- Settles O16: `exec_systemFields`. -/
theorem systemFieldsChangeOnlyByTheirInstructions : Obligations.SystemFieldsChangeOnlyByTheirInstructions := by
  unfold Obligations.SystemFieldsChangeOnlyByTheirInstructions
  exact fun i s t h => exec_systemFields h

/-- Settles O17: the pc of `exec_quiet`; the other instructions end with an `advance`. -/
theorem onlyCallsAndDjnzWritePcWithATarget : Obligations.OnlyCallsAndDjnzWritePcWithATarget := by
  unfold Obligations.OnlyCallsAndDjnzWritePcWithATarget
  intro i s t h call16 call24 callM calr djnz
  have noTarget : writesTarget i = false := by
    cases i with
    | call16 a => exact absurd rfl (call16 a)
    | call24 a => exact absurd rfl (call24 a)
    | calr d => exact absurd rfl (calr d)
    | callM c m => exact absurd rfl (callM c m)
    | djnz z r d => exact absurd rfl (djnz z r d)
    | _ => rfl
  cases hi : setsSystemField i
  case false =>
    obtain ⟨u, a, _, rfl, next⟩ := exec_quiet hi s t h
    exact next noTarget
  case true =>
    cases i with
    | ei _ | di | decf | exFF =>
      cases h
      rfl
    | _ => cases hi

/-! ## Instructions that leave F alone -/

/-- F is the same. -/
def FlagsKept (s t : State) : Prop := t.f = s.f

/-- The rest of the instruction leaves F alone. -/
theorem FlagsKept.finish {s : State} {len : Nat} {r : Result State} (h : Post (FlagsKept s) r) :
    Post (FlagsKept s) (finish len r) := h.andThen fun _ hu => .next hu

theorem FlagsKept.memWrite {s t : State} (h : FlagsKept s t) {n : Nat} (a : Word32) (v : BitVec n) :
    Post (FlagsKept s) (t.memWrite a v) := by
  intro u hu
  obtain ⟨_, rfl⟩ := memWrite_eq_next.1 hu
  exact h

theorem FlagsKept.withMem {s : State} {m : Mem} {used : List RegCode} {body : Word32 → State → Result State}
    (h : ∀ ea t, FlagsKept s t → Post (FlagsKept s) (body ea t)) : Post (FlagsKept s) (withMem m used s body) := by
  intro u hu
  obtain ⟨_, t, ht, rfl⟩ := withMem_eq_next.1 hu
  exact (Mem.after_f t m).trans (h _ _ (Mem.before_f s m) t ht)

theorem FlagsKept.call (len : Nat) (a : Word32) (s : State) : Post (FlagsKept s) (call len a s) := by
  intro u hu
  obtain ⟨_, rfl⟩ := call_eq_next.1 hu
  rfl

/-- Settles O18: one case for each instruction of the list, by what its body writes. -/
theorem instructionsWithoutFlagEffectKeepF : Obligations.InstructionsWithoutFlagEffectKeepF := by
  unfold Obligations.InstructionsWithoutFlagEffectKeepF
  intro i s t h listed
  revert t
  show Post (FlagsKept s) (exec i s)
  cases i with
  | extz _ _ | exts _ _ | exRR _ _ _ | ei _ | di | decf => exact .next rfl
  | chgNR z n r =>
    show Post _ (execChgNR z n r s)
    unfold execChgNR
    split
    · exact .next rfl
    · exact .refused _
  | chgNM n m => exact FlagsKept.finish (FlagsKept.withMem fun _ _ h => .read fun _ => h.memWrite _ _)
  | exMR z m R =>
    exact FlagsKept.finish (FlagsKept.withMem fun _ _ h => .read fun _ => (h.memWrite _ _).andThen fun _ hu => .next hu)
  | call16 a | call24 a | calr d => exact FlagsKept.call _ _ s
  | callM c m =>
    show Post _ (execCallM c m s)
    unfold execCallM
    split
    · split
      · exact FlagsKept.call _ _ s
      · exact .next rfl
    · exact .refused _
  | djnz z r d =>
    refine .next ?_
    split <;> rfl
  | decNR z n r =>
    have notByte : z ≠ .b := by
      rintro rfl
      exact listed
    rw [exec_decNR]
    exact .next (decRegFlags_of_ne_byte notByte _ _ _)
  | _ => exact listed.elim

end Sys2Proof.Machine

/-! PROOF. Encodings of fixed words, lengths, and what the decoder refuses, each by its name (spec/30_encoding.md sections 2 to 5 and 7). -/

namespace Sys2Proof.Machine

/-- Settles O1: each word is the encoding of its instruction. -/
theorem specWordsDecode : Obligations.SpecWordsDecode := by
  unfold Obligations.SpecWordsDecode
  exact ⟨decode_encode (i := .ei 3#3) rfl [], decode_encode (i := .di) rfl [], decode_encode (i := .exFF) rfl [],
    decode_encode (i := .addRR .w 3#3 (.short 4#3)) rfl [],
    decode_encode (i := .divRI .b (.ext ⟨.idx 0#2, 0#2⟩) 3#32) rfl [], decode_encode (i := .cpir .b 4#3) rfl [],
    decode_encode (i := .addMI .w (.abs16 0x0200#16) 0x1234#32) rfl [],
    decode_encode (i := .andcfNM 6#3 (.abs16 0x0100#16)) rfl [], decode_encode (i := .decNR .w 4#3 (.short 3#3)) rfl [],
    decode_encode (i := .cplR .w (.short 0#3)) rfl [], decode_encode (i := .callM .nov (.abs16 0x3000#16)) rfl [],
    decode_encode (i := .djnz .b (.short 0#3) 0xFB#8) rfl []⟩

/-! ## Lengths (R85) -/

@[simp] theorem length_regBytes (z : Size) (r : RSel) : (r.bytes z).length = r.len := by cases r <;> rfl

@[simp] theorem length_memBytes (xx : BitVec 2) (m : Mem) : (m.bytes xx).length = m.len := by cases m <;> rfl

@[simp] theorem length_immBytes (z : Size) (imm : Word32) : (immBytes z imm).length = z.bytes := by cases z <;> rfl

theorem regLen_bounds : ∀ r : RSel, 1 ≤ r.len ∧ r.len ≤ 2
  | .short _ => ⟨Nat.le_refl 1, Nat.le_succ 1⟩
  | .ext _ => ⟨Nat.le_succ 1, Nat.le_refl 2⟩

theorem memLen_bounds (m : Mem) : 1 ≤ m.len ∧ m.len ≤ 4 := by
  cases m <;> simp [Mem.len]

theorem bytes_bounds : ∀ z : Size, 1 ≤ z.bytes ∧ z.bytes ≤ 4
  | .b | .w | .l => by decide

theorem bytes_bounds_BW : ∀ z : SizeBW, 1 ≤ z.size.bytes ∧ z.size.bytes ≤ 2
  | .b | .w => by decide

/-- The encoding has the stated length: each part has. -/
theorem length_encode (i : Instr) : (encode i).length = i.len := by
  cases i with
  | ei _ | di | decf | ccf | exFF | call16 _ | call24 _ | calr _ | cpi _ _ | cpir _ _ | cpd _ _ | cpdr _ _ => rfl
  | _ =>
    simp only [encode, Instr.len, List.length_append, List.length_cons, List.length_nil, length_regBytes, length_memBytes,
      length_immBytes] <;> omega

theorem len_bounds (i : Instr) : 1 ≤ i.len ∧ i.len ≤ 7 := by
  cases i with
  | ei _ | di | decf | ccf | exFF | call16 _ | call24 _ | calr _ | cpi _ _ | cpir _ _ | cpd _ _ | cpdr _ _ => simp [Instr.len]
  | divRI z r _ | divsRI z r _ =>
    have := regLen_bounds r
    have := bytes_bounds_BW z
    simp only [Instr.len]
    omega
  | addRI z r _ | adcRI z r _ | andRI z r _ | cpRI z r _ =>
    have := regLen_bounds r
    have := bytes_bounds z
    simp only [Instr.len]
    omega
  | addMI z m _ | adcMI z m _ | andMI z m _ | cpMI z m _ =>
    have := memLen_bounds m
    have := bytes_bounds_BW z
    simp only [Instr.len]
    omega
  | cplR _ r | bs1f r | bs1b r | daa r | extz _ r | exts _ r | djnz _ r _ | andcfNR _ _ r | andcfAR _ r | chgNR _ _ r
  | bitNR _ _ r | divRR _ _ r | divsRR _ _ r | decNR _ _ r | addRR _ _ r | adcRR _ _ r | exRR _ _ r | andRR _ _ r
  | cpRN _ r _ | cpRR _ _ r =>
    have := regLen_bounds r
    simp only [Instr.len]
    omega
  | exMR _ m _ | divRM _ _ m | divsRM _ _ m | decNM _ _ m | addRM _ _ m | addMR _ m _ | adcRM _ _ m | adcMR _ m _
  | andRM _ _ m | andMR _ m _ | cpRM _ _ m | cpMR _ m _ | andcfAM m | andcfNM _ m | chgNM _ m | bitNM _ m | callM _ m =>
    have := memLen_bounds m
    simp only [Instr.len]
    omega

/-- Settles O4: `length_encode` and `len_bounds`. -/
theorem encodingsHaveTheStatedLength : Obligations.EncodingsHaveTheStatedLength := by
  unfold Obligations.EncodingsHaveTheStatedLength
  exact fun i => ⟨length_encode i, len_bounds i⟩

/-! ## First bytes outside the map (R81) -/

theorem bit_seven_of_lt {b : Byte} (h : b.toNat < 0x80) : b.getLsbD 7 = false := by
  revert b; decide

/-- From F7H on (but for the low nibbles of a memory mode) the size field of a register form is 11. -/
theorem regForm_size_eleven {b : Byte} (h : b = 0xF7#8 ∨ 0xF8 ≤ b.toNat) :
    b.getLsbD 7 = true ∧ isRegPrefix b = true ∧ sizeOfCode (sizeField b) = none := by
  revert b; decide

theorem decode_size_eleven {b : Byte} (h : b = 0xF7#8 ∨ 0xF8 ≤ b.toNat) (bs : List Byte) :
    decode (b :: bs) = .refuse .unknownEncoding := by
  obtain ⟨h7, hp, hz⟩ := regForm_size_eleven h
  simp only [decode, withByte, h7, hp, hz, Bool.true_eq_false, if_false, if_true]

/-- Settles O5: fixed forms by the table of R81, the low nibble 6 by the table of modes, and a register form of size 11. -/
theorem firstBytesOutsideTheMapAreRefused : Obligations.FirstBytesOutsideTheMapAreRefused := by
  unfold Obligations.FirstBytesOutsideTheMapAreRefused
  rintro b bs (⟨low, other⟩ | nibble | high)
  · simp only [List.mem_cons, List.not_mem_nil, or_false, not_or] at other
    rw [decode_fixed (bit_seven_of_lt low)]
    simp only [decodeFixed, other, if_false]
  · simp only [List.mem_cons, List.not_mem_nil, or_false] at nibble
    rcases nibble with rfl | rfl | rfl | rfl | rfl
    case inr.inr.inr.inr => exact decode_size_eleven (.inl rfl) bs
    all_goals rfl
  · exact decode_size_eleven (.inr high) bs

end Sys2Proof.Machine

/-! PROOF. Reserved fields and sizes marked X are refused, each by its name (spec/30_encoding.md sections 2, 3, 4 and 7): what each
parser answers on a reserved field, and the parser that reads it. -/

namespace Sys2Proof.Machine

/-! ## Register codes (R38) -/

/-- The code byte `k` names a row of the register map. -/
def AssignedCode (k : Byte) : Prop := k.toNat < 0x40 ∨ 0xD0 ≤ k.toNat

theorem longRegOfCode6_unassigned {k : Byte} (h : 0x40 ≤ k.toNat) (h' : k.toNat < 0xD0) : longRegOfCode6 (hi6 k) = none := by
  revert k; decide

theorem longRegOfCode6_assigned {k : Byte} (h : AssignedCode k) : ∃ r, longRegOfCode6 (hi6 k) = some r := by
  have key : ∀ k : Byte, k.toNat < 0x40 ∨ 0xD0 ≤ k.toNat → (longRegOfCode6 (hi6 k)).isSome = true := by decide
  exact Option.isSome_iff_exists.1 (key k h)

/-- A code is one of a register of size `z` where it is a multiple of the size. -/
theorem aligned_iff_mod (r : LongReg) (k : Byte) (z : Size) :
    RegCode.aligned ⟨r, lo2 k⟩ z = true ↔ k.toNat % z.bytes = 0 := by
  cases z with
  | b => simp [RegCode.aligned, Size.bytes, Nat.mod_one]
  | w =>
    show (decide (lo2 k = 0#2) || decide (lo2 k = 2#2)) = true ↔ k.toNat % 2 = 0
    revert k; decide
  | l =>
    show decide (lo2 k = 0#2) = true ↔ k.toNat % 4 = 0
    revert k; decide

theorem withRow_unassigned {k : Byte} (h : 0x40 ≤ k.toNat) (h' : k.toNat < 0xD0) (f : LongReg → Decoded) :
    withRow (hi6 k) f = .refuse .unassignedRegisterCode := by
  rw [withRow, longRegOfCode6_unassigned h h']

theorem withRegCode_unassigned {k : Byte} (h : 0x40 ≤ k.toNat) (h' : k.toNat < 0xD0) (z : Size) (bs : List Byte)
    (f : RegCode → List Byte → Decoded) : withRegCode z (k :: bs) f = .refuse .unassignedRegisterCode := by
  rw [withRegCode, withByte, withRow_unassigned h h']

theorem withRegCode_misaligned {k : Byte} {z : Size} (h : AssignedCode k) (hz : k.toNat % z.bytes ≠ 0) (bs : List Byte)
    (f : RegCode → List Byte → Decoded) : withRegCode z (k :: bs) f = .refuse .misalignedRegisterCode := by
  obtain ⟨r, hr⟩ := longRegOfCode6_assigned h
  rw [withRegCode, withByte, withRow, hr]
  exact if_neg (mt (aligned_iff_mod r k z).1 hz)

theorem withRegCode_assigned {k : Byte} {z : Size} (h : AssignedCode k) (hz : k.toNat % z.bytes = 0) (bs : List Byte)
    (f : RegCode → List Byte → Decoded) : ∃ r, withRegCode z (k :: bs) f = f ⟨r, lo2 k⟩ bs := by
  obtain ⟨r, hr⟩ := longRegOfCode6_assigned h
  refine ⟨r, ?_⟩
  rw [withRegCode, withByte, withRow, hr]
  exact if_pos ((aligned_iff_mod r k z).2 hz)

theorem withLongReg_unassigned {k : Byte} (h : 0x40 ≤ k.toNat) (h' : k.toNat < 0xD0) (bs : List Byte)
    (f : LongReg → List Byte → Decoded) : withLongReg (k :: bs) f = .refuse .unassignedRegisterCode :=
  withRegCode_unassigned h h' _ _ _

theorem withLongReg_misaligned {k : Byte} (h : AssignedCode k) (hk : k.toNat % 4 ≠ 0) (bs : List Byte)
    (f : LongReg → List Byte → Decoded) : withLongReg (k :: bs) f = .refuse .misalignedRegisterCode :=
  withRegCode_misaligned (z := .l) h hk _ _

theorem withStepped_unassigned {k : Byte} (h : 0x40 ≤ k.toNat) (h' : k.toNat < 0xD0) (bs : List Byte)
    (f : LongReg → StepCode → List Byte → Decoded) : withStepped (k :: bs) f = .refuse .unassignedRegisterCode := by
  rw [withStepped, withByte, withRow_unassigned h h']

theorem withStepped_eleven (r : LongReg) (bs : List Byte) (f : LongReg → StepCode → List Byte → Decoded) :
    withStepped ((r.code6 ++ 0b11#2) :: bs) f = .refuse .stepCode11 := by
  rw [withStepped, withByte, hi6_append, lo2_append, withRow_code6]
  rfl

/-! ## The second byte of the register modes (R74) -/

theorem lo2_of_mod {k : Byte} (h : k.toNat % 4 < 2) : lo2 k = 0b00#2 ∨ lo2 k = 0b01#2 := by
  revert k; decide

theorem lo2_ne_of_mod {k : Byte} (h : 2 ≤ k.toNat % 4) : lo2 k ≠ 0b00#2 ∧ lo2 k ≠ 0b01#2 := by
  revert k; decide

theorem withRegMode_unassigned {k : Byte} (h : 0x40 ≤ k.toNat) (h' : k.toNat < 0xD0) (hk : k.toNat % 4 < 2) (bs : List Byte)
    (f : Mem → List Byte → Decoded) : withRegMode (k :: bs) f = .refuse .unassignedRegisterCode := by
  rw [withRegMode, withByte, withRow_unassigned h h', withRow_unassigned h h']
  rcases lo2_of_mod hk with h0 | h1
  · rw [if_pos h0]
  · rw [if_neg (by rw [h1]; decide), if_pos h1]

theorem withRegMode_undefined {k : Byte} (hk : 2 ≤ k.toNat % 4) (h3 : k ≠ 0x03#8) (h7 : k ≠ 0x07#8) (bs : List Byte)
    (f : Mem → List Byte → Decoded) : withRegMode (k :: bs) f = .refuse .unknownEncoding := by
  obtain ⟨h0, h1⟩ := lo2_ne_of_mod hk
  rw [withRegMode, withByte, if_neg h0, if_neg h1, if_neg h3, if_neg h7]

/-- The byte 03H opens (r32+r8). -/
theorem withRegMode_regR8 (bs : List Byte) (f : Mem → List Byte → Decoded) :
    withRegMode (0x03#8 :: bs) f = withLongReg bs fun r bs => withRegCode .b bs fun c bs => f (.regR8 r c) bs := rfl

/-- The byte 07H opens (r32+r16). -/
theorem withRegMode_regR16 (bs : List Byte) (f : Mem → List Byte → Decoded) :
    withRegMode (0x07#8 :: bs) f = withLongReg bs fun r bs => withRegCode .w bs fun c bs => f (.regR16 r c) bs := rfl

/-! ## The parser a first byte hands over to -/

/-- The op byte after a memory mode with size field `xx` (R83, R84). -/
def readOp (xx : BitVec 2) (m : Mem) (bs : List Byte) : Decoded :=
  withByte bs fun op bs =>
    match sizeOfCode xx with
    | some z => decodeSrcOp z m op bs
    | none => decodeDstOp m op bs

theorem decode_highFirst (xx : BitVec 2) {l : BitVec 4} (hl : l.toNat < 6) (bs : List Byte) :
    decode ((0b11#2 ++ xx ++ l) :: bs) = withMode (0b11#2 ++ xx ++ l) bs (readOp xx) := by
  obtain ⟨h7, hp, hs, _, _⟩ := memFirst_high xx l hl
  exact decode_memFirst h7 hp hs bs

theorem decode_regMode (xx : BitVec 2) (bs : List Byte) :
    decode ((0b11#2 ++ xx ++ 0x3#4) :: bs) = withRegMode bs (readOp xx) := by
  obtain ⟨_, _, _, h6, hl⟩ := memFirst_high xx 0x3#4 (by decide)
  rw [decode_highFirst xx (by decide)]
  simp (disch := decide) only [withMode, h6, hl, if_neg, if_true]

theorem decode_preDec (xx : BitVec 2) (bs : List Byte) :
    decode ((0b11#2 ++ xx ++ 0x4#4) :: bs) = withStepped bs fun r st bs => readOp xx (.preDec r st) bs := by
  obtain ⟨_, _, _, h6, hl⟩ := memFirst_high xx 0x4#4 (by decide)
  rw [decode_highFirst xx (by decide)]
  simp (disch := decide) only [withMode, h6, hl, if_neg, if_true]

theorem decode_postInc (xx : BitVec 2) (bs : List Byte) :
    decode ((0b11#2 ++ xx ++ 0x5#4) :: bs) = withStepped bs fun r st bs => readOp xx (.postInc r st) bs := by
  obtain ⟨_, _, _, h6, hl⟩ := memFirst_high xx 0x5#4 (by decide)
  rw [decode_highFirst xx (by decide)]
  simp (disch := decide) only [withMode, h6, hl, if_neg, if_true]

/-- A register form with its code in a byte of its own (R73). -/
theorem decode_extFirst (z : Size) (bs : List Byte) :
    decode ((0b11#2 ++ z.code ++ 0b0111#4) :: bs)
      = withRegCode z bs fun k bs => withByte bs fun op bs => decodeRegOp z (.ext k) op bs := by
  cases z <;> rfl

/-- A source form with a memory mode (R83). -/
theorem decode_src (z : Size) {m : Mem} (hm : m.wf = true) (op : Byte) (bs : List Byte) :
    decode (m.bytes z.code ++ op :: bs) = decodeSrcOp z m op bs := by
  rw [decode_memBytes _ hm, sizeOfCode_code]

/-! ## Spare bits (R79, R200) and dividends (R141) -/

theorem hi4_ne_zero {b : Byte} (h : 16 ≤ b.toNat) : hi4 b ≠ 0#4 := by
  revert b; decide

theorem hi5_ne_zero {b : Byte} (h : 8 ≤ b.toNat) : hi5 b ≠ 0#5 := by
  revert b; decide

theorem withNum4_spare {b : Byte} (h : 16 ≤ b.toNat) (bs : List Byte) (f : BitVec 4 → List Byte → Decoded) :
    withNum4 (b :: bs) f = .refuse .spareBitsSet := if_neg (hi4_ne_zero h)

theorem decodeFixed_spare {b : Byte} (h : 8 ≤ b.toNat) (bs : List Byte) :
    decodeFixed 0x06#8 (b :: bs) = .refuse .spareBitsSet := if_neg (hi5_ne_zero h)

theorem dividendCodeOk_even {R : BitVec 3} (h : R ∈ [0#3, 2#3, 4#3, 6#3]) : dividendCodeOk .b R = false := by
  revert R; decide

theorem onDividendCode_refuse {z : SizeBW} {R : BitVec 3} (h : dividendCodeOk z R = false) (d : Decoded) :
    onDividendCode z R d = .refuse .oddDividendCode := if_neg (by simp [h])

theorem onDividend_short_refuse {z : SizeBW} {c : BitVec 3} (h : dividendCodeOk z c = false) (d : Decoded) :
    onDividend z (.short c) d = .refuse .oddDividendCode := if_neg (by simp [RSel.dividendOk, h])

theorem onDividend_ext_refuse {z : SizeBW} {k : RegCode} (h : ¬ k.aligned z.double = true) (d : Decoded) :
    onDividend z (.ext k) d = .refuse .misalignedRegisterCode := if_neg h

/-- The short form at Byte as a byte of two fields. -/
theorem regBytes_short_byte (c : BitVec 3) : RSel.bytes .b (.short c) = [0b11001#5 ++ c] := by
  revert c; decide

theorem bytes_double (z : SizeBW) : z.double.bytes = 2 * z.size.bytes := by cases z <;> rfl

theorem wf_byte (r : RSel) : r.wf .b = true := by cases r <;> rfl

/-- The two divides by an immediate ask for a dividend before they read it. -/
theorem decodeRegOp_divide_imm {op : Byte} (hop : op ∈ [0x0A#8, 0x0B#8]) (z : SizeBW) {r : RSel} {why : BadEncoding}
    (h : ∀ d, onDividend z r d = .refuse why) (bs : List Byte) : decodeRegOp z.size r op bs = .refuse why := by
  simp only [List.mem_cons, List.not_mem_nil, or_false] at hop
  rcases hop with rfl | rfl
  all_goals simp (disch := decide) only [decodeRegOp, if_pos, if_neg, onBW_size, h]

/-! ## Reserved fields -/

/-- A register code that a register form refuses as a dividend of twice its size, whether or not it is one of the size. -/
theorem decode_divide_ext_misaligned {op k : Byte} (hop : op ∈ [0x0A#8, 0x0B#8]) (z : SizeBW) (hk : AssignedCode k)
    (hmod : k.toNat % (2 * z.size.bytes) ≠ 0) (bs : List Byte) :
    decode ((0b11#2 ++ z.size.code ++ 0b0111#4) :: k :: op :: bs) = .refuse .misalignedRegisterCode := by
  rw [decode_extFirst]
  by_cases h : k.toNat % z.size.bytes = 0
  · obtain ⟨r, hr⟩ := withRegCode_assigned hk h (op :: bs) fun k bs => withByte bs fun op bs => decodeRegOp z.size (.ext k) op bs
    rw [hr]
    have hd : ¬ RegCode.aligned ⟨r, lo2 k⟩ z.double = true := by rwa [aligned_iff_mod, bytes_double]
    exact decodeRegOp_divide_imm hop z (onDividend_ext_refuse hd) bs
  · exact withRegCode_misaligned hk h _ _

/-- Settles O6: for each field the parser that reads it, and what this parser answers. -/
theorem reservedFieldsAreRefused : Obligations.ReservedFieldsAreRefused := by
  unfold Obligations.ReservedFieldsAreRefused
  refine ⟨fun z k bs lo hi => ?_, fun z k bs hk hz => ?_, fun xx k bs lo hi => ?_, fun xx k bs hk => ?_,
    fun xx k bs h h3 h7 => ?_, fun xx r bs => ?_, fun z r op b bs hr hop hb => ?_, fun b bs hb => ?_,
    fun R hi bs hhi hR => ?_, fun op bs hop => ⟨fun c hc => ?_, fun z k hk hmod => ?_⟩⟩
  · rw [decode_extFirst, withRegCode_unassigned lo hi]
  · rw [decode_extFirst, withRegCode_misaligned hk hz]
  · refine ⟨?_, ?_, fun hm => ?_, ?_, ?_, fun r => ⟨?_, ?_⟩⟩
    · rw [decode_preDec, withStepped_unassigned lo hi]
    · rw [decode_postInc, withStepped_unassigned lo hi]
    · rw [decode_regMode, withRegMode_unassigned lo hi hm]
    · rw [decode_regMode, withRegMode_regR8, withLongReg_unassigned lo hi]
    · rw [decode_regMode, withRegMode_regR16, withLongReg_unassigned lo hi]
    · rw [decode_regMode, withRegMode_regR8, withLongReg_toByte, withRegCode_unassigned lo hi]
    · rw [decode_regMode, withRegMode_regR16, withLongReg_toByte, withRegCode_unassigned lo hi]
  · refine ⟨fun h4 => ⟨?_, ?_⟩, fun h2 r => ?_⟩
    · rw [decode_regMode, withRegMode_regR8, withLongReg_misaligned hk h4]
    · rw [decode_regMode, withRegMode_regR16, withLongReg_misaligned hk h4]
    · rw [decode_regMode, withRegMode_regR16, withLongReg_toByte, withRegCode_misaligned (z := .w) hk h2]
  · rw [decode_regMode, withRegMode_undefined h h3 h7]
  · rw [decode_preDec, decode_postInc, withStepped_eleven, withStepped_eleven]
    exact ⟨rfl, rfl⟩
  · rw [decode_regBytes hr]
    simp only [List.mem_cons, List.not_mem_nil, or_false] at hop
    rcases hop with rfl | rfl | rfl
    all_goals simp (disch := decide) only [decodeRegOp, if_pos, if_neg, onBW_size, withNum4_spare hb]
  · rw [decode_fixed rfl, decodeFixed_spare hb]
  · have hodd := dividendCodeOk_even hR
    simp only [List.mem_cons, List.not_mem_nil, or_false] at hhi
    refine ⟨fun r => ?_, fun m hm => ?_⟩
    · rw [decode_regBytes (wf_byte r)]
      rcases hhi with rfl | rfl
      all_goals simp (disch := decide) only [decodeRegOp, append_eq_false_of_hi5, hi5_append, lo3_append, if_pos, if_neg, onBW,
        onDividendCode_refuse hodd]
    · rw [show 0b00#2 = Size.b.code from rfl, decode_src .b hm]
      rcases hhi with rfl | rfl
      all_goals simp (disch := decide) only [decodeSrcOp, append_eq_false_of_hi5, hi5_append, lo3_append, if_pos, if_neg, onBW,
        onDividendCode_refuse hodd]
  · have h := decode_regBytes (r := .short c) (wf_byte _) op bs
    rw [regBytes_short_byte] at h
    exact h.trans (decodeRegOp_divide_imm hop .b (onDividend_short_refuse (dividendCodeOk_even hc)) bs)
  · exact decode_divide_ext_misaligned hop z hk hmod bs

/-! ## Sizes marked X (R71, R82, R83) -/

theorem onBW_long (k : SizeBW → Decoded) : onBW .l k = .refuse .sizeNotListed := rfl

theorem onWL_byte (k : SizeWL → Decoded) : onWL .b k = .refuse .sizeNotListed := rfl

theorem onOnly_other {want z : Size} (h : z ≠ want) (d : Decoded) : onOnly want z d = .refuse .sizeNotListed := if_neg h

/-- The forms with a register operand that are marked X at Long word. -/
theorem decodeRegOp_long_marked (r : RSel) (R : BitVec 3) {op : Byte} (bs : List Byte)
    (hop : op ∈ [0x06#8, 0x0A#8, 0x0B#8, 0x1C#8, 0x20#8, 0x28#8, 0x32#8, 0x33#8, 0b01010#5 ++ R, 0b01011#5 ++ R, 0b10111#5 ++ R,
      0b11011#5 ++ R]) : decodeRegOp .l r op bs = .refuse .sizeNotListed := by
  simp only [List.mem_cons, List.not_mem_nil, or_false] at hop
  rcases hop with rfl | rfl | rfl | rfl | rfl | rfl | rfl | rfl | rfl | rfl | rfl | rfl
  all_goals simp (disch := decide) only [decodeRegOp, append_eq_false_of_hi5, hi5_append, if_pos, if_neg, onBW_long]

/-- The source forms that are marked X at Long word, whatever the mode. -/
theorem decodeSrcOp_long_marked (m : Mem) (R : BitVec 3) {op : Byte} (bs : List Byte)
    (hop : op ∈ [0b00110#5 ++ R, 0x38#8, 0x39#8, 0x3C#8, 0x3F#8, 0b01010#5 ++ R, 0b01011#5 ++ R, 0b01101#5 ++ R]) :
    decodeSrcOp .l m op bs = .refuse .sizeNotListed := by
  simp only [List.mem_cons, List.not_mem_nil, or_false] at hop
  rcases hop with rfl | rfl | rfl | rfl | rfl | rfl | rfl | rfl
  all_goals simp (disch := decide) only [decodeSrcOp, append_eq_false_of_hi5, hi5_append, if_pos, if_neg, onBW_long]

/-- The compare-and-count forms, which have the mode (XRR) only. -/
theorem decodeSrcOp_long_pointer (R : BitVec 3) {op : Byte} (bs : List Byte) (hop : op ∈ [0x14#8, 0x15#8, 0x16#8, 0x17#8]) :
    decodeSrcOp .l (.ind R) op bs = .refuse .sizeNotListed := by
  simp only [List.mem_cons, List.not_mem_nil, or_false] at hop
  rcases hop with rfl | rfl | rfl | rfl
  all_goals simp (disch := decide) only [decodeSrcOp, if_pos, if_neg, onPointer, onBW_long]

theorem decodeRegOp_search_marked {z : Size} (hz : z ≠ .w) (r : RSel) {op : Byte} (bs : List Byte)
    (hop : op ∈ [0x0E#8, 0x0F#8]) : decodeRegOp z r op bs = .refuse .sizeNotListed := by
  simp only [List.mem_cons, List.not_mem_nil, or_false] at hop
  rcases hop with rfl | rfl
  all_goals simp (disch := decide) only [decodeRegOp, if_pos, if_neg, onOnly_other hz]

theorem decodeRegOp_daa_marked {z : Size} (hz : z ≠ .b) (r : RSel) (bs : List Byte) :
    decodeRegOp z r 0x10#8 bs = .refuse .sizeNotListed := by
  simp (disch := decide) only [decodeRegOp, if_pos, if_neg, onOnly_other hz]

theorem decodeRegOp_extend_marked (r : RSel) {op : Byte} (bs : List Byte) (hop : op ∈ [0x12#8, 0x13#8]) :
    decodeRegOp .b r op bs = .refuse .sizeNotListed := by
  simp only [List.mem_cons, List.not_mem_nil, or_false] at hop
  rcases hop with rfl | rfl
  all_goals simp (disch := decide) only [decodeRegOp, if_pos, if_neg, onWL_byte]

/-- The mode (XRR) at Long word as a byte of two fields. -/
theorem memBytes_ind_long (R : BitVec 3) : (Mem.ind R).bytes Size.l.code = [0b10100#5 ++ R] := by
  revert R; decide

/-- Settles O7: after the bytes before the op byte, the rows of the op byte by their sizes. -/
theorem sizesMarkedXAreRefused : Obligations.SizesMarkedXAreRefused := by
  unfold Obligations.SizesMarkedXAreRefused
  refine ⟨fun r R op bs hr hop => ?_, fun z r op bs hr hz hop => ?_, fun z r bs hr hz => ?_, fun r op bs hop => ?_,
    fun m R op bs hm hop => ?_, fun R op bs hop => ?_⟩
  · rw [decode_regBytes hr, decodeRegOp_long_marked r R bs hop]
  · rw [decode_regBytes hr, decodeRegOp_search_marked hz r bs hop]
  · rw [decode_regBytes hr, decodeRegOp_daa_marked hz]
  · rw [decode_regBytes (wf_byte r), decodeRegOp_extend_marked r bs hop]
  · exact (decode_src .l hm op bs).trans (decodeSrcOp_long_marked m R bs hop)
  · have h := decode_src .l (m := .ind R) rfl op bs
    rw [memBytes_ind_long] at h
    exact h.trans (decodeSrcOp_long_pointer R bs hop)

end Sys2Proof.Machine

/-! PROOF. The step: fetching, the end of a run, instructions that run out of TEXT, and the launch of a program (spec/20_memory.md section
4, spec/70_reset_and_hazards.md). -/

namespace Sys2Proof.Machine

/-! ## The step once nothing stops it -/

theorem step_of_not_halted {s : State} (h : s.launch.haltPc ≠ some s.pc) : step s = runDecoded (decode s.fetch) s :=
  if_neg (by simpa [State.atHalt] using h)

/-- Settles O8. -/
theorem stepRunsTheDecodedInstruction : Obligations.StepRunsTheDecodedInstruction := by
  unfold Obligations.StepRunsTheDecodedInstruction
  intro s i rest h hd
  have running : s.launch.haltPc ≠ some s.pc := by simpa [State.atHalt] using h
  rw [step_of_not_halted running, hd]
  rfl

/-- Settles O14. -/
theorem resetMeetsTheInvariant : Obligations.ResetMeetsTheInvariant := by
  unfold Obligations.ResetMeetsTheInvariant
  have mem : State.reset.memOk := ⟨State.reset_mem_wf, rfl⟩
  have launch : State.reset.launch.wf = true := by decide
  exact ⟨mem, rfl, launch⟩

/-- The bytes `bs` stand at pc, all of them in TEXT (R61). -/
def State.HoldsAtPc (s : State) (bs : List Byte) : Prop :=
  ∀ (j : Nat) (b : Byte), bs[j]? = some b → s.launch.isText (s.addr s.pc j) = true ∧ s.byteAt (s.addr s.pc j) = b

/-- A fetch begins with the bytes at pc, and goes on after them. -/
theorem fetch_eq_append {s : State} {bs : List Byte} (h : s.HoldsAtPc bs) (hl : bs.length ≤ 7) :
    s.fetch = bs ++ s.fetchFrom bs.length (7 - bs.length) := by
  have h' := s.fetchFrom_of_isText 0 bs (by simpa only [State.HoldsAtPc, Nat.zero_add] using h) (7 - bs.length)
  rwa [Nat.zero_add, Nat.add_sub_cancel' hl] at h'

/-- Settles O9: the fetch begins with the encoding, which decodes to the instruction whatever follows. -/
theorem stepRunsTheInstructionInText : Obligations.StepRunsTheInstructionInText := by
  unfold Obligations.StepRunsTheInstructionInText
  intro s i wf running bytes
  have fetch := fetch_eq_append (bs := encode i) bytes (length_encode i ▸ (len_bounds i).2)
  rw [step_of_not_halted running, fetch, decode_encode wf]
  rfl

/-! ## A refusal does not depend on bytes behind those read -/

/-- Once `parse` refuses, it refuses for the same reason when more bytes follow. -/
def FinalRefusal (parse : List Byte → Decoded) : Prop :=
  ∀ bs more why, parse bs = .refuse why → parse (bs ++ more) = .refuse why

namespace FinalRefusal

theorem ok (i : Instr) : FinalRefusal fun bs => .ok i bs := by
  intro bs more why h
  cases h

theorem refuse (why : BadEncoding) : FinalRefusal fun _ => .refuse why := fun _ _ _ h => h

theorem row {c : Prop} [Decidable c] {d e : List Byte → Decoded} (hd : FinalRefusal d) (he : FinalRefusal e) :
    FinalRefusal fun bs => if c then d bs else e bs := by
  by_cases h : c
  · simpa only [h, if_true] using hd
  · simpa only [h, if_false] using he

theorem onBW {z : Size} {k : SizeBW → List Byte → Decoded} (h : ∀ z, FinalRefusal (k z)) :
    FinalRefusal fun bs => onBW z fun z => k z bs := by
  cases z
  · exact h .b
  · exact h .w
  · exact refuse _

theorem onWL {z : Size} {k : SizeWL → List Byte → Decoded} (h : ∀ z, FinalRefusal (k z)) :
    FinalRefusal fun bs => onWL z fun z => k z bs := by
  cases z
  · exact refuse _
  · exact h .w
  · exact h .l

theorem onOnly {want z : Size} {d : List Byte → Decoded} (h : FinalRefusal d) : FinalRefusal fun bs => onOnly want z (d bs) :=
  row h (refuse _)

theorem onDividendCode {z : SizeBW} {R : BitVec 3} {d : List Byte → Decoded} (h : FinalRefusal d) :
    FinalRefusal fun bs => onDividendCode z R (d bs) := row h (refuse _)

theorem onDividend {z : SizeBW} {r : RSel} {d : List Byte → Decoded} (h : FinalRefusal d) :
    FinalRefusal fun bs => onDividend z r (d bs) := by
  refine row h ?_
  cases r <;> exact refuse _

theorem onPointer {m : Mem} {k : BitVec 3 → List Byte → Decoded} (h : ∀ R, FinalRefusal (k R)) :
    FinalRefusal fun bs => onPointer m fun R => k R bs := by
  cases m with
  | ind R => exact h R
  | _ => exact refuse _

theorem withByte {k : Byte → List Byte → Decoded} (h : ∀ b, FinalRefusal (k b)) : FinalRefusal fun bs => withByte bs k := by
  intro bs more why hr
  cases bs with
  | nil => cases hr
  | cons b bs => exact h b bs more why hr

theorem withTwo {k : BitVec 16 → List Byte → Decoded} (h : ∀ v, FinalRefusal (k v)) : FinalRefusal fun bs => withTwo bs k :=
  withByte fun _ => withByte fun _ => h _

theorem withThree {k : BitVec 24 → List Byte → Decoded} (h : ∀ v, FinalRefusal (k v)) :
    FinalRefusal fun bs => withThree bs k := withByte fun _ => withByte fun _ => withByte fun _ => h _

theorem withFour {k : BitVec 32 → List Byte → Decoded} (h : ∀ v, FinalRefusal (k v)) :
    FinalRefusal fun bs => withFour bs k := withByte fun _ => withByte fun _ => withByte fun _ => withByte fun _ => h _

theorem withImm {z : Size} {k : Word32 → List Byte → Decoded} (h : ∀ v, FinalRefusal (k v)) :
    FinalRefusal fun bs => withImm z bs k := by
  cases z
  · exact withByte fun v => h _
  · exact withTwo fun v => h _
  · exact withFour h

theorem withNum4 {k : BitVec 4 → List Byte → Decoded} (h : ∀ n, FinalRefusal (k n)) : FinalRefusal fun bs => withNum4 bs k :=
  withByte fun _ => row (h _) (refuse _)

theorem withRow {c : BitVec 6} {k : LongReg → List Byte → Decoded} (h : ∀ r, FinalRefusal (k r)) :
    FinalRefusal fun bs => withRow c fun r => k r bs := by
  unfold Sys2Proof.withRow
  cases longRegOfCode6 c with
  | some r => exact h r
  | none => exact refuse _

theorem withRegCode {z : Size} {k : RegCode → List Byte → Decoded} (h : ∀ c, FinalRefusal (k c)) :
    FinalRefusal fun bs => withRegCode z bs k := withByte fun _ => withRow fun _ => row (h _) (refuse _)

theorem withLongReg {k : LongReg → List Byte → Decoded} (h : ∀ r, FinalRefusal (k r)) :
    FinalRefusal fun bs => withLongReg bs k := withRegCode fun c => h c.row

theorem withStepped {k : LongReg → StepCode → List Byte → Decoded} (h : ∀ r st, FinalRefusal (k r st)) :
    FinalRefusal fun bs => withStepped bs k := by
  refine withByte fun b => withRow fun r => ?_
  cases stepOfCode (lo2 b) with
  | some st => exact h r st
  | none => exact refuse _

theorem withRegMode {k : Mem → List Byte → Decoded} (h : ∀ m, FinalRefusal (k m)) : FinalRefusal fun bs => withRegMode bs k :=
  withByte fun _ => row (withRow fun _ => h _) <| row (withRow fun _ => withTwo fun _ => h _) <|
    row (withLongReg fun _ => withRegCode fun _ => h _) <| row (withLongReg fun _ => withRegCode fun _ => h _) (refuse _)

theorem withMode {b : Byte} {k : Mem → List Byte → Decoded} (h : ∀ m, FinalRefusal (k m)) :
    FinalRefusal fun bs => withMode b bs k :=
  row (row (h _) (withByte fun _ => h _)) <| row (withByte fun _ => h _) <| row (withTwo fun _ => h _) <|
    row (withThree fun _ => h _) <| row (withRegMode h) <| row (withStepped fun _ _ => h _) <|
    row (withStepped fun _ _ => h _) (refuse _)

/-- The rows of R82, in the order of the map. -/
theorem regOp (z : Size) (r : RSel) (op : Byte) : FinalRefusal fun bs => decodeRegOp z r op bs :=
  row (onBW fun _ => ok _) <| row (onBW fun _ => onDividend (withImm fun _ => ok _)) <|
  row (onBW fun _ => onDividend (withImm fun _ => ok _)) <| row (onOnly (ok _)) <| row (onOnly (ok _)) <| row (onOnly (ok _)) <|
  row (onWL fun _ => ok _) <| row (onWL fun _ => ok _) <| row (onBW fun _ => withByte fun _ => ok _) <|
  row (onBW fun _ => withNum4 fun _ => ok _) <| row (onBW fun _ => ok _) <| row (onBW fun _ => withNum4 fun _ => ok _) <|
  row (onBW fun _ => withNum4 fun _ => ok _) <| row (onBW fun _ => onDividendCode (ok _)) <|
  row (onBW fun _ => onDividendCode (ok _)) <| row (ok _) <| row (ok _) <| row (ok _) <| row (onBW fun _ => ok _) <|
  row (ok _) <| row (withImm fun _ => ok _) <| row (withImm fun _ => ok _) <| row (withImm fun _ => ok _) <|
  row (withImm fun _ => ok _) <| row (onBW fun _ => ok _) <| row (ok _) (refuse _)

/-- The rows of R83, in the order of the map. -/
theorem srcOp (z : Size) (m : Mem) (op : Byte) : FinalRefusal fun bs => decodeSrcOp z m op bs :=
  row (onPointer fun _ => onBW fun _ => ok _) <| row (onPointer fun _ => onBW fun _ => ok _) <|
  row (onPointer fun _ => onBW fun _ => ok _) <| row (onPointer fun _ => onBW fun _ => ok _) <| row (onBW fun _ => ok _) <|
  row (onBW fun _ => withImm fun _ => ok _) <| row (onBW fun _ => withImm fun _ => ok _) <|
  row (onBW fun _ => withImm fun _ => ok _) <| row (onBW fun _ => withImm fun _ => ok _) <|
  row (onBW fun _ => onDividendCode (ok _)) <| row (onBW fun _ => onDividendCode (ok _)) <| row (onBW fun _ => ok _) <|
  row (ok _) <| row (ok _) <| row (ok _) <| row (ok _) <| row (ok _) <| row (ok _) <| row (ok _) <| row (ok _) (refuse _)

/-- The rows of R84, in the order of the map. -/
theorem dstOp (m : Mem) (op : Byte) : FinalRefusal fun bs => decodeDstOp m op bs :=
  row (ok _) <| row (ok _) <| row (ok _) <| row (ok _) <| row (ok _) (refuse _)

/-- The rows of R81 with bit 7 clear. -/
theorem fixed (b : Byte) : FinalRefusal fun bs => decodeFixed b bs :=
  row (withByte fun _ => row (row (ok _) (ok _)) (refuse _)) <| row (ok _) <| row (ok _) <| row (ok _) <|
    row (withTwo fun _ => ok _) <| row (withThree fun _ => ok _) <| row (withTwo fun _ => ok _) (refuse _)

theorem regForm (z : Size) (b : Byte) : FinalRefusal fun bs => decodeRegForm z b bs :=
  row (withByte fun op => regOp z _ op) (withRegCode fun _ => withByte fun op => regOp z _ op)

theorem memForm (xx : BitVec 2) (m : Mem) : FinalRefusal (readOp xx m) := by
  unfold readOp
  refine withByte fun op => ?_
  cases sizeOfCode xx with
  | some z => exact srcOp z m op
  | none => exact dstOp m op

theorem decode : FinalRefusal decode := by
  refine withByte fun b => row (fixed b) (row ?_ (withMode fun m => memForm (sizeField b) m))
  cases sizeOfCode (sizeField b) with
  | some z => exact regForm z b
  | none => exact refuse _

end FinalRefusal

/-- The decoder cannot tell an instruction from a proper beginning of its encoding: were the beginning an instruction, the whole would
be that one with more bytes left over; were it refused, so would the whole be. -/
theorem decode_beginning {i : Instr} {p q : List Byte} (h : i.wf = true) (he : p ++ q = encode i) (hq : q ≠ []) :
    decode p = .truncated := by
  have whole : decode (p ++ q) = .ok i [] := by
    rw [he]
    simpa using decode_encode h []
  cases hp : decode p with
  | ok i' rest =>
    obtain ⟨wf', hp'⟩ := decode_sound p i' rest hp
    rw [hp', List.append_assoc, decode_encode wf'] at whole
    obtain ⟨-, left⟩ := Decoded.ok.inj whole
    exact absurd (List.append_eq_nil_iff.1 left).2 hq
  | truncated => rfl
  | refuse why =>
    rw [FinalRefusal.decode p q why hp] at whole
    cases whole

/-! ## Running out of TEXT -/

theorem fetchFrom_stop {s : State} {i : Nat} (h : s.launch.isText (s.addr s.pc i) = false) (k : Nat) : s.fetchFrom i k = [] := by
  cases k with
  | zero => rfl
  | succ k => exact if_neg (by simp [h])

theorem step_truncated {s : State} (running : s.launch.haltPc ≠ some s.pc) (h : decode s.fetch = .truncated) :
    step s = .fault .fetchOutsideText := by
  rw [step_of_not_halted running, h]
  rfl

/-- Settles O10: the fetch ends where TEXT does, so that the decoder is given a proper beginning of the encoding. -/
theorem stepStopsAtTheEndAndOutsideText : Obligations.StepStopsAtTheEndAndOutsideText := by
  unfold Obligations.StepStopsAtTheEndAndOutsideText
  refine fun s => ⟨fun halted => ?_, fun running outside => ?_, fun i j wf running hj bytes outside => ?_⟩
  · exact if_pos (by simp [State.atHalt, halted])
  · have fetch : s.fetch = [] := fetchFrom_stop outside _
    exact step_truncated running (by rw [fetch]; rfl)
  · have length : ((encode i).take j).length = j := List.length_take_of_le hj.le
    have bound := (len_bounds i).2
    rw [← length_encode] at bound
    have held : s.HoldsAtPc ((encode i).take j) := by
      intro k b hk
      obtain ⟨hlt, -⟩ := List.getElem?_eq_some_iff.1 hk
      rw [length] at hlt
      rw [List.getElem?_take_of_lt hlt] at hk
      exact bytes k b hlt hk
    have fetch := fetch_eq_append held (by omega)
    rw [length, fetchFrom_stop outside, List.append_nil] at fetch
    have left : (encode i).drop j ≠ [] := by simpa using hj
    exact step_truncated running (by rw [fetch, decode_beginning wf (List.take_append_drop j _) left])

/-! ## The launch of a program (R241, R242) -/

/-- Loading a program keeps the invariant. -/
theorem loadProgram_inv {s : State} (h : s.Inv) (a : Word32) (bs : List Byte) : (s.loadProgram a bs).Inv := by
  obtain ⟨⟨wf, below⟩, rfp, launch⟩ := h
  exact ⟨⟨State.loadProgram_wf wf a bs, s.placeFrom_below a 0 bs below⟩, rfp, State.loadProgram_launch_wf launch a bs⟩

/-- No HALT_PC stands where a program was loaded. -/
theorem loadProgram_haltPc_ne (s : State) (a : Word32) (bs : List Byte) : (s.loadProgram a bs).launch.haltPc ≠ some a := by
  simp only [State.loadProgram]
  split
  · simp
  · assumption

/-- A fetch at an address of TEXT begins with the byte there. -/
theorem fetch_head {s : State} (h : s.launch.isText (s.addr s.pc 0) = true) :
    s.fetch.head? = some (s.byteAt (s.addr s.pc 0)) := by
  rw [State.fetch, Config.maxInstrBytes, State.fetchFrom, if_pos h]
  rfl

/-- Settles O11. -/
theorem launchOfAProgramIsWellFormed : Obligations.LaunchOfAProgramIsWellFormed := by
  unfold Obligations.LaunchOfAProgramIsWellFormed
  refine ⟨fun s bytes inv admitted nonempty => ?_, fun s expected launched => ?_⟩
  · have text := s.loadProgram_isText s.pc bytes (List.length_pos_iff.2 nonempty)
    refine ⟨loadProgram_inv inv s.pc bytes, State.loadProgram_textAdmitted admitted s.pc bytes, text, List.mem_singleton_self _, ?_⟩
    rintro h halt ⟨-, hmem⟩
    rw [List.mem_singleton.1 hmem] at halt
    exact loadProgram_haltPc_ne s s.pc bytes halt
  · obtain ⟨-, -, text, pc, halt⟩ := launched
    have running : s.launch.haltPc ≠ some s.pc := fun h => halt s.pc h ⟨text, pc⟩
    exact ⟨running, fetch_head text, step_of_not_halted running⟩

theorem length_tableBytes (n w : Nat) : (tableBytes n w).length = n := by
  induction n with
  | zero => rfl
  | succ n ih => rw [tableBytes, List.length_cons, ih]

theorem length_tableWindow {nbits : Nat} (h : nbits = 8 ∨ nbits = 16) (w : Nat) : (tableWindow nbits w).length = 7 := by
  rw [tableWindow, List.length_append, length_tableBytes, List.length_replicate, Config.maxInstrBytes]
  omega

/-- A program that fits the address space stands at pc after it is loaded there. -/
theorem loadProgram_holdsAtPc {s : State} (h : s.mem.wf = true) {bs : List Byte} (hl : bs.length ≤ s.launch.space) :
    (s.loadProgram s.pc bs).HoldsAtPc bs := by
  intro j b hb
  obtain ⟨hj, -⟩ := List.getElem?_eq_some_iff.1 hb
  refine ⟨s.loadProgram_isText s.pc bs hj, ?_⟩
  have byte := s.placeFrom_byte s.pc 0 bs h (by omega) hb
  rwa [Nat.zero_add] at byte

/-- Settles O12: the window's seven bytes are all that is fetched. -/
theorem placedWordIsTheNextInstruction : Obligations.PlacedWordIsTheNextInstruction := by
  unfold Obligations.PlacedWordIsTheNextInstruction
  rintro s nbits w ⟨wf, bits⟩ hn
  have length := length_tableWindow hn w
  have space : 2 ^ 24 ≤ s.launch.space := Nat.pow_le_pow_right (by decide) bits
  have held : (s.withFetchWord nbits w).HoldsAtPc (tableWindow nbits w) := loadProgram_holdsAtPc wf (by omega)
  have fetch := fetch_eq_append held length.le
  rw [length, State.fetchFrom, List.append_nil] at fetch
  have running : (s.withFetchWord nbits w).launch.haltPc ≠ some s.pc := loadProgram_haltPc_ne s s.pc _
  rw [step_of_not_halted running, fetch]

end Sys2Proof.Machine

/-! PROOF. Registers, effective addresses and memory (spec/10_state.md section 1, spec/20_memory.md sections 1 and 2,
spec/30_encoding.md section 3). -/

namespace Sys2Proof.Machine

/-! ## Register codes and registers (R20 to R24, R38) -/

theorem toByte_shortCode (c : BitVec 3) :
    some (shortCode .b c).toByte = [0xE1#8, 0xE0#8, 0xE5#8, 0xE4#8, 0xE9#8, 0xE8#8, 0xED#8, 0xEC#8][c.toNat]?
      ∧ some (shortCode .w c).toByte = [0xE0#8, 0xE4#8, 0xE8#8, 0xEC#8, 0xF0#8, 0xF4#8, 0xF8#8, 0xFC#8][c.toNat]? := by
  revert c; decide

theorem toByte_rows (b q o : BitVec 2) :
    (RegCode.toByte ⟨.bank b q, o⟩).toNat = 16 * b.toNat + 4 * q.toNat + o.toNat
      ∧ (RegCode.toByte ⟨.prev q, o⟩).toNat = 0xD0 + 4 * q.toNat + o.toNat
      ∧ (RegCode.toByte ⟨.cur q, o⟩).toNat = 0xE0 + 4 * q.toNat + o.toNat
      ∧ (RegCode.toByte ⟨.idx q, o⟩).toNat = 0xF0 + 4 * q.toNat + o.toNat := by
  revert b q o; decide

theorem toNat_curBank (rfp : BitVec 3) : (curBank rfp).toNat = rfp.toNat % 4 := BitVec.toNat_setWidth 2 rfp

theorem toNat_prevBank (rfp : BitVec 3) : (prevBank rfp).toNat = (rfp.toNat + 3) % 4 := by
  revert rfp; decide

/-- Settles O19: the codes are finitely many; the storage of a banked row goes through the number of the bank. -/
theorem registerCodesNameTheirRegisters : Obligations.RegisterCodesNameTheirRegisters := by
  unfold Obligations.RegisterCodesNameTheirRegisters
  refine ⟨fun c => ⟨(toByte_shortCode c).1, (toByte_shortCode c).2, rfl⟩, toByte_rows, fun s b q => ⟨rfl, ?_, ?_, rfl⟩⟩
  · show 4 * (curBank s.rfp).toNat + q.toNat = _
    rw [toNat_curBank]
  · show 4 * (prevBank s.rfp).toNat + q.toNat = _
    rw [toNat_prevBank]

/-- A byte of a register is a byte of its row. -/
theorem byte_readReg (s : State) (n : Nat) (k : RegCode) {j : Nat} (hj : 8 * j + 8 ≤ n) :
    (s.readReg n k).extractLsb' (8 * j) 8 = (s.long k.row).extractLsb' (8 * (k.off.toNat + j)) 8 := by
  apply BitVec.eq_of_getLsbD_eq
  intro i hi
  have inside : 8 * j + i < n := by omega
  simp [State.readReg, fieldGet, inside, Nat.mul_add, Nat.add_assoc]

/-- Writing back what a register holds changes no register. -/
theorem writeReg_readReg_kept (s : State) (n : Nat) (k : RegCode) : RegsKept s (s.writeReg k (s.readReg n k)) := by
  intro i
  rw [State.writeReg, State.readReg, fieldPut_fieldGet, State.setLong_get]
  split
  · rename_i h
    subst h
    rfl
  · rfl

theorem bits_eq_bytes (z : Size) : z.bits = 8 * z.bytes := by cases z <;> rfl

/-- Settles O20. -/
theorem registerWriteChangesOnlyItsBytes : Obligations.RegisterWriteChangesOnlyItsBytes := by
  unfold Obligations.RegisterWriteChangesOnlyItsBytes
  intro s z k v hk
  refine ⟨fun j hj => byte_readReg s _ k ?_, s.readReg_writeReg k v (codeFits_of_aligned hk),
    RegsKeptBut.of_writeReg s k v (Size.bits_mod z), writeReg_readReg_kept s _ k⟩
  rw [bits_eq_bytes]
  omega

/-! ## Effective addresses (R75, R76) -/

/-- A sum with a sign-extended number, modulo 2^32. -/
theorem toNat_add_signExtend (x : Word32) {n : Nat} (d : BitVec n) (hn : n ≤ 32) :
    ((x + d.signExtend 32).toNat : Int) = (x.toNat + d.toInt) % 2 ^ 32 := by
  have hd : (d.signExtend 32).toInt = d.toInt := BitVec.toInt_signExtend_of_le hn
  rw [← hd, BitVec.toInt_eq_toNat_cond, BitVec.toNat_add]
  split <;> omega

theorem toNat_sub_amount (x : Word32) (st : StepCode) :
    ((x - BitVec.ofNat 32 st.amount).toNat : Int) = (x.toNat - st.amount) % 2 ^ 32 := by
  have := x.isLt
  cases st <;> simp only [StepCode.amount, BitVec.toNat_sub, BitVec.toNat_ofNat] <;> omega

/-- The bytes of the modes that modify their register, with the code of the step. -/
theorem memBytes_stepped (xx : BitVec 2) (r : LongReg) (p : StepCode × BitVec 2)
    (hp : p ∈ [(StepCode.by1, 0b00#2), (.by2, 0b01#2), (.by4, 0b10#2)]) :
    Mem.bytes xx (.preDec r p.1) = [0b11#2 ++ xx ++ 0x4#4, r.code6 ++ p.2]
      ∧ Mem.bytes xx (.postInc r p.1) = [0b11#2 ++ xx ++ 0x5#4, r.code6 ++ p.2] := by
  simp only [List.mem_cons, List.not_mem_nil, or_false] at hp
  rcases hp with rfl | rfl | rfl <;> exact ⟨rfl, rfl⟩

/-- Settles O22. -/
theorem effectiveAddressesAreExactSums : Obligations.EffectiveAddressesAreExactSums := by
  unfold Obligations.EffectiveAddressesAreExactSums
  intro s R r k st a8 a16 a24
  have widen {n : Nat} (a : BitVec n) (hn : n ≤ 32) : (a.setWidth 32).toNat = a.toNat := BitVec.toNat_setWidth_of_le hn
  exact ⟨rfl, toNat_add_signExtend _ a8 (by decide), widen a8 (by decide), widen a16 (by decide), widen a24 (by decide), rfl,
    toNat_add_signExtend _ a16 (by decide), toNat_add_signExtend _ _ (by decide), toNat_add_signExtend _ _ (by decide),
    toNat_sub_amount _ st, rfl, ⟨rfl, rfl, rfl⟩, fun xx p hp => memBytes_stepped xx r p hp⟩

/-! ## Memory (R50 to R53, R62) -/

/-- What is loaded, from the bytes that stand in memory. -/
theorem loadLE_of_bytes (s : State) (a : Word32) (i k w : Nat)
    (h : ∀ j, j < k → s.byteAt (s.addr a (i + j)) = BitVec.ofNat 8 (w / 256 ^ j)) : s.loadLE a i k = w % 256 ^ k := by
  induction k generalizing i w with
  | zero => simp [State.loadLE, Nat.mod_one]
  | succ k ih =>
    have first : s.byteAt (s.addr a i) = BitVec.ofNat 8 w := by simpa using h 0 (Nat.succ_pos k)
    have rest : s.loadLE a (i + 1) k = w / 256 % 256 ^ k := by
      refine ih (i + 1) (w / 256) fun j hj => ?_
      rw [show i + 1 + j = i + (j + 1) by omega, h (j + 1) (by omega), Nat.pow_succ', Nat.div_div_eq_div_mul]
    have split : 256 ^ (k + 1) = 256 * 256 ^ k := Nat.pow_succ'
    rw [State.loadLE, first, rest, BitVec.toNat_ofNat, split, Nat.mod_mul]

/-- A read gives the value whose bytes stand there. -/
theorem memRead_of_stored {s t : State} {z : Size} {a : Word32} {v : BitVec z.bits} (hl : t.launch = s.launch)
    (ha : s.admits a (z.bits / 8) = true) (hv : Stored a v s t) : t.memRead z.bits a = .next v := by
  refine memRead_eq_next.2 ⟨(State.admits_congr hl a _).trans ha, ?_⟩
  have load : t.loadLE a 0 (z.bits / 8) = v.toNat % 256 ^ (z.bits / 8) := by
    refine loadLE_of_bytes t a 0 _ v.toNat fun j hj => ?_
    rw [Nat.zero_add, State.addr_congr hl, hv j hj, byte_of_div]
  have width : 256 ^ (z.bits / 8) = 2 ^ z.bits := by cases z <;> rfl
  rw [load, width, Nat.mod_eq_of_lt v.isLt, BitVec.ofNat_toNat, BitVec.setWidth_eq]

/-- Settles O23. -/
theorem memoryReadsBackWhatWasWritten : Obligations.MemoryReadsBackWhatWasWritten := by
  unfold Obligations.MemoryReadsBackWhatWasWritten
  intro s z a v ok writable
  rw [← Size.bits_div] at writable ⊢
  obtain ⟨m', wrote, stored, kept⟩ := memWrite_spec a v ok writable (Size.bytes_le z)
  exact ⟨_, wrote, memRead_of_stored rfl writable.1 stored, stored, kept⟩

theorem admits_eq_false {s : State} {a : Word32} {k i : Nat} (hi : i < k) (h : s.launch.admits (s.addr a i) = false) :
    s.admits a k = false := List.all_eq_false.2 ⟨i, List.mem_range.2 hi, by simp [h]⟩

/-- Settles O24. -/
theorem memoryAccessStopsWhereTheLaunchSaysSo : Obligations.MemoryAccessStopsWhereTheLaunchSaysSo := by
  unfold Obligations.MemoryAccessStopsWhereTheLaunchSaysSo
  intro s z a v
  rw [← Size.bits_div]
  refine ⟨fun ⟨i, hi, h⟩ => ?_, fun admitted ⟨i, hi, h⟩ => ?_⟩
  · have notAll := admits_eq_false hi h
    exact ⟨if_neg (by simp [notAll]), if_neg (by simp [notAll])⟩
  · have all : s.admits a (z.bits / 8) = true := List.all_eq_true.2 fun j hj => admitted j (List.mem_range.1 hj)
    have touches : s.touchesText a (z.bits / 8) = true := List.any_eq_true.2 ⟨i, List.mem_range.2 hi, h⟩
    rw [State.memWrite, if_pos all, if_pos touches]

end Sys2Proof.Machine

/-! PROOF. ADD, ADC, AND and CP in every shape (spec/42_arithmetic.md, spec/43_logical.md rules R170 to R174): what each operation gives,
and one lemma for each shape, whatever the operation. -/

namespace Sys2Proof.Machine

/-! ## What an operation gives -/

/-- On `a`, `b` and the state `t` the operation gives `res`, sets flags of which `say` holds, and draws perhaps. -/
def AluGives (alu : AluOp) {z : Size} (a b : BitVec z.bits) (t : State) (res : BitVec z.bits) (say : Flags → Prop) : Prop :=
  ∃ f d, alu z.bits a b t = (res, t.flagged f d) ∧ say f

section Gives

/- `t` is the state an operation works on: the state `s` before the instruction, or `s` after a pre-decrement. -/
variable {z : Size} (a b : BitVec z.bits) {s t : State} (h : t.f = s.f)
include h

theorem aluAdc_gives :
    AluGives aluAdc a b t (a + b + carryIn z.bits s) (AddFlagsSay z a b (a + b + carryIn z.bits s) s.f.c s.f) := by
  obtain ⟨u, d, e⟩ := aluAdc_eq z.bits a b t
  rw [h] at e
  exact ⟨_, d, e, addFlags_say z a b s.f.c u s.f⟩

theorem aluAdd_gives : AluGives aluAdd a b t (a + b) (AddFlagsSay z a b (a + b) false s.f) := by
  obtain ⟨u, d, e⟩ := aluAdd_eq z.bits a b t
  rw [h] at e
  have say := addFlags_say z a b false u s.f
  rw [show BitVec.ofNat z.bits false.toNat = 0#z.bits from rfl, BitVec.add_zero] at say
  exact ⟨_, d, e, say⟩

theorem aluAnd_gives : AluGives aluAnd a b t (a &&& b) (AndFlagsSay z (a &&& b) s.f) := by
  obtain ⟨u, d, e⟩ := aluAnd_eq z.bits a b t
  rw [h] at e
  exact ⟨_, d, e, andFlags_say z _ u s.f⟩

theorem aluSub_gives :
    AluGives aluSub a b t (a - b) fun g => SubFlagsSay z a b s.f g ∧ (g.c = true ↔ a.toNat < b.toNat) := by
  obtain ⟨u, d, e⟩ := aluSub_eq z.bits a b t
  rw [h, subRes_eq] at e
  exact ⟨_, d, e, subFlags_say z a b u s.f⟩

end Gives

/-! ## The shapes of R150, for any operation -/

section Shapes

variable {alu : AluOp} {i : Instr} {s : State} {m : Mem} {R : BitVec 3} {r : RSel} {imm : Word32} {say : Flags → Prop}

theorem shapeRr_gives {z : Size} {res : BitVec z.bits}
    (ha : AluGives alu (s.readReg z.bits (shortCode z R)) (s.readReg z.bits (selCode z r)) s res say) :
    ∃ t, finish i.len (shapeRr alu z R r s) = .next t ∧ WroteReg i (shortCode z R) res s t ∧ say t.f := by
  obtain ⟨f, d, e, hf⟩ := ha
  obtain ⟨t, ht, wrote, rfl⟩ := shapeRr_spec (i := i) e
  exact ⟨t, ht, wrote, hf⟩

theorem shapeRi_gives {z : Size} {res : BitVec z.bits} (hr : r.wf z = true)
    (ha : AluGives alu (s.readReg z.bits (selCode z r)) (imm.setWidth z.bits) s res say) :
    ∃ t, finish i.len (shapeRi alu z r imm s) = .next t ∧ WroteReg i (selCode z r) res s t ∧ say t.f := by
  obtain ⟨f, d, e, hf⟩ := ha
  obtain ⟨t, ht, wrote, rfl⟩ := shapeRi_spec (i := i) hr e
  exact ⟨t, ht, wrote, hf⟩

theorem shapeRm_gives {z : Size} {b res : BitVec z.bits} (hc : NoClash s m [shortCode z R])
    (hb : s.memRead z.bits (Mem.ea s m) = .next b)
    (ha : AluGives alu (s.readReg z.bits (shortCode z R)) b (Mem.before s m) res say) :
    ∃ t, finish i.len (shapeRm alu z R m s) = .next t ∧ WroteRegVia m i (shortCode z R) res s t ∧ say t.f := by
  obtain ⟨f, d, e, hf⟩ := ha
  obtain ⟨t, ht, wrote, rfl⟩ := shapeRm_spec (i := i) hc hb e
  exact ⟨t, ht, wrote, hf⟩

theorem shapeMr_gives {z : Size} {a res : BitVec z.bits} (ok : s.storeOk) (hc : NoClash s m [shortCode z R])
    (hb : s.memRead z.bits (Mem.ea s m) = .next a) (hw : s.writable (Mem.ea s m) z.bytes)
    (ha : AluGives alu a (s.readReg z.bits (shortCode z R)) (Mem.before s m) res say) :
    ∃ t, finish i.len (shapeMr alu z m R s) = .next t ∧ WroteMem m i res s t ∧ say t.f := by
  obtain ⟨f, d, e, hf⟩ := ha
  obtain ⟨t, ht, wrote, rfl⟩ := shapeMr_spec (i := i) ok hc hb hw e
  exact ⟨t, ht, wrote, hf⟩

theorem shapeMi_gives {z : Size} {a res : BitVec z.bits} (ok : s.storeOk) (hb : s.memRead z.bits (Mem.ea s m) = .next a)
    (hw : s.writable (Mem.ea s m) z.bytes) (ha : AluGives alu a (imm.setWidth z.bits) (Mem.before s m) res say) :
    ∃ t, finish i.len (shapeMi alu z m imm s) = .next t ∧ WroteMem m i res s t ∧ say t.f := by
  obtain ⟨f, d, e, hf⟩ := ha
  obtain ⟨t, ht, wrote, rfl⟩ := shapeMi_spec (i := i) ok hb hw e
  exact ⟨t, ht, wrote, hf⟩

/-! ## Forms that write flags only -/

/-- A form with a memory operand that reads `n` bits and sets flags: CP, ANDCF, BIT. -/
theorem withMem_flags_spec {n : Nat} {v : BitVec n} {used : List RegCode} {set : BitVec n → State → State} {f : Flags} {d : Nat}
    (hc : NoClash s m used) (hv : s.memRead n (Mem.ea s m) = .next v)
    (hf : set v (Mem.before s m) = (Mem.before s m).flagged f d) :
    ∃ t, finish i.len (withMem m used s fun ea s => andThen (s.memRead n ea) fun v => .next (set v s)) = .next t
      ∧ WroteNothingVia m i s t ∧ t.f = f := by
  refine ⟨_, ?_, WroteNothingVia.of_flagged m i s f d, Mem.after_f _ _⟩
  rw [finish_eq_next]
  refine ⟨_, withMem_eq_next.2 ⟨hc, (Mem.before s m).flagged f d, ?_, rfl⟩, rfl⟩
  rw [State.memRead_before, hv, andThen_next, hf]

theorem compareRr_gives {z : Size} {res : BitVec z.bits}
    (ha : AluGives aluSub (s.readReg z.bits (shortCode z R)) (s.readReg z.bits (selCode z r)) s res say) :
    ∃ t, finish i.len (compareRr z R r s) = .next t ∧ WroteNothing i s t ∧ say t.f := by
  obtain ⟨f, d, e, hf⟩ := ha
  refine ⟨_, ?_, WroteNothing.of_flagged i s f d, hf⟩
  rw [compareRr, e, finish_next]

theorem compareRi_gives {z : Size} {res : BitVec z.bits}
    (ha : AluGives aluSub (s.readReg z.bits (selCode z r)) (imm.setWidth z.bits) s res say) :
    ∃ t, finish i.len (compareRi z r imm s) = .next t ∧ WroteNothing i s t ∧ say t.f := by
  obtain ⟨f, d, e, hf⟩ := ha
  refine ⟨_, ?_, WroteNothing.of_flagged i s f d, hf⟩
  rw [compareRi, e, finish_next]

theorem compareRm_gives {z : Size} {b res : BitVec z.bits} (hc : NoClash s m [shortCode z R])
    (hb : s.memRead z.bits (Mem.ea s m) = .next b)
    (ha : AluGives aluSub (s.readReg z.bits (shortCode z R)) b (Mem.before s m) res say) :
    ∃ t, finish i.len (compareRm z R m s) = .next t ∧ WroteNothingVia m i s t ∧ say t.f := by
  obtain ⟨f, d, e, hf⟩ := ha
  rw [← Mem.before_readReg _ (hc _ (by simp))] at e
  obtain ⟨t, ht, wrote, rfl⟩ := withMem_flags_spec (i := i)
    (set := fun b s => (aluSub z.bits (s.readReg z.bits (shortCode z R)) b s).2) hc hb (congrArg Prod.snd e)
  exact ⟨t, ht, wrote, hf⟩

theorem compareMr_gives {z : Size} {a res : BitVec z.bits} (hc : NoClash s m [shortCode z R])
    (hb : s.memRead z.bits (Mem.ea s m) = .next a)
    (ha : AluGives aluSub a (s.readReg z.bits (shortCode z R)) (Mem.before s m) res say) :
    ∃ t, finish i.len (compareMr z m R s) = .next t ∧ WroteNothingVia m i s t ∧ say t.f := by
  obtain ⟨f, d, e, hf⟩ := ha
  rw [← Mem.before_readReg _ (hc _ (by simp))] at e
  obtain ⟨t, ht, wrote, rfl⟩ := withMem_flags_spec (i := i)
    (set := fun a s => (aluSub z.bits a (s.readReg z.bits (shortCode z R)) s).2) hc hb (congrArg Prod.snd e)
  exact ⟨t, ht, wrote, hf⟩

theorem compareMi_gives {z : Size} {a res : BitVec z.bits} (hb : s.memRead z.bits (Mem.ea s m) = .next a)
    (ha : AluGives aluSub a (imm.setWidth z.bits) (Mem.before s m) res say) :
    ∃ t, finish i.len (compareMi z m imm s) = .next t ∧ WroteNothingVia m i s t ∧ say t.f := by
  obtain ⟨f, d, e, hf⟩ := ha
  obtain ⟨t, ht, wrote, rfl⟩ := withMem_flags_spec (i := i) (used := []) (set := fun a s => (aluSub z.bits a (imm.setWidth z.bits) s).2)
    (by simp [NoClash]) hb (congrArg Prod.snd e)
  exact ⟨t, ht, wrote, hf⟩

end Shapes

/-! ## The statements: an operation in a shape -/

/-- Settles O25. -/
theorem addToARegister : Obligations.AddToARegister := by
  unfold Obligations.AddToARegister
  exact ⟨fun z R r s => shapeRr_gives (i := .addRR z R r) (aluAdd_gives _ _ rfl),
    fun z r imm s hr => shapeRi_gives (i := .addRI z r imm) hr (aluAdd_gives _ _ rfl),
    fun z R m s b hc hb => shapeRm_gives (i := .addRM z R m) hc hb (aluAdd_gives _ _ (Mem.before_f s m))⟩

/-- Settles O26. -/
theorem addToMemory : Obligations.AddToMemory := by
  unfold Obligations.AddToMemory
  exact ⟨fun z m R s a ok hc ha hw => shapeMr_gives (i := .addMR z m R) ok hc ha hw (aluAdd_gives _ _ (Mem.before_f s m)),
    fun z m imm s a ok ha hw => shapeMi_gives (i := .addMI z m imm) ok ha hw (aluAdd_gives _ _ (Mem.before_f s m))⟩

/-- Settles O27. -/
theorem adcToARegister : Obligations.AdcToARegister := by
  unfold Obligations.AdcToARegister
  exact ⟨fun z R r s => shapeRr_gives (i := .adcRR z R r) (aluAdc_gives _ _ rfl),
    fun z r imm s hr => shapeRi_gives (i := .adcRI z r imm) hr (aluAdc_gives _ _ rfl),
    fun z R m s b hc hb => shapeRm_gives (i := .adcRM z R m) hc hb (aluAdc_gives _ _ (Mem.before_f s m))⟩

/-- Settles O28. -/
theorem adcToMemory : Obligations.AdcToMemory := by
  unfold Obligations.AdcToMemory
  exact ⟨fun z m R s a ok hc ha hw => shapeMr_gives (i := .adcMR z m R) ok hc ha hw (aluAdc_gives _ _ (Mem.before_f s m)),
    fun z m imm s a ok ha hw => shapeMi_gives (i := .adcMI z m imm) ok ha hw (aluAdc_gives _ _ (Mem.before_f s m))⟩

/-- Settles O29. -/
theorem andToARegister : Obligations.AndToARegister := by
  unfold Obligations.AndToARegister
  exact ⟨fun z R r s => shapeRr_gives (i := .andRR z R r) (aluAnd_gives _ _ rfl),
    fun z r imm s hr => shapeRi_gives (i := .andRI z r imm) hr (aluAnd_gives _ _ rfl),
    fun z R m s b hc hb => shapeRm_gives (i := .andRM z R m) hc hb (aluAnd_gives _ _ (Mem.before_f s m))⟩

/-- Settles O30. -/
theorem andToMemory : Obligations.AndToMemory := by
  unfold Obligations.AndToMemory
  exact ⟨fun z m R s a ok hc ha hw => shapeMr_gives (i := .andMR z m R) ok hc ha hw (aluAnd_gives _ _ (Mem.before_f s m)),
    fun z m imm s a ok ha hw => shapeMi_gives (i := .andMI z m imm) ok ha hw (aluAnd_gives _ _ (Mem.before_f s m))⟩

/-- The number of CP r,#3 keeps its value at every width (R131). -/
theorem setWidth_three (n : BitVec 3) (z : SizeBW) :
    (n.setWidth 32).setWidth z.bits = n.setWidth z.bits ∧ (n.setWidth z.bits).toNat = n.toNat := by
  revert n; cases z <;> decide

/-- Settles O31. -/
theorem compareRegistersWritesOnlyFlags : Obligations.CompareRegistersWritesOnlyFlags := by
  unfold Obligations.CompareRegistersWritesOnlyFlags
  refine ⟨fun z R r s => compareRr_gives (i := .cpRR z R r) (aluSub_gives _ _ rfl),
    fun z r imm s => compareRi_gives (i := .cpRI z r imm) (aluSub_gives _ _ rfl), fun z r n s => ?_⟩
  obtain ⟨width, value⟩ := setWidth_three n z
  have h := compareRi_gives (i := .cpRN z r n) (aluSub_gives (s.readReg z.bits (selCode z.size r))
    ((n.setWidth 32).setWidth z.bits) rfl)
  rw [width, value] at h
  exact h

/-- Settles O32. -/
theorem compareMemoryWritesOnlyFlags : Obligations.CompareMemoryWritesOnlyFlags := by
  unfold Obligations.CompareMemoryWritesOnlyFlags
  exact ⟨fun z R m s b hc hb => compareRm_gives (i := .cpRM z R m) hc hb (aluSub_gives _ _ (Mem.before_f s m)),
    fun z m R s a hc ha => compareMr_gives (i := .cpMR z m R) hc ha (aluSub_gives _ _ (Mem.before_f s m)),
    fun z m imm s a ha => compareMi_gives (i := .cpMI z m imm) ha (aluSub_gives _ _ (Mem.before_f s m))⟩

end Sys2Proof.Machine

/-! PROOF. DEC of memory, EXTZ, EXTS and DAA (spec/42_arithmetic.md rules R137 to R140). -/

namespace Sys2Proof.Machine

/-! ## DEC of memory (R137) -/

/-- A store at the effective address after new flags, whatever was read there. -/
theorem withMem_store_spec {n : Nat} {i : Instr} {m : Mem} {s : State} {a v : BitVec n} {f : Flags} {d : Nat}
    {store : Word32 → BitVec n → State → Result State} (ok : s.storeOk) (ha : s.memRead n (Mem.ea s m) = .next a)
    (hw : s.writable (Mem.ea s m) (n / 8)) (hn : n / 8 ≤ 2 ^ 24)
    (hs : store (Mem.ea s m) a (Mem.before s m) = ((Mem.before s m).flagged f d).memWrite (Mem.ea s m) v) :
    ∃ t, finish i.len (withMem m [] s fun ea s => andThen (s.memRead n ea) fun a => store ea a s) = .next t
      ∧ WroteMem m i v s t ∧ t.f = f := by
  obtain ⟨u, stored, wrote, hf⟩ := wroteMem_spec m i v s f d ok hw hn
  refine ⟨(Mem.after u m).advance i.len, ?_, wrote, (Mem.after_f u m).trans hf⟩
  rw [finish_eq_next]
  refine ⟨_, withMem_eq_next.2 ⟨by simp, u, ?_, rfl⟩, rfl⟩
  rw [State.memRead_before, ha, andThen_next, hs, stored]

/-- Settles O34: the decrement's difference is stored and its flags are set at both sizes. -/
theorem decrementMemory : Obligations.DecrementMemory := by
  unfold Obligations.DecrementMemory
  intro z n m s a ok ha hw
  rw [← Size.bits_div] at hw
  obtain ⟨t, ht, wrote, hf⟩ := withMem_store_spec (i := .decNM z n m) (v := a - decNumber z.bits n)
    (f := decFlags a (decNumber z.bits n) s.f) (d := s.draws)
    (store := fun ea a s => (s.setF (decFlags a (BitVec.ofNat z.bits (decAmount n)) s.f)).memWrite ea
      (subRes a (BitVec.ofNat z.bits (decAmount n)) false)) ok ha hw (Size.bytes_le z.size)
    (by simp only [ofNat_decAmount, subRes_eq, Mem.before_f, State.setF, State.flagged, Mem.before_draws])
  exact ⟨t, ht, wrote, hf ▸ decFlags_say z.size a _ s.f, hf ▸ decFlags_c a _ s.f⟩

/-! ## EXTZ, EXTS (R138, R139) -/

/-- One register written and pc moved on, with the flags as they were. -/
theorem WroteReg.of_writeReg {n : Nat} (i : Instr) (k : RegCode) (v : BitVec n) (s : State) (hn : n % 8 = 0)
    (hk : codeFits n k) : WroteReg i k v s ((s.writeReg k v).advance i.len) := WroteReg.of_flagged i k v s s.f s.draws hn hk

/-- Settles O35: the values are the zero- and sign-extended lower halves by the definitions of both. -/
theorem extendFillsTheUpperHalf : Obligations.ExtendFillsTheUpperHalf := by
  unfold Obligations.ExtendFillsTheUpperHalf
  intro z r s hr lower
  have fits := codeFits_of_aligned (selCode_aligned hr)
  have refused (r' : RSel) {op : Byte} (hop : op ∈ [0x12#8, 0x13#8]) : decode (r'.bytes .b ++ [op]) = .refuse .sizeNotListed := by
    rw [decode_regBytes (wf_byte r'), decodeRegOp_extend_marked r' [] hop]
  refine ⟨rfl, rfl, fun r' => ⟨refused r' (by simp), refused r' (by simp)⟩, ⟨_, rfl, rfl, ?_⟩, ⟨_, rfl, rfl, ?_⟩⟩
  · rw [BitVec.ofNat_toNat]
    exact WroteReg.of_writeReg (.extz z r) _ _ s (Size.bits_mod z.size) fits
  · exact WroteReg.of_writeReg (.exts z r) _ (lower.signExtend z.bits) s (Size.bits_mod z.size) fits

/-! ## DAA's table (R140) -/

/-- Two rows ask for different flags or for digits from ranges that do not meet. -/
def RowsApart (row row' : DaaRow) : Prop :=
  row.n ≠ row'.n ∨ row.c ≠ row'.c ∨ row.h ≠ row'.h ∨ row.hiMax < row'.hiMin ∨ row'.hiMax < row.hiMin
    ∨ row.loMax < row'.loMin ∨ row'.loMax < row.loMin

theorem daaTable_apart : ∀ row ∈ daaTable, ∀ row' ∈ daaTable, row = row' ∨ RowsApart row row' := by
  unfold RowsApart
  decide

theorem matches_iff {row : DaaRow} {f : Flags} {d : Byte} :
    row.matches f d = true ↔ row.n = f.n ∧ row.c = f.c ∧ row.h = f.h ∧ (row.hiMin ≤ d.toNat / 16 ∧ d.toNat / 16 ≤ row.hiMax)
      ∧ row.loMin ≤ d.toNat % 16 ∧ d.toNat % 16 ≤ row.loMax := by
  simp [DaaRow.matches, and_assoc]

/-- Rows that are apart match no byte and flags together. -/
theorem not_apart_of_matches {row row' : DaaRow} {f : Flags} {d : Byte} (h : row.matches f d = true)
    (h' : row'.matches f d = true) : ¬ RowsApart row row' := by
  obtain ⟨n, c, hh, hi, lo⟩ := matches_iff.1 h
  obtain ⟨n', c', hh', hi', lo'⟩ := matches_iff.1 h'
  rintro (e | e | e | e)
  · exact e (n.trans n'.symm)
  · exact e (c.trans c'.symm)
  · exact e (hh.trans hh'.symm)
  · omega

/-- Settles O36. -/
theorem daaRowsAreDisjoint : Obligations.DaaRowsAreDisjoint := by
  unfold Obligations.DaaRowsAreDisjoint
  intro f d row row' hrow hrow' hm hm'
  exact (daaTable_apart row hrow row' hrow').resolve_right (not_apart_of_matches hm hm')

/-- The row that DAA finds is the one that matches. -/
theorem daaRow_eq_some {f : Flags} {d : Byte} {row : DaaRow} (hrow : row ∈ daaTable) (hm : row.matches f d = true) :
    daaRow f d = some row := by
  cases hfound : daaRow f d with
  | none => exact absurd hm (by simpa using List.find?_eq_none.1 hfound row hrow)
  | some row' =>
    have same := daaRowsAreDisjoint f d row row' hrow (List.mem_of_find?_eq_some hfound) hm
      (by simpa using List.find?_some hfound)
    rw [same]

theorem daaRow_eq_none {f : Flags} {d : Byte} (h : ∀ row ∈ daaTable, row.matches f d = false) : daaRow f d = none :=
  List.find?_eq_none.2 fun row hrow => by simp [h row hrow]

/-! ## DAA -/

theorem codeFits_byte (r : RSel) : codeFits 8 (selCode .b r) := codeFits_of_aligned (z := .b) rfl

/-- DAA by a row of the table adds the row's value and sets the flags of the row. -/
theorem exec_daa_row (r : RSel) {s : State} {row : DaaRow} (hrow : row ∈ daaTable)
    (hm : row.matches s.f (s.readReg 8 (selCode .b r)) = true) :
    let d := s.readReg 8 (selCode .b r)
    ∃ t u, exec (.daa r) s = .next t ∧ WroteReg (.daa r) (selCode .b r) (d + row.added) s t ∧ t.f = daaFlags row d u s.f := by
  intro d
  obtain ⟨u, n, adjusted⟩ := daaAdjust_eq (selCode .b r) row d s
  refine ⟨_, u, ?_, WroteReg.of_flagged (.daa r) (selCode .b r) (d + row.added) s (daaFlags row d u s.f) n rfl
    (codeFits_byte r), rfl⟩
  show execDaa r s = _
  simp only [execDaa, daaRow_eq_some hrow hm, finish_next]
  rw [← adjusted]
  rfl

/-- Settles O37: by its row through `exec_daa_row`, off the table through `daaFree_eq`. -/
theorem decimalAdjust : Obligations.DecimalAdjust := by
  unfold Obligations.DecimalAdjust
  refine ⟨fun r s row hrow hm => ?_, fun r s off => ?_⟩
  · intro d
    obtain ⟨t, u, ht, wrote, hf⟩ := exec_daa_row r hrow hm
    rw [show s.readReg 8 (selCode .b r) = d from rfl] at hf
    refine ⟨t, ht, wrote, ?_⟩
    rw [hf]
    refine ⟨rfl, by simp [daaFlags], fun hn => by simp [daaFlags, hn], parityEven_iff _, rfl, rfl, rfl⟩
  · obtain ⟨v, f, d, free, hn, hrest⟩ := daaFree_eq (selCode .b r) s
    obtain ⟨_, regs, mem, system, moved⟩ := WroteReg.of_flagged (.daa r) (selCode .b r) v s f d rfl (codeFits_byte r)
    refine ⟨_, ?_, hn, hrest, regs, mem, system, moved⟩
    show execDaa r s = _
    simp only [execDaa, daaRow_eq_none off, finish_next, free]
    rfl

end Sys2Proof.Machine

/-! PROOF. DAA after an addition and after a subtraction (spec/42_arithmetic.md rule R140): for each size of the two digit sums or
differences the row of the table that corrects it. -/

namespace Sys2Proof.Machine

theorem toNat_bcd {x : Nat} (h : x < 100) : (bcd x).toNat = 16 * (x / 10) + x % 10 := by
  rw [bcd, BitVec.toNat_ofNat]
  omega

/-- The row matches the byte `d` under the flags `f` and turns it into the BCD byte of `v`. -/
def AdjustsTo (row : DaaRow) (f : Flags) (d : Byte) (v : Nat) : Prop :=
  row.matches f d = true ∧ d + row.added = bcd v

/-- What a row does, in digits: `dh` and `dl` are those of the byte, `vh` and `vl` those of the value. -/
theorem AdjustsTo.of_digits {row : DaaRow} {f : Flags} {d : Byte} {v : Nat} (dh dl vh vl added : Nat)
    (adds : row.added.toNat = added) (flags : f.n = row.n ∧ f.c = row.c ∧ f.h = row.h)
    (byte : d.toNat = 16 * dh + dl) (low : dl < 16)
    (range : (row.hiMin ≤ dh ∧ dh ≤ row.hiMax) ∧ row.loMin ≤ dl ∧ dl ≤ row.loMax) (value : v = 10 * vh + vl ∧ vl < 10 ∧ vh < 10)
    (sum : (16 * dh + dl + added) % 256 = 16 * vh + vl) : AdjustsTo row f d v := by
  obtain ⟨n, c, h⟩ := flags
  obtain ⟨hv, hvl, hvh⟩ := value
  refine ⟨matches_iff.2 ⟨n.symm, c.symm, h.symm, by omega, by omega⟩, BitVec.eq_of_toNat_eq ?_⟩
  rw [BitVec.toNat_add, toNat_bcd (by omega), byte, adds]
  omega

/-- The sum `16 * h + l` of two BCD bytes and a carry, with digit sums `h` and `l`, has a row (the rows with N = 0). -/
theorem exists_row_of_sum {h l : Nat} (hh : h ≤ 18) (hl : l ≤ 19) {f : Flags} {d : Byte} (hd : d.toNat = (16 * h + l) % 256)
    (fn : f.n = false) (carry : f.c = true ↔ 256 ≤ 16 * h + l) (half : f.h = true ↔ 16 ≤ l) :
    ∃ row ∈ daaTable, AdjustsTo row f d ((10 * h + l) % 100) ∧ (row.cAfter = true ↔ 100 ≤ 10 * h + l) := by
  rcases show l < 10 ∨ 10 ≤ l ∧ l < 16 ∨ 16 ≤ l by omega with low | low | low
  · have fh : f.h = false := Bool.eq_false_iff.2 fun e => absurd (half.1 e) (by omega)
    rcases show h < 10 ∨ 10 ≤ h ∧ h < 16 ∨ 16 ≤ h by omega with high | high | high
    · have fc : f.c = false := Bool.eq_false_iff.2 fun e => absurd (carry.1 e) (by omega)
      exact ⟨⟨false, false, 0x0, 0x9, false, 0x0, 0x9, 0x00#8, false⟩, by decide, .of_digits (h) (l) (h) (l) 0x00 rfl ⟨fn, fc, fh⟩
        (by omega) (by omega) (by dsimp only; omega) (by omega) (by omega), by simp; omega⟩
    · have fc : f.c = false := Bool.eq_false_iff.2 fun e => absurd (carry.1 e) (by omega)
      exact ⟨⟨false, false, 0xA, 0xF, false, 0x0, 0x9, 0x60#8, true⟩, by decide, .of_digits (h) (l) (h - 10) (l) 0x60 rfl ⟨fn, fc, fh⟩
        (by omega) (by omega) (by dsimp only; omega) (by omega) (by omega), by simp; omega⟩
    · have fc : f.c = true := carry.2 (by omega)
      exact ⟨⟨false, true, 0x0, 0x2, false, 0x0, 0x9, 0x60#8, true⟩, by decide, .of_digits (h - 16) (l) (h - 10) (l) 0x60 rfl ⟨fn, fc, fh⟩
        (by omega) (by omega) (by dsimp only; omega) (by omega) (by omega), by simp; omega⟩
  · have fh : f.h = false := Bool.eq_false_iff.2 fun e => absurd (half.1 e) (by omega)
    rcases show h < 9 ∨ 9 ≤ h ∧ h < 16 ∨ 16 ≤ h by omega with high | high | high
    · have fc : f.c = false := Bool.eq_false_iff.2 fun e => absurd (carry.1 e) (by omega)
      exact ⟨⟨false, false, 0x0, 0x8, false, 0xA, 0xF, 0x06#8, false⟩, by decide, .of_digits (h) (l) (h + 1) (l - 10) 0x06 rfl ⟨fn, fc, fh⟩
        (by omega) (by omega) (by dsimp only; omega) (by omega) (by omega), by simp; omega⟩
    · have fc : f.c = false := Bool.eq_false_iff.2 fun e => absurd (carry.1 e) (by omega)
      exact ⟨⟨false, false, 0x9, 0xF, false, 0xA, 0xF, 0x66#8, true⟩, by decide, .of_digits (h) (l) (h - 9) (l - 10) 0x66 rfl ⟨fn, fc, fh⟩
        (by omega) (by omega) (by dsimp only; omega) (by omega) (by omega), by simp; omega⟩
    · have fc : f.c = true := carry.2 (by omega)
      exact ⟨⟨false, true, 0x0, 0x2, false, 0xA, 0xF, 0x66#8, true⟩, by decide, .of_digits (h - 16) (l) (h - 9) (l - 10) 0x66 rfl ⟨fn, fc, fh⟩
        (by omega) (by omega) (by dsimp only; omega) (by omega) (by omega), by simp; omega⟩
  · have fh : f.h = true := half.2 (by omega)
    rcases show h < 9 ∨ 9 ≤ h ∧ h < 15 ∨ 15 ≤ h by omega with high | high | high
    · have fc : f.c = false := Bool.eq_false_iff.2 fun e => absurd (carry.1 e) (by omega)
      exact ⟨⟨false, false, 0x0, 0x9, true, 0x0, 0x3, 0x06#8, false⟩, by decide, .of_digits (h + 1) (l - 16) (h + 1) (l - 10) 0x06 rfl ⟨fn, fc, fh⟩
        (by omega) (by omega) (by dsimp only; omega) (by omega) (by omega), by simp; omega⟩
    · have fc : f.c = false := Bool.eq_false_iff.2 fun e => absurd (carry.1 e) (by omega)
      exact ⟨⟨false, false, 0xA, 0xF, true, 0x0, 0x3, 0x66#8, true⟩, by decide, .of_digits (h + 1) (l - 16) (h - 9) (l - 10) 0x66 rfl ⟨fn, fc, fh⟩
        (by omega) (by omega) (by dsimp only; omega) (by omega) (by omega), by simp; omega⟩
    · have fc : f.c = true := carry.2 (by omega)
      exact ⟨⟨false, true, 0x0, 0x3, true, 0x0, 0x3, 0x66#8, true⟩, by decide, .of_digits (h - 15) (l - 16) (h - 9) (l - 10) 0x66 rfl ⟨fn, fc, fh⟩
        (by omega) (by omega) (by dsimp only; omega) (by omega) (by omega), by simp; omega⟩

/-- The difference of two BCD bytes and a borrow has a row (the rows with N = 1), which keeps C. -/
theorem exists_row_of_difference {x y b : Nat} (hx : x < 100) (hy : y < 100) (hb : b ≤ 1) {f : Flags} {d : Byte}
    (hd : d.toNat = (512 + 16 * (x / 10) + x % 10 - (16 * (y / 10) + y % 10) - b) % 256) (fn : f.n = true)
    (carry : f.c = true ↔ x < y + b) (half : f.h = true ↔ x % 10 < y % 10 + b) :
    ∃ row ∈ daaTable, AdjustsTo row f d ((x + 100 - y - b) % 100) ∧ row.cAfter = f.c := by
  obtain ⟨xh, xl, hxl, rfl, ex⟩ : ∃ xh xl, xl < 10 ∧ x = 10 * xh + xl ∧ x / 10 = xh ∧ x % 10 = xl :=
    ⟨x / 10, x % 10, by omega, by omega, rfl, rfl⟩
  obtain ⟨yh, yl, hyl, rfl, ey⟩ : ∃ yh yl, yl < 10 ∧ y = 10 * yh + yl ∧ y / 10 = yh ∧ y % 10 = yl :=
    ⟨y / 10, y % 10, by omega, by omega, rfl, rfl⟩
  rw [ex.1, ex.2, ey.1, ey.2] at hd
  rw [ex.2, ey.2] at half
  rcases Nat.lt_or_ge xl (yl + b) with low | low
  · have fh : f.h = true := half.2 (by omega)
    rcases Nat.lt_or_ge yh xh with high | high
    · have fc : f.c = false := Bool.eq_false_iff.2 fun e => absurd (carry.1 e) (by omega)
      exact ⟨⟨true, false, 0x0, 0x8, true, 0x6, 0xF, 0xFA#8, false⟩, by decide, .of_digits (xh - yh - 1) (xl + 16 - yl - b) (xh - yh - 1) (xl + 10 - yl - b) 0xFA rfl ⟨fn, fc, fh⟩
        (by omega) (by omega) (by dsimp only; omega) (by omega) (by omega), fc.symm⟩
    · have fc : f.c = true := carry.2 (by omega)
      exact ⟨⟨true, true, 0x6, 0xF, true, 0x6, 0xF, 0x9A#8, true⟩, by decide, .of_digits (15 + xh - yh) (xl + 16 - yl - b) (9 + xh - yh) (xl + 10 - yl - b) 0x9A rfl ⟨fn, fc, fh⟩
        (by omega) (by omega) (by dsimp only; omega) (by omega) (by omega), fc.symm⟩
  · have fh : f.h = false := Bool.eq_false_iff.2 fun e => absurd (half.1 e) (by omega)
    rcases Nat.lt_or_ge xh yh with high | high
    · have fc : f.c = true := carry.2 (by omega)
      exact ⟨⟨true, true, 0x7, 0xF, false, 0x0, 0x9, 0xA0#8, true⟩, by decide, .of_digits (16 + xh - yh) (xl - yl - b) (10 + xh - yh) (xl - yl - b) 0xA0 rfl ⟨fn, fc, fh⟩
        (by omega) (by omega) (by dsimp only; omega) (by omega) (by omega), fc.symm⟩
    · have fc : f.c = false := Bool.eq_false_iff.2 fun e => absurd (carry.1 e) (by omega)
      exact ⟨⟨true, false, 0x0, 0x9, false, 0x0, 0x9, 0x00#8, false⟩, by decide, .of_digits (xh - yh) (xl - yl - b) (xh - yh) (xl - yl - b) 0x00 rfl ⟨fn, fc, fh⟩
        (by omega) (by omega) (by dsimp only; omega) (by omega) (by omega), fc.symm⟩

/-- DAA, where the table has a row that adjusts the register to the BCD byte of `v`. -/
theorem exec_daa_adjusts (r : RSel) {s : State} {row : DaaRow} {v : Nat} (hrow : row ∈ daaTable)
    (h : AdjustsTo row s.f (s.readReg 8 (selCode .b r)) v) :
    ∃ t u, exec (.daa r) s = .next t ∧ WroteReg (.daa r) (selCode .b r) (bcd v) s t
      ∧ t.f = daaFlags row (s.readReg 8 (selCode .b r)) u s.f := by
  obtain ⟨hm, value⟩ := h
  rw [← value]
  exact exec_daa_row r hrow hm

/-- DAA after the flags of an addition of two BCD bytes and a carry. -/
theorem exec_daa_of_sum (r : RSel) {s : State} {x y : Nat} {ci : Bool} (hx : x < 100) (hy : y < 100)
    (hreg : s.readReg 8 (selCode .b r) = bcd x + bcd y + BitVec.ofNat 8 ci.toNat)
    (hn : s.f.n = false) (half : s.f.h = true ↔ 16 ≤ (bcd x).toNat % 16 + (bcd y).toNat % 16 + ci.toNat)
    (carry : s.f.c = true ↔ 256 ≤ (bcd x).toNat + (bcd y).toNat + ci.toNat) :
    ∃ t, exec (.daa r) s = .next t ∧ t.readReg 8 (selCode .b r) = bcd ((x + y + ci.toNat) % 100)
      ∧ (t.f.c = true ↔ 100 ≤ x + y + ci.toNat) := by
  have hci : ci.toNat ≤ 1 := Bool.toNat_le ci
  have hd : (s.readReg 8 (selCode .b r)).toNat = (16 * (x / 10 + y / 10) + (x % 10 + y % 10 + ci.toNat)) % 256 := by
    rw [hreg, BitVec.toNat_add, BitVec.toNat_add, toNat_bcd hx, toNat_bcd hy, BitVec.toNat_ofNat]
    omega
  have total : 10 * (x / 10 + y / 10) + (x % 10 + y % 10 + ci.toNat) = x + y + ci.toNat := by omega
  have half : s.f.h = true ↔ 16 ≤ x % 10 + y % 10 + ci.toNat := by
    rw [half, toNat_bcd hx, toNat_bcd hy]
    omega
  have carry : s.f.c = true ↔ 256 ≤ 16 * (x / 10 + y / 10) + (x % 10 + y % 10 + ci.toNat) := by
    rw [carry, toNat_bcd hx, toNat_bcd hy]
    omega
  obtain ⟨row, hrow, adjusts, after⟩ := exists_row_of_sum (by omega) (by omega) hd hn carry half
  rw [total] at adjusts after
  obtain ⟨t, u, ht, ⟨read, -⟩, hf⟩ := exec_daa_adjusts r hrow adjusts
  exact ⟨t, ht, read, by rw [hf]; exact after⟩

/-- Settles O38: the sum and its flags are those of O25 and O27; then `exec_daa_of_sum`. -/
theorem addThenDaaAddsInDecimal : Obligations.AddThenDaaAddsInDecimal := by
  unfold Obligations.AddThenDaaAddsInDecimal
  intro r s x y hx hy hreg
  have imm : ((bcd y).setWidth 32).setWidth Size.b.bits = bcd y := by
    rw [BitVec.setWidth_setWidth_of_le _ (by decide)]
    exact BitVec.setWidth_eq _
  refine ⟨?add, ?adc⟩
  case add =>
    obtain ⟨-, addRI, -⟩ := addToARegister
    obtain ⟨t, ht, ⟨read, -⟩, -, -, half, -, hn, carry, -⟩ := addRI .b r ((bcd y).setWidth 32) s (wf_byte r)
    rw [imm, show s.readReg Size.b.bits (selCode .b r) = bcd x from hreg] at read half carry
    obtain ⟨u, hu, decimal, carry⟩ := exec_daa_of_sum (ci := false) r hx hy (read.trans (BitVec.add_zero _).symm) hn (half (by decide)) carry
    exact ⟨t, u, ht, hu, decimal, carry⟩
  case adc =>
    obtain ⟨-, adcRI, -⟩ := adcToARegister
    obtain ⟨t, ht, ⟨read, -⟩, -, -, half, -, hn, carry, -⟩ := adcRI .b r ((bcd y).setWidth 32) s (wf_byte r)
    rw [imm, show s.readReg Size.b.bits (selCode .b r) = bcd x from hreg] at read half carry
    obtain ⟨u, hu, decimal, carry⟩ := exec_daa_of_sum (ci := s.f.c) r hx hy read hn (half (by decide)) carry
    exact ⟨t, u, ht, hu, decimal, carry⟩

/-- Settles O39. -/
theorem daaAdjustsADecimalDifference : Obligations.DaaAdjustsADecimalDifference := by
  unfold Obligations.DaaAdjustsADecimalDifference
  intro r s x y b hx hy hreg hn carry half
  have hb : b.toNat ≤ 1 := Bool.toNat_le b
  have hd : (s.readReg 8 (selCode .b r)).toNat
      = (512 + 16 * (x / 10) + x % 10 - (16 * (y / 10) + y % 10) - b.toNat) % 256 := by
    rw [hreg, BitVec.toNat_sub, BitVec.toNat_sub, toNat_bcd hx, toNat_bcd hy, BitVec.toNat_ofNat]
    omega
  obtain ⟨row, hrow, adjusts, after⟩ := exists_row_of_difference hx hy hb hd hn carry half
  obtain ⟨t, u, ht, wrote, hf⟩ := exec_daa_adjusts r hrow adjusts
  exact ⟨t, ht, wrote, by rw [hf]; exact after, by rw [hf]; exact hn⟩

end Sys2Proof.Machine

/-! PROOF. DIV and DIVS (spec/42_arithmetic.md rules R141 to R149): the two quotients, what the three shapes leave unchanged, and the
statements as a quotient in a shape. -/

namespace Sys2Proof.Machine

/-! ## The quotients (R145, R146) -/

theorem udiv_eq_none {n : Nat} {D : BitVec (n + n)} {d : BitVec n} (h : ¬ UnsignedFits D d) : udiv D d = none := by
  unfold UnsignedFits at h
  exact if_pos (by omega)

/-- A number of `n` bits is the one it was made from. -/
theorem toInt_ofInt_of_fits {n : Nat} (hn : 0 < n) {x : Int} (lo : -(2 : Int) ^ (n - 1) ≤ x) (hi : x ≤ (2 : Int) ^ (n - 1) - 1) :
    (BitVec.ofInt n x).toInt = x := by
  obtain ⟨k, rfl⟩ := Nat.exists_eq_succ_of_ne_zero hn.ne'
  rw [BitVec.toInt_ofInt]
  simp only [Nat.succ_eq_add_one, Nat.add_sub_cancel] at lo hi
  have double : ((2 ^ (k + 1) : Nat) : Int) = 2 * 2 ^ k := by push_cast; ring
  apply Int.bmod_eq_of_le <;> rw [Nat.succ_eq_add_one, double] <;> omega

/-- A remainder is smaller than its divisor. -/
theorem tmod_fits {n : Nat} {D : Int} {d : BitVec n} (h0 : d.toInt ≠ 0) :
    -(2 : Int) ^ (n - 1) ≤ D.tmod d.toInt ∧ D.tmod d.toInt ≤ (2 : Int) ^ (n - 1) - 1 := by
  have hi := d.toInt_lt
  have lo := d.le_toInt
  have small : (D.tmod d.toInt).natAbs < d.toInt.natAbs := by
    rw [Int.natAbs_tmod]
    exact Nat.mod_lt _ (Int.natAbs_pos.2 h0)
  omega

theorem signedOverflow_eq_false_iff {n : Nat} {x : Int} :
    signedOverflow n x = false ↔ -(2 : Int) ^ (n - 1) ≤ x ∧ x ≤ (2 : Int) ^ (n - 1) - 1 := by
  simp [signedOverflow]

theorem sdiv_eq_none {n : Nat} {D : BitVec (n + n)} {d : BitVec n} (h : ¬ SignedFits D d) : sdiv D d = none := by
  refine if_pos ?_
  by_contra hn
  rw [not_or, Bool.not_eq_true, signedOverflow_eq_false_iff] at hn
  exact h hn

/-- Where the signed quotient fits, it is the lower half of the result and the remainder the upper half. -/
theorem sdiv_eq_some {n : Nat} (hn : 0 < n) {D : BitVec (n + n)} {d : BitVec n} (h : SignedFits D d) :
    ∃ w, sdiv D d = some w ∧ (w.extractLsb' 0 n).toInt = D.toInt.tdiv d.toInt
      ∧ (w.extractLsb' n n).toInt = D.toInt.tmod d.toInt := by
  obtain ⟨h0, lo, hi⟩ := h
  have fits := signedOverflow_eq_false_iff.2 ⟨lo, hi⟩
  refine ⟨_, if_neg (by simp [h0, fits]), ?_, ?_⟩
  · rw [BitVec.extractLsb'_append_eq_right, toInt_ofInt_of_fits hn lo hi]
  · have remainder : D.toInt - D.toInt.tdiv d.toInt * d.toInt = D.toInt.tmod d.toInt := by
      rw [Int.tmod_def, Int.mul_comm]
    obtain ⟨rlo, rhi⟩ := tmod_fits (D := D.toInt) h0
    rw [BitVec.extractLsb'_append_eq_left, remainder, toInt_ofInt_of_fits hn rlo rhi]

theorem bits_pos (z : SizeBW) : 0 < z.bits := by cases z <;> decide

/-! ## What a divide does, by its result -/

/-- The divide `i` completes, sets V where there is no result, writes a result to `k`, and leaves what `kept` says. -/
def Divides {n : Nat} (i : Instr) (k : RegCode) (res : Option (BitVec (n + n))) (kept : State → Prop) (s : State) : Prop :=
  ∃ t, exec i s = .next t ∧ t.f = { s.f with v := res.isNone } ∧ kept t ∧ ∀ w, res = some w → t.readReg (n + n) k = w

section Results

variable {n : Nat} {i : Instr} {k : RegCode} {D : BitVec (n + n)} {d : BitVec n} {kept : State → Prop} {s : State}

theorem Divides.unsigned (h : Divides i k (udiv D d) kept s) (fits : UnsignedFits D d) :
    ∃ t, exec i s = .next t ∧ DividedUnsigned k D d s t ∧ kept t := by
  obtain ⟨t, ht, hf, hk, read⟩ := h
  obtain ⟨w, hw, value⟩ := udiv_eq_some fits.1 fits.2
  rw [hw] at hf
  exact ⟨t, ht, ⟨by rw [read w hw, value], hf⟩, hk⟩

theorem Divides.signed (hn : 0 < n) (h : Divides i k (sdiv D d) kept s) (fits : SignedFits D d) :
    ∃ t, exec i s = .next t ∧ DividedSigned k D d s t ∧ kept t := by
  obtain ⟨t, ht, hf, hk, read⟩ := h
  obtain ⟨w, hw, quotient, remainder⟩ := sdiv_eq_some hn fits
  rw [hw] at hf
  exact ⟨t, ht, ⟨by rw [read w hw, quotient], by rw [read w hw, remainder], hf⟩, hk⟩

theorem Divides.error {res : Option (BitVec (n + n))} (h : Divides i k res kept s) (absent : res = none) :
    ∃ t, exec i s = .next t ∧ t.f = { s.f with v := true } ∧ kept t := by
  obtain ⟨t, ht, hf, hk, -⟩ := h
  rw [absent] at hf
  exact ⟨t, ht, hf, hk⟩

/-- A divide whose divisor is no memory operand. -/
theorem Divides.of_putDivision {res : Option (BitVec (n + n))}
    (he : exec i s = finish i.len (.next (putDivision k res s))) (hn : (n + n) % 8 = 0) (hk : codeFits (n + n) k) :
    Divides i k res (DivideKept n i k s) s := by
  obtain ⟨v, d, e, hv⟩ := putDivision_eq k res s
  obtain ⟨read, kept⟩ := WroteReg.of_flagged i k v s { s.f with v := res.isNone } d hn hk
  exact ⟨_, by rw [he, e, finish_next], rfl, kept, fun w hw => read.trans (hv w hw)⟩

/-- A divide with its divisor in memory. -/
theorem Divides.of_memory {m : Mem} {divide : BitVec (n + n) → BitVec n → Option (BitVec (n + n))}
    (he : exec i s = finish i.len (withMem m [k] s fun ea s => andThen (s.memRead n ea) fun d =>
      .next (putDivision k (divide (s.readReg (n + n) k) d) s)))
    (hn : (n + n) % 8 = 0) (hk : codeFits (n + n) k) (hc : NoClash s m [k]) (hd : s.memRead n (Mem.ea s m) = .next d) :
    Divides i k (divide (s.readReg (n + n) k) d) (DivideKeptVia m n i k s) s := by
  obtain ⟨v, c, e, hv⟩ := putDivision_eq k (divide (s.readReg (n + n) k) d) (Mem.before s m)
  rw [Mem.before_f] at e
  obtain ⟨read, kept⟩ := WroteRegVia.of_flagged m i k v s
    { s.f with v := (divide (s.readReg (n + n) k) d).isNone } c hn hk hc
  refine ⟨_, ?_, Mem.after_f _ m, kept, fun w hw => read.trans (hv w hw)⟩
  rw [he, finish_eq_next]
  refine ⟨_, withMem_eq_next.2 ⟨hc, _, ?_, rfl⟩, rfl⟩
  rw [State.memRead_before, hd, andThen_next, Mem.before_readReg _ (hc k (by simp)), e]

end Results

/-! ## The six forms -/

section Forms

variable {z : SizeBW} {R : BitVec 3} {s : State}

theorem divRR_divides (hR : dividendCodeOk z R = true) (r : RSel) (s : State) :
    Divides (.divRR z R r) (shortCode z.size R) (udiv (s.readReg (z.bits + z.bits) (shortCode z.size R))
      (s.readReg z.bits (selCode z.size r))) (DivideKept z.bits (.divRR z R r) (shortCode z.size R) s) s :=
  .of_putDivision rfl (SizeBW.bits_double_mod z) (codeFits_dividend_short hR)

theorem divsRR_divides (hR : dividendCodeOk z R = true) (r : RSel) (s : State) :
    Divides (.divsRR z R r) (shortCode z.size R) (sdiv (s.readReg (z.bits + z.bits) (shortCode z.size R))
      (s.readReg z.bits (selCode z.size r))) (DivideKept z.bits (.divsRR z R r) (shortCode z.size R) s) s :=
  .of_putDivision rfl (SizeBW.bits_double_mod z) (codeFits_dividend_short hR)

theorem divRI_divides {r : RSel} (hr : r.dividendOk z = true) (imm : Word32) (s : State) :
    Divides (.divRI z r imm) (selCode z.size r) (udiv (s.readReg (z.bits + z.bits) (selCode z.size r)) (imm.setWidth z.bits))
      (DivideKept z.bits (.divRI z r imm) (selCode z.size r) s) s :=
  .of_putDivision rfl (SizeBW.bits_double_mod z) (codeFits_dividend_sel hr)

theorem divsRI_divides {r : RSel} (hr : r.dividendOk z = true) (imm : Word32) (s : State) :
    Divides (.divsRI z r imm) (selCode z.size r) (sdiv (s.readReg (z.bits + z.bits) (selCode z.size r)) (imm.setWidth z.bits))
      (DivideKept z.bits (.divsRI z r imm) (selCode z.size r) s) s :=
  .of_putDivision rfl (SizeBW.bits_double_mod z) (codeFits_dividend_sel hr)

theorem divRM_divides {m : Mem} {d : BitVec z.bits} (hR : dividendCodeOk z R = true) (hc : NoClash s m [shortCode z.size R])
    (hd : s.memRead z.bits (Mem.ea s m) = .next d) :
    Divides (.divRM z R m) (shortCode z.size R) (udiv (s.readReg (z.bits + z.bits) (shortCode z.size R)) d)
      (DivideKeptVia m z.bits (.divRM z R m) (shortCode z.size R) s) s :=
  .of_memory rfl (SizeBW.bits_double_mod z) (codeFits_dividend_short hR) hc hd

theorem divsRM_divides {m : Mem} {d : BitVec z.bits} (hR : dividendCodeOk z R = true) (hc : NoClash s m [shortCode z.size R])
    (hd : s.memRead z.bits (Mem.ea s m) = .next d) :
    Divides (.divsRM z R m) (shortCode z.size R) (sdiv (s.readReg (z.bits + z.bits) (shortCode z.size R)) d)
      (DivideKeptVia m z.bits (.divsRM z R m) (shortCode z.size R) s) s :=
  .of_memory rfl (SizeBW.bits_double_mod z) (codeFits_dividend_short hR) hc hd

end Forms

/-- Settles O40. -/
theorem unsignedDivide : Obligations.UnsignedDivide := by
  unfold Obligations.UnsignedDivide
  exact ⟨fun z R r s hR fits => (divRR_divides hR r s).unsigned fits,
    fun z r imm s hr fits => (divRI_divides hr imm s).unsigned fits,
    fun z R m s d hR hc hd fits => (divRM_divides hR hc hd).unsigned fits⟩

/-- Settles O41. -/
theorem signedDivide : Obligations.SignedDivide := by
  unfold Obligations.SignedDivide
  exact ⟨fun z R r s hR fits => (divsRR_divides hR r s).signed (bits_pos z) fits,
    fun z r imm s hr fits => (divsRI_divides hr imm s).signed (bits_pos z) fits,
    fun z R m s d hR hc hd fits => (divsRM_divides hR hc hd).signed (bits_pos z) fits⟩

/-- Settles O42: where the quotient does not fit there is no result. -/
theorem divisionErrorsSetVAndGoOn : Obligations.DivisionErrorsSetVAndGoOn := by
  unfold Obligations.DivisionErrorsSetVAndGoOn
  exact ⟨fun z R r s hR => ⟨fun h => (divRR_divides hR r s).error (udiv_eq_none h),
      fun h => (divsRR_divides hR r s).error (sdiv_eq_none h)⟩,
    fun z r imm s hr => ⟨fun h => (divRI_divides hr imm s).error (udiv_eq_none h),
      fun h => (divsRI_divides hr imm s).error (sdiv_eq_none h)⟩,
    fun z R m s d hR hc hd => ⟨fun h => (divRM_divides hR hc hd).error (udiv_eq_none h),
      fun h => (divsRM_divides hR hc hd).error (sdiv_eq_none h)⟩⟩

end Sys2Proof.Machine

/-! PROOF. CPL, the bit operations, and the exchanges of registers and memory (spec/43_logical.md rule R175, spec/44_bit.md,
spec/40_exchange.md). -/

namespace Sys2Proof.Machine

/-! ## A register that holds its old value -/

/-- Where a register reads as before and every other byte is kept, every register is kept. -/
theorem RegsKept.of_readReg {n : Nat} {k : RegCode} {s t : State} (rfp : t.rfp = s.rfp)
    (read : t.readReg n k = s.readReg n k) (kept : RegsKeptBut (s.inReg n k) s t) : RegsKept s t := by
  refine RegsKept.of_bytes fun i j => ?_
  by_cases h : s.inReg n k i j
  · obtain ⟨rfl, lo, hi⟩ := h
    have inside : 8 * (j.val - k.off.toNat) + 8 ≤ n := by omega
    have place : k.off.toNat + (j.val - k.off.toNat) = j.val := by omega
    have before := byte_readReg s n k inside
    have after := byte_readReg t n k inside
    rw [place] at before after
    have row : t.long k.row = t.regs[s.slot k.row] := by simp only [State.long, State.slot_congr rfp]
    rw [row] at after
    exact after.symm.trans ((congrArg _ read).trans before)
  · exact kept i j h

/-! ## CPL (R175) -/

/-- F after CPL. -/
def cplFlags (f : Flags) : Flags := { f with h := true, n := true }

theorem exec_cplR (z : SizeBW) (r : RSel) (s : State) :
    exec (.cplR z r) s = .next (((s.flagged (cplFlags s.f) s.draws).writeReg (selCode z.size r)
      (~~~(s.readReg z.bits (selCode z.size r)))).advance (Instr.cplR z r).len) := rfl

/-- Settles O43: the second CPL gives the complement of the complement back. -/
theorem complementRegister : Obligations.ComplementRegister := by
  unfold Obligations.ComplementRegister
  intro z r s hr k
  have fits := codeFits_of_aligned (selCode_aligned hr)
  have wrote (s : State) := WroteReg.of_flagged (.cplR z r) k (~~~(s.readReg z.bits k)) s (cplFlags s.f) s.draws
    (Size.bits_mod z.size) fits
  refine ⟨rfl, fun r' hr' => ?_, _, exec_cplR z r s, ?_⟩
  · rw [decode_regBytes hr', decodeRegOp_long_marked r' 0#3 [] (by simp)]
  obtain ⟨read, regs, mem, system, moved⟩ := wrote s
  refine ⟨by rw [read, BitVec.toNat_not], regs, mem, system, moved, rfl, _, exec_cplR z r _, ?_⟩
  obtain ⟨read', regs', -, system', -⟩ := wrote
    (((s.flagged (cplFlags s.f) s.draws).writeReg k (~~~(s.readReg z.bits k))).advance (Instr.cplR z r).len)
  refine RegsKept.of_readReg (n := z.bits) (k := k) (system'.2.1.trans system.2.1) ?_ fun i j h => ?_
  · rw [read', read, BitVec.not_not]
  · exact (regs' i j h).trans (regs i j h)

/-! ## ANDCF and BIT (R180 to R186) -/

/-- A form with a register operand that sets flags only. -/
theorem flags_spec {i : Instr} {s u : State} {f : Flags} {d : Nat} (he : exec i s = finish i.len (.next u))
    (hu : u = s.flagged f d) : ∃ t, exec i s = .next t ∧ WroteNothing i s t ∧ t.f = f := by
  subst hu
  exact ⟨_, he, WroteNothing.of_flagged i s f d, rfl⟩

/-- Settles O44. -/
theorem andCarryWithABit : Obligations.AndCarryWithABit := by
  unfold Obligations.AndCarryWithABit
  refine ⟨fun z n r s => ?_, fun z r s => ?_, fun n m s v hv => ?_, fun m s v hc hv => ?_⟩
  · obtain ⟨f, d, e, other, carry⟩ := andCarry_eq (s.readReg z.bits (selCode z.size r)) n.toNat s
    obtain ⟨t, ht, wrote, rfl⟩ := flags_spec (i := .andcfNR z n r) rfl e
    exact ⟨t, ht, wrote, other, carry⟩
  · obtain ⟨f, d, e, other, carry⟩ := andCarry_eq (s.readReg z.bits (selCode z.size r)) s.bitNumber s
    obtain ⟨t, ht, wrote, rfl⟩ := flags_spec (i := .andcfAR z r) rfl e
    exact ⟨t, ht, wrote, other, carry⟩
  · obtain ⟨f, d, e, other, carry⟩ := andCarry_eq v n.toNat (Mem.before s m)
    rw [Mem.before_f] at other carry
    obtain ⟨t, ht, wrote, rfl⟩ := withMem_flags_spec (i := .andcfNM n m) (used := []) (set := fun v s => andCarry v n.toNat s)
      (by simp [NoClash]) hv e
    exact ⟨t, ht, wrote, other, carry n.isLt⟩
  · obtain ⟨f, d, e, other, carry⟩ := andCarry_eq v (Mem.before s m).bitNumber (Mem.before s m)
    have number : (Mem.before s m).bitNumber = s.bitNumber := by
      rw [State.bitNumber, Mem.before_readReg _ (hc _ (by simp)), State.bitNumber]
    rw [Mem.before_f] at other carry
    rw [number] at carry
    obtain ⟨t, ht, wrote, rfl⟩ := withMem_flags_spec (i := .andcfAM m) (set := fun v s => andCarry v s.bitNumber s) hc hv e
    exact ⟨t, ht, wrote, other, carry⟩

/-- Settles O46. -/
theorem testABit : Obligations.TestABit := by
  unfold Obligations.TestABit
  refine ⟨fun z n r s => ?_, fun n m s v hv => ?_⟩
  · obtain ⟨f, d, e, say, zero⟩ := testBit_eq (s.readReg z.bits (selCode z.size r)) n.toNat s
    obtain ⟨t, ht, wrote, rfl⟩ := flags_spec (i := .bitNR z n r) rfl e
    exact ⟨t, ht, wrote, say, zero⟩
  · obtain ⟨f, d, e, say, zero⟩ := testBit_eq v n.toNat (Mem.before s m)
    rw [Mem.before_f] at say
    obtain ⟨t, ht, wrote, rfl⟩ := withMem_flags_spec (i := .bitNM n m) (used := []) (set := fun v s => testBit v n.toNat s)
      (by simp [NoClash]) hv e
    exact ⟨t, ht, wrote, say, zero n.isLt⟩

/-! ## CHG (R187, R188) -/

theorem flipBit_flipped {n : Nat} (u : BitVec n) (k : Nat) : BitFlipped u (flipBit u k) k := by
  intro i hi
  rw [flipBit, BitVec.getLsbD_xor, BitVec.getLsbD_shiftLeft, BitVec.getLsbD_one]
  by_cases h : i = k
  · subst h
    simp [hi, show 0 < n by omega]
  · have other : i < k ∨ i - k ≠ 0 := by omega
    rcases other with below | above
    · simp [h, below]
    · simp [h, above]

/-- A pre-decrement draws nothing and keeps F. -/
theorem before_flagged (s : State) (m : Mem) : (Mem.before s m).flagged s.f s.draws = Mem.before s m := by cases m <;> rfl

/-- Settles O47. -/
theorem invertABit : Obligations.InvertABit := by
  unfold Obligations.InvertABit
  refine ⟨fun z n r s hr hn => ?_, fun n r s hn => ?_, fun n m s u ok hu hw => ?_⟩
  · have inverted : execChgNR z n r s = .next ((s.writeReg (selCode z.size r)
        (flipBit (s.readReg z.bits (selCode z.size r)) n.toNat)).advance (r.len + 2)) := if_pos hn
    exact ⟨_, _, inverted, flipBit_flipped _ _,
      WroteReg.of_writeReg (.chgNR z n r) _ _ s (Size.bits_mod z.size) (codeFits_of_aligned (selCode_aligned hr)), rfl⟩
  · exact if_neg (Nat.not_lt.2 hn)
  · obtain ⟨t, ht, wrote, hf⟩ := withMem_store_spec (i := .chgNM n m) (v := flipBit u n.toNat) (f := s.f) (d := s.draws)
      (store := fun ea v s => s.memWrite ea (flipBit v n.toNat)) ok hu hw (by decide) (by rw [before_flagged])
    exact ⟨t, _, ht, flipBit_flipped u n.toNat, wrote, hf⟩

/-! ## BS1F, BS1B (R189, R190) -/

theorem firstOne_eq_some {v : Word16} {i : Nat} (hi : i < 16) (hv : v.getLsbD i = true) (least : ∀ j, j < i → v.getLsbD j = false) :
    firstOne v = some i :=
  List.find?_range_eq_some.2 ⟨hv, List.mem_range.2 hi, fun j hj => by simp [least j hj]⟩

theorem lastOne_eq_some {v : Word16} {i : Nat} (hi : i < 16) (hv : v.getLsbD i = true)
    (greatest : ∀ j, i < j → j < 16 → v.getLsbD j = false) : lastOne v = some i := by
  have parts : List.range 16 = List.range i ++ i :: (List.range (15 - i)).map (i + 1 + ·) := by
    rw [show 16 = i + 1 + (15 - i) by omega, List.range_add, List.range_succ, List.append_assoc]
    rfl
  refine List.find?_eq_some_iff_append.2 ⟨hv, ((List.range (15 - i)).map (i + 1 + ·)).reverse, (List.range i).reverse, ?_, ?_⟩
  · rw [parts, List.reverse_append, List.reverse_cons, List.append_assoc]
    rfl
  · intro j hj
    simp only [List.mem_reverse, List.mem_map, List.mem_range] at hj
    obtain ⟨a, ha, rfl⟩ := hj
    simp [greatest (i + 1 + a) (by omega) (by omega)]

theorem firstOne_zero : firstOne 0#16 = none := by decide

theorem lastOne_zero : lastOne 0#16 = none := by decide

/-- A search that found `i` writes it to A. -/
theorem putSearch_some_spec (i : Instr) (n : Nat) (s : State) : ∃ t, finish i.len (.next (putSearch (some n) s)) = .next t
    ∧ WroteReg i codeA (BitVec.ofNat 8 n) s t ∧ t.f = { s.f with v := false } := by
  obtain ⟨v, d, e, hv⟩ := putSearch_eq (some n) s
  rw [e, hv n rfl]
  exact ⟨_, rfl, WroteReg.of_flagged i codeA _ s _ d rfl (codeFits_of_aligned (k := codeA) (z := .b) rfl), rfl⟩

/-- A search that found nothing leaves A free and sets V. -/
theorem putSearch_none_spec (i : Instr) (s : State) : ∃ t a, finish i.len (.next (putSearch none s)) = .next t
    ∧ WroteReg (n := 8) i codeA a s t ∧ t.f = { s.f with v := true } := by
  obtain ⟨v, d, e, -⟩ := putSearch_eq none s
  rw [e]
  exact ⟨_, v, rfl, WroteReg.of_flagged i codeA v s _ d rfl (codeFits_of_aligned (k := codeA) (z := .b) rfl), rfl⟩

/-- Settles O48. -/
theorem searchForABit : Obligations.SearchForABit := by
  unfold Obligations.SearchForABit
  intro r s _ v
  have forward : exec (.bs1f r) s = finish (Instr.bs1f r).len (.next (putSearch (firstOne v) s)) := rfl
  have backward : exec (.bs1b r) s = finish (Instr.bs1b r).len (.next (putSearch (lastOne v) s)) := rfl
  refine ⟨fun i hi hv => ⟨fun least => ?_, fun greatest => ?_⟩, fun zero => ⟨?_, ?_⟩⟩
  · rw [forward, firstOne_eq_some hi hv least]
    exact putSearch_some_spec _ i s
  · rw [backward, lastOne_eq_some hi hv greatest]
    exact putSearch_some_spec _ i s
  · rw [forward, zero, firstOne_zero]
    exact putSearch_none_spec _ s
  · rw [backward, zero, lastOne_zero]
    exact putSearch_none_spec _ s

end Sys2Proof.Machine

/-! PROOF. The exchanges of two registers and of memory and a register (spec/40_exchange.md rules R101 and R102). -/

namespace Sys2Proof.Machine

/-! ## EX R,r (R101) -/

/-- Two codes of one storage and one offset name one register. -/
theorem readReg_of_same_storage {s : State} {k k' : RegCode} (n : Nat) (slot : s.slot k.row = s.slot k'.row)
    (off : k.off = k'.off) : s.readReg n k = s.readReg n k' := by
  simp only [State.readReg, State.long, slot, off]

/-- Two registers of one size are one register or do not overlap. -/
theorem same_or_apart {s : State} {z : SizeBW} {k k' : RegCode} (hk : k.aligned z.size = true) (hk' : k'.aligned z.size = true) :
    (s.slot k.row = s.slot k'.row ∧ k.off = k'.off)
      ∨ (s.slot k'.row ≠ s.slot k.row ∨ 8 * k'.off.toNat + z.bits ≤ 8 * k.off.toNat ∨ 8 * k.off.toNat + z.bits ≤ 8 * k'.off.toNat) := by
  have whole : z.bits % 8 = 0 := Size.bits_mod z.size
  by_cases slot : s.slot k.row = s.slot k'.row
  · rcases offsets_apart hk hk' with off | below | above
    · exact .inl ⟨slot, off⟩
    · exact .inr (.inr (.inr (by omega)))
    · exact .inr (.inr (.inl (by omega)))
  · exact .inr (.inl (Ne.symm slot))

/-- Two registers with their contents exchanged. -/
def State.swapRegs (s : State) (n : Nat) (k k' : RegCode) : State :=
  (s.writeReg k (s.readReg n k')).writeReg k' (s.readReg n k)

theorem swapRegs_read_right {n : Nat} {k' : RegCode} (s : State) (k : RegCode) (h : codeFits n k') :
    (s.swapRegs n k k').readReg n k' = s.readReg n k := State.readReg_writeReg _ _ _ h

theorem swapRegs_read_left {z : SizeBW} {k k' : RegCode} (s : State) (hk : k.aligned z.size = true)
    (hk' : k'.aligned z.size = true) : (s.swapRegs z.bits k k').readReg z.bits k = s.readReg z.bits k' := by
  rcases same_or_apart (s := s) hk hk' with ⟨slot, off⟩ | apart
  · calc (s.swapRegs z.bits k k').readReg z.bits k
        = (s.swapRegs z.bits k k').readReg z.bits k' := readReg_of_same_storage z.bits slot off
      _ = s.readReg z.bits k := swapRegs_read_right s k (codeFits_of_aligned hk')
      _ = s.readReg z.bits k' := readReg_of_same_storage z.bits slot off
  · calc (s.swapRegs z.bits k k').readReg z.bits k
        = (s.writeReg k (s.readReg z.bits k')).readReg z.bits k := State.readReg_writeReg_apart _ _ _ _ apart
      _ = s.readReg z.bits k' := State.readReg_writeReg _ _ _ (codeFits_of_aligned hk)

theorem swapRegs_kept {n : Nat} (hn : n % 8 = 0) (s : State) (k k' : RegCode) :
    RegsKeptBut (fun i j => s.inReg n k i j ∨ s.inReg n k' i j) s (s.swapRegs n k k') := by
  intro i j h
  have second := State.regByte_writeReg_other (s.writeReg k (s.readReg n k')) k' (s.readReg n k) hn i j fun e => h (.inr e)
  have first := State.regByte_writeReg_other s k (s.readReg n k') hn i j fun e => h (.inl e)
  exact second.trans first

/-- A register exchanged with itself keeps its content. -/
theorem swapRegs_same {z : SizeBW} {k k' : RegCode} (s : State) (hk : k.aligned z.size = true) (hk' : k'.aligned z.size = true)
    (slot : s.slot k.row = s.slot k'.row) (off : k.off = k'.off) : RegsKept s (s.swapRegs z.bits k k') := by
  have read := (swapRegs_read_left s hk hk').trans (readReg_of_same_storage z.bits slot off).symm
  refine RegsKept.of_readReg rfl read fun i j h => swapRegs_kept (Size.bits_mod z.size) s k k' i j ?_
  have same : s.inReg z.bits k' i j → s.inReg z.bits k i j := by
    rintro ⟨hs, ho⟩
    exact ⟨hs.trans slot.symm, off ▸ ho⟩
  exact fun e => e.elim h (h ∘ same)

/-- Settles O50. -/
theorem exchangeRegisters : Obligations.ExchangeRegisters := by
  unfold Obligations.ExchangeRegisters
  intro z R r s hr k k'
  have hk : k.aligned z.size = true := shortCode_aligned z.size R
  have hk' : k'.aligned z.size = true := selCode_aligned hr
  refine ⟨rfl, fun r' hr' => ?_, (s.swapRegs z.bits k k').advance (r.len + 1), rfl, rfl, swapRegs_read_left s hk hk',
    swapRegs_read_right s k (codeFits_of_aligned hk'), swapRegs_kept (Size.bits_mod z.size) s k k', swapRegs_same s hk hk',
    fun _ => rfl, ⟨rfl, rfl, rfl, ⟨rfl, rfl, rfl, rfl, rfl⟩, rfl⟩, rfl⟩
  rw [decode_regBytes hr', decodeRegOp_long_marked r' R [] (by simp)]

/-! ## EX (mem),r (R102) -/

/-- The post-increment and a write of a register with another storage commute. -/
theorem after_writeReg {n : Nat} {s : State} {m : Mem} {k : RegCode} (h : Mem.clashes s m k = false) (v : BitVec n) :
    Mem.after (s.writeReg k v) m = (Mem.after s m).writeReg k v := by
  cases m with
  | postInc r st =>
    have ne : s.slot r ≠ s.slot k.row := slot_ne_of_not_clashes h rfl
    have kept : (s.writeReg k v).long r = s.long r := State.setLong_other _ _ _ _ (Ne.symm ne)
    have kept' : (s.setLong r (s.long r + BitVec.ofNat 32 st.amount)).long k.row = s.long k.row := State.setLong_other _ _ _ _ ne
    have commute (a b : Word32) : (s.regs.set (s.slot k.row) a).set (s.slot r) b = (s.regs.set (s.slot r) b).set (s.slot k.row) a :=
      Vector.set_comm _ _ fun e => ne (Fin.ext e.symm)
    show (s.writeReg k v).setLong r ((s.writeReg k v).long r + _) = (s.setLong r (s.long r + _)).writeReg k v
    rw [kept]
    show State.setLong (State.setLong s _ _) _ _ = State.setLong (State.setLong s _ _) _ (fieldPut (State.long _ _) _ _)
    rw [kept']
    exact congrArg (fun regs => ({ s with regs := regs } : State)) (commute _ _)
  | _ => rfl

/-- A register written after a store that keeps everything but memory and the auto-modified register. -/
theorem writeReg_after_store {n : Nat} {m : Mem} {i : Instr} {w v : BitVec n} {k : RegCode} {s t : State}
    (h : WroteMem m i w s t) (hn : n % 8 = 0) (hk : codeFits n k) (hc : Mem.clashes s m k = false) :
    let u := t.writeReg k v
    u.readReg n k = v ∧ Stored (Mem.ea s m) w s u ∧ MemKeptBut (Mem.ea s m) (n / 8) s u ∧ AutoMoved m s u
      ∧ RegsKeptBut (fun x j => s.inReg n k x j ∨ s.inAuto m x j) s u ∧ SystemKept s u ∧ MovedPast i s u := by
  obtain ⟨stored, mem, auto, regs, system, moved⟩ := h
  have slot (r : LongReg) : t.slot r = s.slot r := State.slot_congr system.2.1 r
  refine ⟨State.readReg_writeReg t k v hk, stored, mem, ?_, fun x j hx => ?_, system, moved⟩
  · have kept (r : LongReg) (hr : Mem.autoReg m = some r) : (t.writeReg k v).long r = t.long r :=
      State.setLong_other _ _ _ _ (by rw [slot, slot]; exact Ne.symm (slot_ne_of_not_clashes hc hr))
    cases m with
    | preDec r st => exact (kept r rfl).trans auto
    | postInc r st => exact (kept r rfl).trans auto
    | _ => trivial
  · have written := State.regByte_writeReg_other t k v hn x j (by
      rintro ⟨hs, ho⟩
      exact hx (.inl ⟨hs.trans (slot k.row), ho⟩))
    exact written.trans (regs x j fun e => hx (.inr e))

/-- Settles O51: the store of O26's kind, then the register, before or after the post-increment alike. -/
theorem exchangeMemoryAndRegister : Obligations.ExchangeMemoryAndRegister := by
  unfold Obligations.ExchangeMemoryAndRegister
  intro z m R s v ok hc hv hw k
  rw [← Size.bits_div] at hw ⊢
  have noClash : Mem.clashes s m k = false := hc k (by simp [k])
  obtain ⟨u, stored, wrote, hf⟩ := wroteMem_spec m (.exMR z m R) (s.readReg z.bits k) s s.f s.draws ok hw (Size.bytes_le z.size)
  rw [before_flagged] at stored
  have noClash' : Mem.clashes u m k = false := by
    obtain ⟨_, rfl⟩ := memWrite_eq_next.1 stored
    simpa [Mem.clashes, State.slot] using noClash
  have rest := writeReg_after_store (v := v) wrote (Size.bits_mod z.size) (codeFits_of_aligned (shortCode_aligned z.size R)) noClash
  refine ⟨((Mem.after u m).writeReg k v).advance (m.len + 1), ?_, (Mem.after_f u m).trans hf, rest⟩
  refine finish_eq_next.2 ⟨_, withMem_eq_next.2 ⟨hc, u.writeReg k v, ?_, rfl⟩, ?_⟩
  · rw [State.memRead_before, hv, andThen_next, Mem.before_readReg _ noClash, stored, andThen_next]
  · rw [after_writeReg noClash']

end Sys2Proof.Machine

/-! PROOF. CPI, CPD, CPIR and CPDR (spec/41_block_compare.md rules R110 to R114): the state after so many compare steps, what it holds, and
when the repeat reaches it. -/

namespace Sys2Proof.Machine

/-! ## One compare step -/

/-- The flags of a compare step: those of the subtraction, but V tells whether BC is not 0 and C is kept (R110). -/
def CompareFlagsSay (z : SizeBW) (a m : BitVec z.bits) (counter : Word16) (f g : Flags) : Prop :=
  g.s = (a - m).msb ∧ (g.z = true ↔ a = m) ∧ (g.h = true ↔ a.toNat % 16 < m.toNat % 16) ∧ (g.v = true ↔ counter ≠ 0#16)
    ∧ g.n = true ∧ g.c = f.c ∧ g.rest = f.rest

theorem compareStepDone_flags (z : SizeBW) (R : BitVec 3) (up : Bool) (m : BitVec z.bits) (s : State) :
    CompareFlagsSay z (s.readReg z.bits codeA) m (compareStepDone z R up m s).counter s.f (compareStepDone z R up m s).f := by
  obtain ⟨⟨sign, zero, half, -⟩, -⟩ := subFlags_say z.size (s.readReg z.bits codeA) m false s.f
  have notLong : z.size ≠ .l := by cases z <;> decide
  exact ⟨sign, zero, half notLong, decide_eq_true_iff, rfl, rfl, rfl⟩

/-- The bytes a compare step may change: those of the pointer and of BC. -/
def InPointerOrCounter (R : BitVec 3) (s : State) (x : Fin 20) (j : Fin 4) : Prop :=
  s.inLong (pointerReg R) x j ∨ s.inReg 16 codeBC x j

theorem compareStepDone_regs (z : SizeBW) (R : BitVec 3) (up : Bool) (m : BitVec z.bits) (s : State) :
    RegsKeptBut (InPointerOrCounter R s) s (compareStepDone z R up m s) := by
  intro x j h
  have counter := State.regByte_writeReg_other (s.setLong (pointerReg R) (stepPointer z up (s.long (pointerReg R)))) codeBC
    ((s.setLong (pointerReg R) (stepPointer z up (s.long (pointerReg R)))).counter - 1#16) rfl x j fun e => h (.inr e)
  have pointer := State.regByte_setLong_other s (pointerReg R) (stepPointer z up (s.long (pointerReg R))) x j fun e => h (.inl e)
  exact counter.trans pointer

/-! ## The state after `k` steps -/

/-- The state after `k` compare steps with the memory values `ms 0`, `ms 1`, … -/
def comparedState (z : SizeBW) (R : BitVec 3) (up : Bool) (ms : Nat → BitVec z.bits) (s : State) : Nat → State
  | 0 => s
  | k + 1 => compareStepDone z R up (ms k) (comparedState z R up ms s k)

section Compared

variable (z : SizeBW) (R : BitVec 3) (up : Bool) (ms : Nat → BitVec z.bits) (s : State)

theorem comparedState_system (k : Nat) : SystemKept s (comparedState z R up ms s k) := by
  induction k with
  | zero => exact .refl s
  | succ k ih => exact ih

theorem comparedState_rfp (k : Nat) : (comparedState z R up ms s k).rfp = s.rfp := (comparedState_system z R up ms s k).2.1

theorem comparedState_mem (k : Nat) : (comparedState z R up ms s k).mem = s.mem := by
  induction k with
  | zero => rfl
  | succ k ih => exact ih

theorem comparedState_pc (k : Nat) : (comparedState z R up ms s k).pc = s.pc := by
  induction k with
  | zero => rfl
  | succ k ih => exact ih

theorem comparedState_memRead (k n : Nat) (a : Word32) : (comparedState z R up ms s k).memRead n a = s.memRead n a :=
  State.memRead_congr (comparedState_system z R up ms s k).2.2.2.2 (comparedState_mem z R up ms s k) n a

theorem comparedState_carry_rest (k : Nat) :
    (comparedState z R up ms s k).f.c = s.f.c ∧ (comparedState z R up ms s k).f.rest = s.f.rest := by
  induction k with
  | zero => exact ⟨rfl, rfl⟩
  | succ k ih => exact ih

theorem comparedState_regs (k : Nat) : RegsKeptBut (InPointerOrCounter R s) s (comparedState z R up ms s k) := by
  induction k with
  | zero => exact fun _ _ _ => rfl
  | succ k ih =>
    intro x j h
    have slot (r : LongReg) : (comparedState z R up ms s k).slot r = s.slot r :=
      State.slot_congr (comparedState_rfp z R up ms s k) r
    have step := compareStepDone_regs z R up (ms k) (comparedState z R up ms s k) x j (by
      simpa only [InPointerOrCounter, State.inLong, State.inReg, slot] using h)
    exact step.trans (ih x j h)

theorem stepPointer_pointerAfter (p : Word32) (k : Nat) :
    stepPointer z up (pointerAfter z up p k) = pointerAfter z up p (k + 1) := by
  cases up
  · simp only [stepPointer, pointerAfter, Bool.false_eq_true, if_false, Nat.succ_mul, BitVec.ofNat_add, sub_sub]
  · simp only [stepPointer, pointerAfter, if_true, Nat.succ_mul, BitVec.ofNat_add, BitVec.add_assoc]

variable {R} (h0 : R ≠ 0#3) (h1 : R ≠ 1#3)
include h0 h1

theorem comparedState_pointer (k : Nat) :
    (comparedState z R up ms s k).long (pointerReg R) = pointerAfter z up (s.long (pointerReg R)) k := by
  induction k with
  | zero => simp [comparedState, pointerAfter]
  | succ k ih => rw [comparedState, compareStepDone_pointer z R up _ _ h0 h1, ih, stepPointer_pointerAfter]

theorem comparedState_counter (k : Nat) : (comparedState z R up ms s k).counter = s.counter - BitVec.ofNat 16 k := by
  induction k with
  | zero => simp [comparedState]
  | succ k ih =>
    rw [comparedState, compareStepDone_counter z R up _ _ h0 h1, ih, BitVec.ofNat_add, sub_sub]

theorem comparedState_A (k : Nat) : (comparedState z R up ms s k).readReg z.bits codeA = s.readReg z.bits codeA := by
  induction k with
  | zero => rfl
  | succ k ih => exact (compareStepDone_A z R up _ _ h0 h1).trans ih

/-- The state after `k + 1` steps is what the statements ask for, but for pc. -/
theorem comparedTimes_of_state (i : Instr) (hi : i.len = 2) (k : Nat) :
    ComparedTimes (k + 1) i z R up (ms k) s ((comparedState z R up ms s (k + 1)).advance 2) := by
  obtain ⟨carry, rest⟩ := comparedState_carry_rest z R up ms s k
  obtain ⟨sign, zero, half, overflow, n, c, r⟩ := compareStepDone_flags z R up (ms k) (comparedState z R up ms s k)
  rw [comparedState_A z up ms s h0 h1] at sign zero half
  refine ⟨comparedState_pointer z up ms s h0 h1 (k + 1), comparedState_counter z up ms s h0 h1 (k + 1), sign, zero, half, overflow,
    n, c.trans carry, r.trans rest, comparedState_regs z R up ms s (k + 1), MemKept.of_mem_eq (comparedState_mem z R up ms s (k + 1)),
    comparedState_system z R up ms s (k + 1), ?_⟩
  show (comparedState z R up ms s (k + 1)).pc + _ = s.pc + _
  rw [comparedState_pc, hi]

/-- A compare step from the state after `k` steps leads to the state after `k + 1`. -/
theorem compareStep_comparedState {k : Nat}
    (read : s.memRead z.bits (pointerAfter z up (s.long (pointerReg R)) k) = .next (ms k)) :
    compareStep z R up (comparedState z R up ms s k) = .next (comparedState z R up ms s (k + 1)) := by
  refine compareStep_eq_next.2 ⟨ms k, ?_, rfl⟩
  rw [comparedState_memRead, comparedState_pointer z up ms s h0 h1, read]

/-! ## The repeat -/

/-- The repeat stops after `k + 1` steps exactly on a match or where BC has become 0. -/
theorem comparedState_stops_iff (k : Nat) :
    ((comparedState z R up ms s (k + 1)).f.z || (comparedState z R up ms s (k + 1)).counter == 0#16) = true
      ↔ s.readReg z.bits codeA = ms k ∨ s.counter - BitVec.ofNat 16 (k + 1) = 0#16 := by
  obtain ⟨-, zero, -⟩ := compareStepDone_flags z R up (ms k) (comparedState z R up ms s k)
  rw [comparedState_A z up ms s h0 h1] at zero
  rw [Bool.or_eq_true, beq_iff_eq, comparedState_counter z up ms s h0 h1]
  exact or_congr_left zero

/-- As long as no step stops the repeat, it goes on from the state after them. -/
theorem compareRepeat_goes_on (k fuel : Nat)
    (reads : ∀ j, j < k → s.memRead z.bits (pointerAfter z up (s.long (pointerReg R)) j) = .next (ms j))
    (on : ∀ j, j < k → s.readReg z.bits codeA ≠ ms j ∧ s.counter - BitVec.ofNat 16 (j + 1) ≠ 0#16) :
    compareRepeat z R up (k + fuel) s = compareRepeat z R up fuel (comparedState z R up ms s k) := by
  induction k generalizing fuel with
  | zero => rw [Nat.zero_add, comparedState]
  | succ k ih =>
    have earlier := ih (fuel + 1) (fun j hj => reads j (by omega)) (fun j hj => on j (by omega))
    obtain ⟨differs, counts⟩ := on k (Nat.lt_succ_self k)
    have step := compareStep_comparedState z up ms s h0 h1 (reads k (Nat.lt_succ_self k))
    have goesOn := mt (comparedState_stops_iff z up ms s h0 h1 k).1 (not_or.2 ⟨differs, counts⟩)
    rw [show k + 1 + fuel = k + (fuel + 1) by omega, earlier, compareRepeat, step, andThen_next, if_neg goesOn]

/-- The repeat ends with the first step that stops it. -/
theorem compareRepeat_ends (k fuel : Nat)
    (reads : ∀ j, j < k + 1 → s.memRead z.bits (pointerAfter z up (s.long (pointerReg R)) j) = .next (ms j))
    (on : ∀ j, j < k → s.readReg z.bits codeA ≠ ms j ∧ s.counter - BitVec.ofNat 16 (j + 1) ≠ 0#16)
    (last : s.readReg z.bits codeA = ms k ∨ s.counter - BitVec.ofNat 16 (k + 1) = 0#16) :
    compareRepeat z R up (k + (fuel + 1)) s = .next (comparedState z R up ms s (k + 1)) := by
  have step := compareStep_comparedState z up ms s h0 h1 (reads k (Nat.lt_succ_self k))
  have stops := (comparedState_stops_iff z up ms s h0 h1 k).2 last
  rw [compareRepeat_goes_on z up ms s h0 h1 k (fuel + 1) (fun j hj => reads j (by omega)) on, compareRepeat, step, andThen_next,
    if_pos stops]

end Compared

/-! ## The count (R112, R114) -/

/-- BC has counted down to 0 after exactly `compareBound` steps, and not before. -/
theorem counter_sub_eq_zero_iff {s : State} {k : Nat} (h1 : 1 ≤ k) (hk : k ≤ compareBound s) :
    s.counter - BitVec.ofNat 16 k = 0#16 ↔ k = compareBound s := by
  have bound : s.counter.toNat < 65536 := s.counter.isLt
  unfold compareBound at hk ⊢
  rw [← BitVec.toNat_inj, BitVec.toNat_sub, BitVec.toNat_ofNat, BitVec.toNat_ofNat]
  split at hk
  · rename_i zero
    rw [if_pos zero, zero, BitVec.toNat_ofNat]
    omega
  · rename_i nonzero
    rw [if_neg nonzero]
    omega

theorem onFreePointer_of_ne {R : BitVec 3} (h0 : R ≠ 0#3) (h1 : R ≠ 1#3) (r : Result State) : onFreePointer R r = r :=
  if_neg (not_or.2 ⟨h0, h1⟩)

/-- Settles O52: one step is the first step of a row of steps that all read `m`. -/
theorem compareOnceAndCount : Obligations.CompareOnceAndCount := by
  unfold Obligations.CompareOnceAndCount
  intro z R s m h0 h1 read
  have once (up : Bool) : finish 2 (compareStep z R up s) = .next ((comparedState z R up (fun _ => m) s 1).advance 2) := by
    have start : pointerAfter z up (s.long (pointerReg R)) 0 = s.long (pointerReg R) := by simp [pointerAfter]
    rw [← start] at read
    exact finish_eq_next.2 ⟨_, compareStep_comparedState z up (fun _ => m) s h0 h1 read, rfl⟩
  exact ⟨⟨_, (onFreePointer_of_ne h0 h1 _).trans (once true), comparedTimes_of_state z true _ s h0 h1 (.cpi z R) rfl 0⟩,
    ⟨_, (onFreePointer_of_ne h0 h1 _).trans (once false), comparedTimes_of_state z false _ s h0 h1 (.cpd z R) rfl 0⟩⟩

/-- Settles O53: by `compareRepeat_ends`, since before the bound BC has not counted down to 0. -/
theorem compareRepeatedAndCount : Obligations.CompareRepeatedAndCount := by
  unfold Obligations.CompareRepeatedAndCount
  intro z R up s k ms h0 h1 bound i hk hbound reads differ last
  obtain ⟨k, rfl⟩ := Nat.exists_eq_succ_of_ne_zero (Nat.pos_iff_ne_zero.1 hk)
  have on (j : Nat) (hj : j < k) : s.readReg z.bits codeA ≠ ms j ∧ s.counter - BitVec.ofNat 16 (j + 1) ≠ 0#16 := by
    refine ⟨Ne.symm (differ j (by omega)), fun e => ?_⟩
    have := (counter_sub_eq_zero_iff (s := s) (by omega) (show j + 1 ≤ bound by omega)).1 e
    change j + 1 = bound at this
    omega
  have stop : s.readReg z.bits codeA = ms k ∨ s.counter - BitVec.ofNat 16 (k + 1) = 0#16 :=
    last.imp Eq.symm (counter_sub_eq_zero_iff (s := s) hk hbound).2
  have repeated : compareRepeat z R up (compareBound s) s = .next (comparedState z R up ms s (k + 1)) := by
    have ends := compareRepeat_ends z up ms s h0 h1 k (bound - (k + 1)) reads on stop
    rwa [show k + (bound - (k + 1) + 1) = bound by omega] at ends
  have done : exec i s = .next ((comparedState z R up ms s (k + 1)).advance 2) := by
    have finished := finish_eq_next (len := 2).2 ⟨_, repeated, rfl⟩
    cases up <;> exact (onFreePointer_of_ne h0 h1 _).trans finished
  have len : i.len = 2 := by cases up <;> rfl
  exact ⟨_, done, comparedTimes_of_state z up ms s h0 h1 i len k⟩

end Sys2Proof.Machine

/-! PROOF. CPU control, calls, DJNZ, and the forms the spec refuses (spec/45_cpu_control.md, spec/46_jump_call.md, spec/41_block_compare.md
rule R110, spec/30_encoding.md rule R75). -/

namespace Sys2Proof.Machine

/-! ## EI, DI, DECF (R200 to R202) -/

/-- The level replaced, and nothing else. -/
def State.setLevel (s : State) (n : BitVec 3) : State := { s with iffLevel := n }

theorem onlyLevelSet_setLevel (i : Instr) (n : BitVec 3) (s : State) : OnlyLevelSet i n s ((s.setLevel n).advance i.len) :=
  ⟨rfl, rfl, .of_regs_eq rfl, .of_mem_eq rfl, rfl, rfl, ⟨rfl, rfl, rfl, rfl, rfl⟩, rfl, rfl⟩

theorem exec_ei (n : BitVec 3) (s : State) : exec (.ei n) s = .next ((s.setLevel n).advance (Instr.ei n).len) := rfl

theorem exec_di (s : State) : exec .di s = .next ((s.setLevel 7#3).advance Instr.di.len) := rfl

/-- Settles O54. -/
theorem interruptLevelIsSet : Obligations.InterruptLevelIsSet := by
  unfold Obligations.InterruptLevelIsSet
  exact ⟨fun n s => ⟨_, exec_ei n s, onlyLevelSet_setLevel _ n s⟩, rfl, rfl,
    fun s => ⟨_, exec_di s, onlyLevelSet_setLevel _ 7#3 s, exec_ei 7#3 s⟩⟩

/-- The bank below, as a number and as a bank, and the bank below that one. -/
theorem decRfp_banks (rfp : BitVec 3) : (decRfp rfp).toNat = (rfp.toNat + 3) % 4 ∧ curBank (decRfp rfp) = prevBank rfp
    ∧ (prevBank (decRfp rfp)).toNat = (rfp.toNat + 2) % 4 := by
  revert rfp; decide

/-- Settles O55. -/
theorem decfMovesToTheBankBelow : Obligations.DecfMovesToTheBankBelow := by
  unfold Obligations.DecfMovesToTheBankBelow
  intro s _
  obtain ⟨number, current, previous⟩ := decRfp_banks s.rfp
  refine ⟨({ s with rfp := decRfp s.rfp } : State).advance Instr.decf.len, rfl, decRfp_bit_two s.rfp, number, rfl, .of_regs_eq rfl,
    .of_mem_eq rfl, rfl, rfl, ⟨rfl, rfl, rfl, rfl, rfl⟩, rfl, rfl, fun q => ⟨?_, ?_⟩⟩
  · show s.regs[bankSlot (curBank (decRfp s.rfp)) q] = s.regs[bankSlot (prevBank s.rfp) q]
    simp only [current]
  · show 4 * (prevBank (decRfp s.rfp)).toNat + q.toNat = _
    rw [previous]

/-! ## Calls (R210 to R214) -/

/-- A permitted store leaves the bytes of the value and every other byte of memory. -/
theorem storeLE_stored {s : State} {n : Nat} {a : Word32} {v : BitVec n} (ok : s.storeOk) (hw : s.writable a (n / 8))
    (hn : n / 8 ≤ 2 ^ 24) {t : State} (ht : t.mem = s.storeLE a 0 (n / 8) v.toNat s.mem) :
    Stored a v s t ∧ MemKeptBut a (n / 8) s t := by
  obtain ⟨m', wrote, stored, kept⟩ := memWrite_spec a v ok hw hn
  obtain ⟨-, e⟩ := memWrite_eq_next.1 wrote
  have hm : t.mem = m' := ht.trans (congrArg State.mem e).symm
  exact ⟨fun i hi => by rw [State.byteAt, hm, stored i hi], fun x hx => by rw [State.byteAt, hm, kept x hx]; rfl⟩

/-- A call with room below XSP pushes the return address and goes to its target. -/
theorem call_called (i : Instr) (target : Word32) {s : State} (ok : s.storeOk) (hw : s.writable (s.long rowXSP - 4#32) 4) :
    ∃ t, call i.len target s = .next t ∧ Called i target s t := by
  refine ⟨_, call_eq_next.2 ⟨hw, rfl⟩, ?_⟩
  obtain ⟨stored, kept⟩ := storeLE_stored (v := s.nextPc i.len) ok hw (by decide) (t := State.jump
    { s.setLong rowXSP (s.long rowXSP - 4#32) with
      mem := s.storeLE (s.long rowXSP - 4#32) 0 4 (s.nextPc i.len).toNat s.mem } target) rfl
  exact ⟨rfl, State.setLong_same s rowXSP _, stored, kept, fun x j hx => State.regByte_setLong_other s rowXSP _ x j hx, rfl,
    .refl s⟩

/-- Settles O56. -/
theorem callsPushAndJump : Obligations.CallsPushAndJump := by
  unfold Obligations.CallsPushAndJump
  exact fun s a16 d a24 ok hw => ⟨call_called (.call16 a16) _ ok hw, call_called (.call24 a24) _ ok hw,
    call_called (.calr d) _ ok hw⟩

/-- Settles O57: where the condition does not hold, `exec_callM_of_not_holds`. -/
theorem callMemoryModeIsConditional : Obligations.CallMemoryModeIsConditional := by
  unfold Obligations.CallMemoryModeIsConditional
  refine fun c m s hm => ⟨fun holds ok hw => ?_, fun fails => ?_⟩
  · have taken : exec (.callM c m) s = call (m.len + 1) (Mem.ea s m) s := (if_pos hm).trans (if_pos holds)
    rw [taken]
    exact call_called (.callM c m) (Mem.ea s m) ok hw
  · exact ⟨_, exec_callM_of_not_holds hm fails, WroteNothing.of_flagged (.callM c m) s s.f s.draws, rfl⟩

/-! ## DJNZ (R215) -/

/-- Settles O58: the register is written in both cases, and pc by the result. -/
theorem decrementAndJump : Obligations.DecrementAndJump := by
  unfold Obligations.DecrementAndJump
  intro z r d s hr k v
  have fits := codeFits_of_aligned (selCode_aligned hr)
  have read : (s.writeReg k v).readReg z.bits k = v := s.readReg_writeReg k v fits
  have regs : RegsKeptBut (s.inReg z.bits k) s (s.writeReg k v) := RegsKeptBut.of_writeReg s k v (Size.bits_mod z.size)
  have jumped : exec (.djnz z r d) s = .next ((s.writeReg k v).jump (if v = 0#z.bits then s.nextPc (r.len + 2)
      else s.nextPc (r.len + 2) + d.signExtend 32)) := by
    show Host.Outcome.next (if v = 0#z.bits then (s.writeReg k v).advance (r.len + 2)
      else (s.writeReg k v).jump (s.nextPc (r.len + 2) + d.signExtend 32)) = _
    split <;> rfl
  exact ⟨rfl, _, jumped, read, rfl, regs, .of_mem_eq rfl, .refl s, rfl⟩

/-! ## Refused forms (R75, R110, R212) -/

theorem onFreePointer_refused {R : BitVec 3} (h : R = 0#3 ∨ R = 1#3) (r : Result State) :
    onFreePointer R r = .refused .pointerOverlap := if_pos h

theorem execCallM_refused {m : Mem} (h : callMode m = false) (c : Cond) (s : State) :
    exec (.callM c m) s = .refused .callModeNotGiven := if_neg (by simp [h])

/-- A form whose auto-modified register holds one of its operands or results is refused. -/
theorem withMem_refused {m : Mem} {used : List RegCode} {s : State} {k : RegCode} (hk : k ∈ used)
    (h : Mem.clashes s m k = true) (body : Word32 → State → Result State) :
    withMem m used s body = .refused .autoModifyOverlap := if_pos (List.any_eq_true.2 ⟨k, hk, h⟩)

/-- The same for the whole instruction. -/
theorem finish_withMem_refused {m : Mem} {used : List RegCode} {s : State} {k : RegCode} (len : Nat) (hk : k ∈ used)
    (h : Mem.clashes s m k = true) (body : Word32 → State → Result State) :
    finish len (withMem m used s body) = .refused .autoModifyOverlap := by
  rw [withMem_refused hk h]
  rfl

/-- A mode that modifies `r` clashes with every register of the same storage. -/
theorem clashes_of_slot_eq {m : Mem} {r : LongReg} {st : StepCode} {s : State} {k : RegCode}
    (hm : m = .preDec r st ∨ m = .postInc r st) (h : s.slot r = s.slot k.row) : Mem.clashes s m k = true := by
  rcases hm with rfl | rfl <;> exact beq_iff_eq.2 h

theorem pointerReg_seven : pointerReg 7#3 = rowXSP := by decide

theorem notXSP_eq_false {r : LongReg} (h : r = .idx 3#2) : notXSP r = false := by
  subst h
  decide

/-- The modes that name XSP or modify a register have no call. -/
theorem callMode_eq_false {m : Mem} (h : m ∈ [.ind 7#3, .reg (.idx 3#2)] ∨ (∃ d, m = .indD8 7#3 d)
      ∨ (∃ d, m = .regD16 (.idx 3#2) d) ∨ (∃ r k, (m = .regR8 r k ∨ m = .regR16 r k) ∧ (r = .idx 3#2 ∨ k.row = .idx 3#2))
      ∨ (∃ r st, m = .preDec r st ∨ m = .postInc r st)) : callMode m = false := by
  have stack := notXSP_eq_false (r := pointerReg 7#3) pointerReg_seven
  simp only [List.mem_cons, List.not_mem_nil, or_false] at h
  rcases h with (rfl | rfl) | ⟨d, rfl⟩ | ⟨d, rfl⟩ | ⟨r, k, hm, hrk⟩ | ⟨r, st, rfl | rfl⟩
  · exact stack
  · exact notXSP_eq_false rfl
  · exact stack
  · exact notXSP_eq_false rfl
  · have named : (notXSP r && notXSP k.row) = false := by
      rcases hrk with hr | hk
      · rw [notXSP_eq_false hr, Bool.false_and]
      · rw [notXSP_eq_false hk, Bool.and_false]
    rcases hm with rfl | rfl <;> exact named
  · rfl
  · rfl

/-- Settles O59. -/
theorem unorderedOverlapsAreRefused : Obligations.UnorderedOverlapsAreRefused := by
  unfold Obligations.UnorderedOverlapsAreRefused
  refine ⟨fun z R s hR => ?_, fun c s m hm => execCallM_refused (callMode_eq_false hm) c s, fun z R m r st s hm hr => ?_,
    fun z R m r st s hm => ⟨fun hr => ?_, fun hr => ?_⟩⟩
  · exact ⟨onFreePointer_refused hR _, onFreePointer_refused hR _, onFreePointer_refused hR _, onFreePointer_refused hR _⟩
  · have refused (len : Nat) := finish_withMem_refused len (List.mem_singleton_self _) (clashes_of_slot_eq hm hr)
    exact ⟨refused _ _, refused _ _, refused _ _, refused _ _, refused _ _, refused _ _, refused _ _, refused _ _⟩
  · have refused (len : Nat) := finish_withMem_refused len (List.mem_singleton_self _) (clashes_of_slot_eq hm hr)
    exact ⟨refused _ _, refused _ _, refused _ _⟩
  · exact finish_withMem_refused _ (List.mem_singleton_self _) (clashes_of_slot_eq hm hr) _

end Sys2Proof.Machine
